-- ==== Sys2Proof/Config/Parameters.lean ====
section
/-! DEFINITION. The implementation parameters of R9 (00_scope.md): the six basic ones, the derived ones as R9 and R10
derive them, the constraints, and the configuration of this machine, which is the defaults. Every width, depth and
count of the definitions is one of these, so another configuration is another value of `Config.parameters`; the host's
address map stays R61's (U9). DESIGN CHOICE, log entry 14. -/

namespace Sys2Proof.Config

/-- The buffer capacities SB_DEPTH, BB_DEPTH and DB_DEPTH (R9; D5, U11): the sub-blocks' functions take them. -/
structure Capacities where
  sb : Nat
  bb : Nat
  db : Nat
  deriving DecidableEq, Repr

/-- The basic parameters of R9: SYM_W, CNT_W, LEN_W and the capacities. -/
structure Parameters where
  symW   : Nat
  cntW   : Nat
  lenW   : Nat
  depths : Capacities
  deriving DecidableEq, Repr

namespace Parameters

/-- A, the number of distinct symbols: 2^SYM_W (R9). -/
abbrev alphabet (p : Parameters) : Nat := 2 ^ p.symW
/-- W_W: CNT_W + SYM_W (R9, R10). -/
abbrev weightW (p : Parameters) : Nat := p.cntW + p.symW
/-- IDX_W: SYM_W + 1 (R9, R10). -/
abbrev idxW (p : Parameters) : Nat := p.symW + 1
/-- NODE_DEPTH: 2*A - 1 (R9). -/
abbrev nodeDepth (p : Parameters) : Nat := 2 * p.alphabet - 1
/-- HEAP_DEPTH: A (R9). -/
abbrev heapDepth (p : Parameters) : Nat := p.alphabet
/-- CODE_MAX: A - 1 (R9, R197). -/
abbrev codeMax (p : Parameters) : Nat := p.alphabet - 1

/-- The constraints of R9. -/
abbrev legal (p : Parameters) : Prop :=
  1 ≤ p.symW ∧ 1 ≤ p.cntW ∧
  p.depths.sb ≤ 2 ^ p.cntW - 1 ∧ p.depths.sb ≤ 2 ^ p.lenW - 1 ∧
  p.depths.bb ≤ 2 ^ p.lenW - 1 ∧ p.depths.db ≤ 2 ^ p.lenW - 1

end Parameters

/-- The one configuration of this machine (R1): the defaults of R9. -/
abbrev parameters : Parameters where
  symW := 8
  cntW := 32
  lenW := 32
  depths := { sb := 4096, bb := 32768, db := 4096 }

/-- SYM_W. -/
abbrev symW : Nat := parameters.symW
/-- A. -/
abbrev alphabet : Nat := parameters.alphabet
/-- CNT_W. -/
abbrev cntW : Nat := parameters.cntW
/-- W_W. -/
abbrev weightW : Nat := parameters.weightW
/-- IDX_W. -/
abbrev idxW : Nat := parameters.idxW
/-- NODE_DEPTH. -/
abbrev nodeDepth : Nat := parameters.nodeDepth
/-- HEAP_DEPTH. -/
abbrev heapDepth : Nat := parameters.heapDepth
/-- CODE_MAX. -/
abbrev codeMax : Nat := parameters.codeMax
/-- LEN_W. -/
abbrev lenW : Nat := parameters.lenW
/-- SB_DEPTH, BB_DEPTH and DB_DEPTH. -/
def depths : Capacities := parameters.depths

end Sys2Proof.Config
end

