-- ==== Sys2Proof/Word.lean ====
section
/-! DEFINITION. The value types of HUFFCORE at the widths of its configuration (R9, 00_scope.md), and the records that the
node arena, the queue and the code table are made of (R22, R25, R28 of 10_state.md). -/

namespace Sys2Proof

/-- A symbol: SYM_W bits (R9). -/
abbrev Sym := BitVec Config.symW
/-- A frequency count: CNT_W bits (R9). -/
abbrev Count := BitVec Config.cntW
/-- A node weight: W_W bits (R9). -/
abbrev Weight := BitVec Config.weightW
/-- A node index, a queue item, the sequence counter: IDX_W bits (R9). -/
abbrev Idx := BitVec Config.idxW
/-- A length register: LEN_W bits (R9). -/
abbrev Len := BitVec Config.lenW
/-- A binary digit (R12): `true` is the digit 1. -/
abbrev Digit := Bool
/-- A sequence of CODE_MAX digits held in hardware (R28): digit j is bit j. -/
abbrev Digits := BitVec Config.codeMax
/-- A codeword length, and a depth of the traversal: SYM_W bits (R28, R36). -/
abbrev CodeLen := BitVec Config.symW
/-- A location number of the host address space: 24 bits (R61). -/
abbrev Addr := BitVec 24
/-- The host's data word: 32 bits (R64: "32 bits suffices for the default parameters"). -/
abbrev HostWord := BitVec 32
/-- The error code field ERR: 3 bits (R34). -/
abbrev ErrCode := BitVec 3

/-- One slot of the node arena (R25). -/
structure Node where
  leaf   : Bool
  sym    : Sym
  weight : Weight
  left   : Idx
  right  : Idx
  deriving DecidableEq, Repr, Inhabited

/-- One entry of the priority queue (R22). -/
structure HeapEntry where
  item   : Idx
  weight : Weight
  seq    : Idx
  deriving DecidableEq, Repr, Inhabited

/-- One entry of the code table (R28); `len = 0` means absent. -/
structure CodeEntry where
  len  : CodeLen
  code : Digits
  deriving DecidableEq, Repr, Inhabited

/-- One pending subtree of the depth-first traversal (R36, R198). -/
structure StackEntry where
  node  : Idx
  depth : CodeLen
  digit : Digit
  deriving DecidableEq, Repr, Inhabited

/-- The operand ports presented beside a micro-operation code (R97 b). -/
structure Ports where
  sym    : Sym
  item   : Idx
  weight : Weight
  deriving DecidableEq, Repr, Inhabited

end Sys2Proof
end

