-- ==== Sys2Proof/Config.lean ====
section
/-! DEFINITION. The free values: what the spec leaves unspecified (R43, R44, R25, R125, R330), as constants without a body. -/

namespace Sys2Proof.Config

/-- FREE VALUE. What SB[i] holds while nobody has written it since a reset (R43 a, U1, U2): `freeSb epoch i`. -/
opaque freeSb : Nat → Nat → Sym
/-- FREE VALUE. What BB[i] holds while R43 calls it unspecified: `freeBb epoch i`. -/
opaque freeBb : Nat → Nat → Digit
/-- FREE VALUE. What DB[i] holds while R43 calls it unspecified: `freeDb epoch i`. -/
opaque freeDb : Nat → Nat → Sym
/-- FREE VALUE. What a node slot that no build has written holds (R25, R44, U2). -/
opaque freeNode : Nat → Nat → Node
/-- FREE VALUE. The count FA_ADD leaves in an entry that held 2^CNT_W - 1 (R125, U4). -/
opaque freeCount : Nat → Count
/-- FREE VALUE. The fields ERR and TREE_VALID of a STATUS read while BUSY = 1 (R330). -/
opaque freeStatus : Nat → BitVec 4

end Sys2Proof.Config
end

