-- ==== Sys2Proof/Syntax.lean ====
section
/-! DEFINITION. The instructions: the four host commands (format H, R92) and the ten micro-operations (format U,
R95), one constructor for each row of spec/opcode_table.json; the words that carry them; the host's own steps (R6);
and the lines of the host script (R100, R101; 30_encoding.md). -/

namespace Sys2Proof

/-- The operations of HUFFCORE. Port operands (R97 b) are typed at their full width. -/
inductive Instr where
  /-- COUNT, host command word 0x01 (R251). -/
  | cmdCount
  /-- BUILD, host command word 0x02 (R252). -/
  | cmdBuild
  /-- ENCODE, host command word 0x03 (R253). -/
  | cmdEncode
  /-- DECODE, host command word 0x04 (R254). -/
  | cmdDecode
  /-- FA_CLEAR, micro-operation 0x0 (R121). -/
  | faClear
  /-- FA_ADD sym, micro-operation 0x1 (R122). -/
  | faAdd (sym : Sym)
  /-- PQ_CLEAR, micro-operation 0x2 (R143). -/
  | pqClear
  /-- PQ_PUSH item, weight, micro-operation 0x3 (R144). -/
  | pqPush (item : Idx) (weight : Weight)
  /-- PQ_POP, micro-operation 0x4 (R145). -/
  | pqPop
  /-- PQ_ISEMPTY, micro-operation 0x5 (R146). -/
  | pqIsEmpty
  /-- TB_BUILD, micro-operation 0x6 (R171). -/
  | tbBuild
  /-- CG_GEN, micro-operation 0x7 (R191). -/
  | cgGen
  /-- ENC_RUN, micro-operation 0x8 (R211). -/
  | encRun
  /-- DEC_RUN, micro-operation 0x9 (R231). -/
  | decRun
  deriving DecidableEq, Repr

/-- What carries an operation: a command word on CMD (format H, R91), or a code on the internal operation bus with
its operand ports (format U, R94). -/
inductive OpWord where
  | host (c : BitVec 8)
  | micro (u : BitVec 4) (ports : Ports)
  deriving DecidableEq, Repr

/-- The regions of the host address space (R61). -/
inductive Region where
  | cmd | status | sbLen | bbLen | dbLen | ft | ctLen | ctBit | sb | bb | db
  deriving DecidableEq, Repr

/-- What the world outside the core can do in one step (R6): a host write, a host read, the reset event (R320), or,
at the sub-blocks' own interface, a micro-operation code with its ports (R8, R94). -/
inductive Input where
  | hostWrite (a : Addr) (v : HostWord)
  | hostRead (a : Addr)
  | reset
  | micro (u : BitVec 4) (ports : Ports)
  deriving DecidableEq, Repr

/-- What a `.expect` line names (R101): a location of a region, or a field of STATUS. -/
inductive Expected where
  | loc (r : Region) (i : Nat)
  | err
  | treeValid
  deriving DecidableEq, Repr

/-- One line of a host script (R101, R102), read from its text. `.sbx` gives `sb` too. -/
inductive Line where
  | count | build | encode | decode
  /-- The pseudo-instruction of R102. -/
  | roundtrip
  | cmd (word : Nat)
  | reset
  | sb (symbols : List Sym)
  | bb (digits : List Digit)
  | ft (pairs : List (Sym × Nat))
  | lenSb (n : Nat)
  | lenBb (n : Nat)
  | expect (what : Expected) (value : Nat)
  deriving DecidableEq, Repr

/-- A field of a location that a script compares with a value (R101, `.expect`). -/
structure Check where
  addr  : Addr
  lo    : Nat
  width : Nat
  value : Nat
  deriving DecidableEq, Repr

/-- What a script line assembles to: a step of the host or the reset event, or a read whose result is compared. -/
inductive ScriptStep where
  | input (i : Input)
  | check (c : Check)
  deriving DecidableEq, Repr

end Sys2Proof
end

