-- ==== Sys2Proof/Machine/State.lean ====
section
/-! DEFINITION. The state of HUFFCORE (R20, 10_state.md), the error kinds (R281, 60_exceptions.md), what can stop the
model, and the state after reset (R44). -/

namespace Sys2Proof.Machine

open Sys2Proof

/-- The error kinds of R281. -/
inductive ErrKind where
  | emptyAlphabet | emptyTree | unknownSymbol | malformedStream | emptyQueue | capacity | illegalCommand
  deriving DecidableEq, Repr

/-- The outcome of an operation (R15, R97 c). -/
inductive Result where
  | ok
  | fail (k : ErrKind)
  deriving DecidableEq, Repr

/-- Sparse storage: (index, value) pairs with strictly rising indices. -/
abbrev Store (α : Type) := List (Nat × α)

/-- A data buffer (R43): the elements whose value is specified, and the epoch that the free values of the others are
taken from. -/
structure Buffer (α : Type) where
  cells : Store α
  epoch : Nat
  deriving DecidableEq, Repr

/-- What a micro-operation driven at the sub-block interface presents on its result ports (R97 b, c). -/
structure Reply where
  result : Result
  item   : Option Idx
  weight : Option Weight
  empty  : Option Bool
  deriving DecidableEq, Repr

/-- The state (R20). HEAP holds the entries HEAP[0 .. HEAP_N), so HEAP_N is its length; STATUS is assembled from its
fields (R32); the last four fields are the model's own (log entries 2, 6, 12, 13). -/
structure State where
  ft        : Store Count
  heap      : List HeapEntry
  seq       : Idx
  node      : List Node
  root      : Idx
  treeValid : Bool
  ct        : Store CodeEntry
  sb        : Buffer Sym
  sbLen     : Len
  bb        : Buffer Digit
  bbLen     : Len
  db        : Buffer Sym
  dbLen     : Len
  err       : ErrCode
  busy      : Bool
  k         : Idx
  cur       : Idx
  out       : Len
  path      : Digits
  depth     : CodeLen
  dstack    : List StackEntry
  pending   : List Input
  hostData  : HostWord
  reply     : Reply
  free      : Nat
  deriving DecidableEq, Repr

/-- What stops the machine. -/
inductive Fault where
  /-- CG_GEN and BUILD: the traversal found an internal node at depth CODE_MAX, which R40 and R197 rule out. Raised only
  in states that no run reaches. Safe. -/
  | corruptTree
  /-- TB_BUILD, CG_GEN and BUILD: a loop that the spec shows to end (R176, R255) used up its bound; for CG_GEN only on
  node storage that breaks R40. Raised only in states that no run reaches. Safe. -/
  | unboundedLoop
  deriving DecidableEq, Repr

/-- What has no meaning in the model. -/
inductive Refusal where
  /-- `exec`: an instruction without a meaning. Safe. -/
  | notModelled (mnemonic : String)
  /-- `step`: an access, other than a STATUS read, while BUSY = 1 (R66, R257, U3: "refuse"). Safe. -/
  | accessWhileBusy
  deriving DecidableEq, Repr

/-- The state after reset (R44). SB, BB, DB and NODE list nothing: their values are unspecified. The scratch registers
K, CUR, OUT, PATH, DEPTH and DSTACK are unspecified too and are 0 or empty here: DESIGN CHOICE, log entry 3. -/
def State.reset : State where
  ft := []
  heap := []
  seq := 0#_
  node := []
  root := 0#_
  treeValid := false
  ct := []
  sb := { cells := [], epoch := 0 }
  sbLen := 0#_
  bb := { cells := [], epoch := 0 }
  bbLen := 0#_
  db := { cells := [], epoch := 0 }
  dbLen := 0#_
  err := 0#3
  busy := false
  k := 0#_
  cur := 0#_
  out := 0#_
  path := 0#_
  depth := 0#_
  dstack := []
  pending := []
  hostData := 0#32
  reply := { result := .ok, item := none, weight := none, empty := none }
  free := 0

end Sys2Proof.Machine
end

