-- ==== Sys2Proof/Machine/Store.lean ====
section
/-! DEFINITION. Sparse storage for the tables and buffers: reading, writing, and its one canonical form. -/

namespace Sys2Proof.Machine

/-- The value listed at index `k`. -/
def Store.find {α : Type} : Store α → Nat → Option α
  | [], _ => none
  | (j, v) :: r, k => if j = k then some v else Store.find r k

/-- List `v` at index `k`, in order. -/
def Store.put {α : Type} : Store α → Nat → α → Store α
  | [], k, v => [(k, v)]
  | (j, w) :: r, k, v =>
    if k < j then (k, v) :: (j, w) :: r
    else if k = j then (k, v) :: r
    else (j, w) :: Store.put r k v

/-- Take index `k` off the list. -/
def Store.clear {α : Type} (l : Store α) (k : Nat) : Store α := l.filter (fun p => !(p.1 == k))

/-- Write `v` at `k` where an unlisted index reads as `dflt`: writing `dflt` takes the entry off the list. -/
def Store.write {α : Type} [DecidableEq α] (dflt : α) (l : Store α) (k : Nat) (v : α) : Store α :=
  if v = dflt then l.clear k else l.put k v

/-- The listing of a sequence from index `i` on. -/
def Store.ofListFrom {α : Type} : Nat → List α → Store α
  | _, [] => []
  | i, v :: vs => (i, v) :: Store.ofListFrom (i + 1) vs

/-- The canonical form: indices strictly rising and below `n`. -/
abbrev Store.wf {α : Type} (n : Nat) (l : Store α) : Prop :=
  l.Pairwise (fun a b => a.1 < b.1) ∧ ∀ p ∈ l, p.1 < n

/-- The canonical form of a table whose unlisted entries read as `dflt`: no entry equals `dflt`. -/
abbrev Store.tableWf {α : Type} (dflt : α) (n : Nat) (l : Store α) : Prop :=
  Store.wf n l ∧ ∀ p ∈ l, p.2 ≠ dflt

/-- Write one element of a buffer (R43: "each element holds the value most recently written to it"). -/
def Buffer.put {α : Type} (b : Buffer α) (i : Nat) (v : α) : Buffer α := { b with cells := b.cells.put i v }

/-- An output buffer after the command that owns it: the elements `out` from index 0, everything else unspecified from
now on (R43 b), so with free values of a new epoch. -/
def Buffer.holding {α : Type} (b : Buffer α) (out : List α) : Buffer α :=
  { cells := Store.ofListFrom 0 out, epoch := b.epoch + 1 }

end Sys2Proof.Machine
end

