-- ==== Sys2Proof/Machine/Operands.lean ====
section
/-! DEFINITION. The operand forms (R97): implicit operands by element (R14, `T[i]`), and the digit sequences of code
entries and of the PATH register (R28, R198). -/

namespace Sys2Proof.Machine

open Sys2Proof

/-- Digit `j` of a digit register (R28). -/
def digitAt (ds : Digits) (j : Nat) : Digit := ds.getLsbD j

/-- The digit register with digit `j` replaced. -/
def setDigit (ds : Digits) (j : Nat) (b : Digit) : Digits :=
  (ds &&& ~~~(1#_ <<< j)) ||| (if b then 1#_ <<< j else 0#_)

/-- The first `n` digits, digit 0 first. -/
def firstDigits (ds : Digits) (n : Nat) : List Digit := (List.range n).map (digitAt ds)

/-- A digit sequence followed by digits 0 up to CODE_MAX (R191, `assign`). -/
def digitsOf : List Digit → Digits
  | [] => 0#_
  | b :: bs => (digitsOf bs <<< 1) ||| (if b then 1#_ else 0#_)

/-- The absent code entry (R28): length 0 and all digits 0. -/
def absentCode : CodeEntry := { len := 0#_, code := 0#_ }

/-- The code entry that `assign` writes for the digit sequence `p` (R191). -/
def codeEntry (p : List Digit) : CodeEntry := { len := BitVec.ofNat _ p.length, code := digitsOf p }

/-- The codeword of an entry, `code[0 .. len)` (R28). -/
def codeword (e : CodeEntry) : List Digit := firstDigits e.code e.len.toNat

/-- `FT[s].count` (R21). -/
def State.count (s : State) (x : Sym) : Count := (s.ft.find x.toNat).getD 0#_

/-- `CT[s]` (R28). -/
def State.code (s : State) (x : Sym) : CodeEntry := (s.ct.find x.toNat).getD absentCode

/-- `SB[i]`; an element nobody has written is a free value (R43, log entry 1). -/
def State.sbAt (s : State) (i : Nat) : Sym := (s.sb.cells.find i).getD (Config.freeSb s.sb.epoch i)

/-- `BB[i]`; an unspecified element is a free value (R43, log entry 1). -/
def State.bbAt (s : State) (i : Nat) : Digit := (s.bb.cells.find i).getD (Config.freeBb s.bb.epoch i)

/-- `DB[i]`; an unspecified element is a free value (R43, log entry 1). -/
def State.dbAt (s : State) (i : Nat) : Sym := (s.db.cells.find i).getD (Config.freeDb s.db.epoch i)

/-- `NODE[k]`; a slot that no build has written is a free value (R25, log entry 4). -/
def State.nodeAt (s : State) (k : Idx) : Node := (s.node[k.toNat]?).getD (Config.freeNode s.free k.toNat)

/-- HEAP_N (R23). -/
def State.heapN (s : State) : Nat := s.heap.length

/-- The symbol sequence the host supplies, `SB[0 .. SB_LEN)` (R29). -/
def State.symbols (s : State) : List Sym := (List.range s.sbLen.toNat).map s.sbAt

/-- The encoded stream, `BB[0 .. BB_LEN)` (R30). -/
def State.stream (s : State) : List Digit := (List.range s.bbLen.toNat).map s.bbAt

/-- The decoded sequence, `DB[0 .. DB_LEN)` (R31). -/
def State.decoded (s : State) : List Sym := (List.range s.dbLen.toNat).map s.dbAt

end Sys2Proof.Machine
end

