-- ==== Sys2Proof/Machine/Flags.lean ====
section
/-! DEFINITION. The flags (R39, 10_state.md): the result code ERR (R34, R281), the queue's empty condition, and STATUS
assembled from its fields (R32). -/

namespace Sys2Proof.Machine

open Sys2Proof

/-- The codes of R281. -/
def ErrKind.code : ErrKind → ErrCode
  | .emptyAlphabet => 1#3
  | .emptyTree => 2#3
  | .unknownSymbol => 3#3
  | .malformedStream => 4#3
  | .emptyQueue => 5#3
  | .capacity => 6#3
  | .illegalCommand => 7#3

/-- What ERR reports for an outcome (R34, R250). -/
def Result.code : Result → ErrCode
  | .ok => 0#3
  | .fail k => k.code

/-- The queue's empty condition, `HEAP_N = 0` (R39). -/
def State.queueEmpty (s : State) : Bool := s.heap.isEmpty

/-- STATUS from its fields (R32): bit 0 BUSY, bit 1 TREE_VALID, bits 4:2 ERR, bits 7:5 zero. -/
def statusWord (err : ErrCode) (treeValid busy : Bool) : BitVec 8 :=
  0#3 ++ err ++ BitVec.ofBool treeValid ++ BitVec.ofBool busy

/-- STATUS as the host reads it. While BUSY = 1 the other fields are unspecified (R330): free values. -/
def State.status (s : State) : BitVec 8 :=
  if s.busy then 0#3 ++ Config.freeStatus s.free ++ 1#1 else statusWord s.err s.treeValid false

end Sys2Proof.Machine
end

