-- ==== Sys2Proof/Machine/Ops.lean ====
section
/-! DEFINITION. The operations the meanings share: writes of table and buffer elements (R14), the acceptance and the
completion of a host command (R250), what a failing command changes (R291), what a micro-operation presents on its
result ports (R97), and the reset event (R320). -/

namespace Sys2Proof.Machine

open Sys2Proof

/-- `FT[x].count <- v`. -/
def State.setCount (s : State) (x : Sym) (v : Count) : State :=
  { s with ft := Store.write 0#_ s.ft x.toNat v }

/-- `CT[x] <- e`. -/
def State.setCode (s : State) (x : Sym) (e : CodeEntry) : State :=
  { s with ct := Store.write absentCode s.ct x.toNat e }

/-- `SB[i] <- v`. -/
def State.setSb (s : State) (i : Nat) (v : Sym) : State := { s with sb := s.sb.put i v }

/-- `BB[i] <- v`, by the host. -/
def State.setBb (s : State) (i : Nat) (v : Digit) : State := { s with bb := s.bb.put i v }

/-- `NODE[K] <- n`, where K is the first slot past those the running build has written (R171, R175). -/
def State.pushNode (s : State) (n : Node) : State := { s with node := s.node ++ [n] }

/-- The acceptance of a command word: BUSY becomes 1 (R35, R250). -/
def State.accept (s : State) : State := { s with busy := true }

/-- TAKING AN ERROR, and success: the completion of a host command. ERR gets the code of its outcome and BUSY becomes
0 (R250, R291 a). Nothing is saved and nothing is restored (R291, R292): the next command runs from this state. -/
def State.complete (s : State) (r : Result) : State := { s with err := r.code, busy := false }

/-- What ENC_RUN leaves in its output (R211, R212, R43): on success the stream and its length, on failure length 0;
every element of BB at or past the length is unspecified from now on. -/
def State.leaveStream (s : State) (r : Result) (out : List Digit) : State :=
  match r with
  | .ok => { s with bb := s.bb.holding out, bbLen := BitVec.ofNat _ out.length }
  | .fail _ => { s with bb := s.bb.holding [], bbLen := 0#_ }

/-- What DEC_RUN leaves in its output (R231, R234, R43). -/
def State.leaveDecoded (s : State) (r : Result) (out : List Sym) : State :=
  match r with
  | .ok => { s with db := s.db.holding out, dbLen := BitVec.ofNat _ out.length }
  | .fail _ => { s with db := s.db.holding [], dbLen := 0#_ }

/-- A reply with a result and no value on any port. -/
def replyOf (r : Result) : Reply := { result := r, item := none, weight := none, empty := none }

/-- What a micro-operation driven at the sub-block interface presents (R97 b, c). -/
def State.present (s : State) (r : Reply) : State := { s with reply := r }

/-- The reset event (R320, R44): every piece of the spec's state as after reset. The inputs still to come stay, and the
unspecified buffer elements take free values of a new epoch (log entries 1 and 6). -/
def State.resetEvent (s : State) : State :=
  { State.reset with
    sb := { cells := [], epoch := s.sb.epoch + 1 }
    bb := { cells := [], epoch := s.bb.epoch + 1 }
    db := { cells := [], epoch := s.db.epoch + 1 }
    pending := s.pending
    hostData := s.hostData
    free := s.free + 1 }

/-- The canonical form of all the storage. -/
abbrev Memory.wf (s : State) : Prop :=
  Store.tableWf 0#_ Config.alphabet s.ft ∧ Store.tableWf absentCode Config.alphabet s.ct ∧
  Store.wf Config.depths.sb s.sb.cells ∧ Store.wf Config.depths.bb s.bb.cells ∧
  Store.wf Config.depths.db s.db.cells

end Sys2Proof.Machine
end

