-- ==== Sys2Proof/Machine/CodeGenerator.lean ====
section
/-! DEFINITION. The codeword_table_generator (43_codeword_table_generator.md): CG_GEN (R191), with its depth-first
traversal by the scratch registers PATH, DEPTH and DSTACK as R198 lays it out. -/

namespace Sys2Proof.Machine

open Sys2Proof

/-- `assign(x, p)` (R191). -/
def assignCode (x : Sym) (p : List Digit) (s : State) : State := s.setCode x (codeEntry p)

/-- `DEPTH <- d; if d > 0 set PATH[d-1] <- b`, for the entry taken off DSTACK (R198). -/
def enterNode (e : StackEntry) (rest : List StackEntry) (s : State) : State :=
  { s with
    dstack := rest
    depth := e.depth
    path := if e.depth = 0#_ then s.path else setDigit s.path (e.depth.toNat - 1) e.digit }

/-- The two entries an internal node at depth `d` leaves on DSTACK, the left child on top (R198). -/
def childEntries (n : Node) (d : CodeLen) : List StackEntry :=
  [{ node := n.left, depth := d + 1#_, digit := false }, { node := n.right, depth := d + 1#_, digit := true }]

/-- The traversal (R191, R198), with a bound on its iterations: each takes one node. -/
def walkLoop : Nat → State → Except Fault State
  | 0, s => if s.dstack = [] then .ok s else .error .unboundedLoop
  | n + 1, s =>
    match s.dstack with
    | [] => .ok s
    | e :: rest =>
      let t := enterNode e rest s
      let nd := s.nodeAt e.node
      if nd.leaf then walkLoop n (assignCode nd.sym (firstDigits t.path e.depth.toNat) t)
      else if e.depth = BitVec.ofNat _ Config.codeMax then .error .corruptTree
      else walkLoop n { t with dstack := childEntries nd e.depth ++ rest }

/-- The empty table and the initialised traversal registers (R191, R36). -/
def startWalk (s : State) : State :=
  { s with
    ct := []
    path := 0#_
    depth := 0#_
    dstack := [{ node := s.root, depth := 0#_, digit := false }] }

/-- CG_GEN (R191). A root that is a leaf gets the fixed codeword "0" (R192). -/
def cgGen (s : State) : Except Fault (State × Result) :=
  if s.treeValid = false then .ok (s, .fail .emptyTree)
  else if (s.nodeAt s.root).leaf then
    .ok ({ assignCode (s.nodeAt s.root).sym [false] (startWalk s) with dstack := [] }, .ok)
  else
    match walkLoop Config.nodeDepth (startWalk s) with
    | .ok t => .ok (t, .ok)
    | .error f => .error f

/-- CG_GEN at the sub-block interface. -/
def execCgGen (s : State) : Host.Outcome State Fault Refusal :=
  match cgGen s with
  | .ok (t, r) => .next (t.present (replyOf r))
  | .error f => .fault f

end Sys2Proof.Machine
end

