-- ==== Sys2Proof/Machine/Decoder.lean ====
section
/-! DEFINITION. The huffman_decoder (45_huffman_decoder.md): DEC_RUN (R231). -/

namespace Sys2Proof.Machine

open Sys2Proof

/-- The node that digit `b` leads to from the internal node `n` (R231): 0 moves left, 1 moves right. -/
def childOf (n : Node) (b : Digit) : Idx := if b then n.right else n.left

/-- The loop of DEC_RUN over the indices of BB still to come, with the walk position CUR and the symbols emitted so
far (R231). The end-of-stream check of R232 is its last step. -/
def decodeLoop (cap : Config.Capacities) (s : State) : List Nat → Idx → List Sym → Idx × List Sym × Result
  | [], cur, out => (cur, out, if cur = s.root then .ok else .fail .malformedStream)
  | i :: is, cur, out =>
    let n := s.nodeAt cur
    let b := s.bbAt i
    if n.leaf && b then (cur, out, .fail .malformedStream)
    else
      let nxt := if n.leaf then cur else childOf n b
      if (s.nodeAt nxt).leaf then
        if out.length = cap.db then (cur, out, .fail .capacity)
        else decodeLoop cap s is s.root (out ++ [(s.nodeAt nxt).sym])
      else decodeLoop cap s is nxt out

/-- DEC_RUN (R231) for given buffer capacities. -/
def decRun (cap : Config.Capacities) (s : State) : State × Result :=
  if s.treeValid = false then (s.leaveDecoded (.fail .emptyTree) [], .fail .emptyTree)
  else if cap.bb < s.bbLen.toNat then (s.leaveDecoded (.fail .capacity) [], .fail .capacity)
  else
    let r := decodeLoop cap s (List.range s.bbLen.toNat) s.root []
    ({ s.leaveDecoded r.2.2 r.2.1 with cur := r.1, out := BitVec.ofNat _ r.2.1.length }, r.2.2)

/-- DEC_RUN at the sub-block interface. -/
def execDecRun (s : State) : Host.Outcome State Fault Refusal :=
  .next ((decRun Config.depths s).1.present (replyOf (decRun Config.depths s).2))

end Sys2Proof.Machine
end

