-- ==== Sys2Proof/Machine/Encoder.lean ====
section
/-! DEFINITION. The huffman_encoder (44_huffman_encoder.md): ENC_RUN (R211). -/

namespace Sys2Proof.Machine

open Sys2Proof

/-- The loop of ENC_RUN over the indices of SB still to come, with the digits emitted so far (R211). -/
def encodeLoop (cap : Config.Capacities) (s : State) : List Nat → List Digit → List Digit × Result
  | [], out => (out, .ok)
  | i :: is, out =>
    let e := s.code (s.sbAt i)
    if e.len = 0#_ then (out, .fail .unknownSymbol)
    else if cap.bb < out.length + e.len.toNat then (out, .fail .capacity)
    else encodeLoop cap s is (out ++ codeword e)

/-- ENC_RUN (R211) for given buffer capacities. -/
def encRun (cap : Config.Capacities) (s : State) : State × Result :=
  if cap.sb < s.sbLen.toNat then (s.leaveStream (.fail .capacity) [], .fail .capacity)
  else
    let r := encodeLoop cap s (List.range s.sbLen.toNat) []
    ({ s.leaveStream r.2 r.1 with out := BitVec.ofNat _ r.1.length }, r.2)

/-- ENC_RUN at the sub-block interface. -/
def execEncRun (s : State) : Host.Outcome State Fault Refusal :=
  .next ((encRun Config.depths s).1.present (replyOf (encRun Config.depths s).2))

end Sys2Proof.Machine
end

