-- ==== Sys2Proof/Machine/FrequencyAccumulator.lean ====
section
/-! DEFINITION. The frequency_accumulator (40_frequency_accumulator.md): FA_CLEAR (R121) and FA_ADD (R122). -/

namespace Sys2Proof.Machine

open Sys2Proof

/-- FA_CLEAR (R121): every count becomes 0, which no entry of `ft` lists. -/
def faClear (s : State) : State := { s with ft := [] }

/-- FA_ADD (R122). From 2^CNT_W - 1 the new count is a free value (R125, U4; log entry 2). -/
def faAdd (x : Sym) (s : State) : State :=
  if s.count x = BitVec.allOnes _ then { s.setCount x (Config.freeCount s.free) with free := s.free + 1 }
  else s.setCount x (s.count x + 1#_)

/-- FA_CLEAR at the sub-block interface. -/
def execFaClear (s : State) : Host.Outcome State Fault Refusal :=
  .next ((faClear s).present (replyOf .ok))

/-- FA_ADD at the sub-block interface. -/
def execFaAdd (x : Sym) (s : State) : Host.Outcome State Fault Refusal :=
  .next ((faAdd x s).present (replyOf .ok))

end Sys2Proof.Machine
end

