-- ==== Sys2Proof/Machine/PriorityQueue.lean ====
section
/-! DEFINITION. The priority_queue_min_heap (41_priority_queue_min_heap.md): PQ_CLEAR (R143), PQ_PUSH (R144),
PQ_POP (R145) and PQ_ISEMPTY (R146), over the array layout of R142. -/

namespace Sys2Proof.Machine

open Sys2Proof

/-- The order of R141: `(weight, seq)` compared lexicographically (R14). -/
def keyLt (a b : HeapEntry) : Bool :=
  decide (a.weight < b.weight ∨ (a.weight = b.weight ∧ a.seq < b.seq))

/-- `HEAP[i]` has a smaller key than `HEAP[j]`. -/
def heapLt (h : List HeapEntry) (i j : Nat) : Bool :=
  match h[i]?, h[j]? with
  | some a, some b => keyLt a b
  | _, _ => false

/-- `swap(HEAP[i], HEAP[j])` (R14). -/
def heapSwap (h : List HeapEntry) (i j : Nat) : List HeapEntry :=
  match h[i]?, h[j]? with
  | some a, some b => (h.set i b).set j a
  | _, _ => h

/-- The sift-up loop of R144 from index `i`, with a bound on its iterations. -/
def siftUp : Nat → Nat → List HeapEntry → List HeapEntry
  | 0, _, h => h
  | n + 1, i, h =>
    if i = 0 then h
    else if heapLt h i ((i - 1) / 2) then siftUp n ((i - 1) / 2) (heapSwap h i ((i - 1) / 2))
    else h

/-- The smaller child of index `i`, whose left child exists (R145). -/
def smallerChild (h : List HeapEntry) (i : Nat) : Nat :=
  if 2 * i + 2 < h.length ∧ heapLt h (2 * i + 2) (2 * i + 1) then 2 * i + 2 else 2 * i + 1

/-- The sift-down loop of R145 from index `i`, with a bound on its iterations. -/
def siftDown : Nat → Nat → List HeapEntry → List HeapEntry
  | 0, _, h => h
  | n + 1, i, h =>
    if h.length ≤ 2 * i + 1 then h
    else if heapLt h (smallerChild h i) i then
      siftDown n (smallerChild h i) (heapSwap h i (smallerChild h i))
    else h

/-- PQ_CLEAR (R143). -/
def pqClear (s : State) : State := { s with heap := [], seq := 0#_ }

/-- PQ_PUSH (R144). The queue is full at HEAP_DEPTH entries, and past it, where no run comes. -/
def pqPush (item : Idx) (weight : Weight) (s : State) : State × Result :=
  if Config.heapDepth ≤ s.heap.length ∨ s.seq = BitVec.allOnes _ then (s, .fail .capacity)
  else
    ({ s with
        heap := siftUp (s.heap.length + 1) s.heap.length
          (s.heap ++ [{ item := item, weight := weight, seq := s.seq }])
        seq := s.seq + 1#_ }, .ok)

/-- What is left of the array when the root is taken: the last entry moves to the root and sifts down (R145). -/
def heapAfterPop (h : List HeapEntry) : List HeapEntry :=
  match h.dropLast, h.getLast? with
  | _ :: rest, some last => siftDown h.length 0 (last :: rest)
  | _, _ => []

/-- PQ_POP (R145): the entry at the root, or EmptyQueueError. -/
def pqPop (s : State) : State × Option HeapEntry :=
  match s.heap with
  | [] => (s, none)
  | root :: _ => ({ s with heap := heapAfterPop s.heap }, some root)

/-- PQ_ISEMPTY (R146). -/
def pqIsEmpty (s : State) : Bool := s.queueEmpty

/-- PQ_CLEAR at the sub-block interface. -/
def execPqClear (s : State) : Host.Outcome State Fault Refusal :=
  .next ((pqClear s).present (replyOf .ok))

/-- PQ_PUSH at the sub-block interface. -/
def execPqPush (item : Idx) (weight : Weight) (s : State) : Host.Outcome State Fault Refusal :=
  .next ((pqPush item weight s).1.present (replyOf (pqPush item weight s).2))

/-- PQ_POP at the sub-block interface: item and weight on the result ports, or EmptyQueueError (R145). -/
def execPqPop (s : State) : Host.Outcome State Fault Refusal :=
  match pqPop s with
  | (t, some e) => .next (t.present { result := .ok, item := some e.item, weight := some e.weight, empty := none })
  | (t, none) => .next (t.present (replyOf (.fail .emptyQueue)))

/-- PQ_ISEMPTY at the sub-block interface. -/
def execPqIsEmpty (s : State) : Host.Outcome State Fault Refusal :=
  .next (s.present { result := .ok, item := none, weight := none, empty := some (pqIsEmpty s) })

end Sys2Proof.Machine
end

