-- ==== Sys2Proof/Machine/TreeBuilder.lean ====
section
/-! DEFINITION. The huffman_tree_builder (42_huffman_tree_builder.md): TB_BUILD (R171). -/

namespace Sys2Proof.Machine

open Sys2Proof

/-- All the symbol values, ascending (R172). -/
def allSymbols : List Sym := (List.range Config.alphabet).map (BitVec.ofNat _)

/-- A leaf as TB_BUILD writes it (R171). -/
def leafNode (x : Sym) (c : Count) : Node :=
  { leaf := true, sym := x, weight := c.setWidth _, left := 0#_, right := 0#_ }

/-- An internal node as TB_BUILD writes it (R171, R173): first-popped left, second-popped right. -/
def mergeNode (a b : HeapEntry) : Node :=
  { leaf := false, sym := 0#_, weight := a.weight + b.weight, left := a.item, right := b.item }

/-- `NODE[K] <- n; PQ_PUSH K, NODE[K].weight; K <- K + 1` (R171). -/
def addNode (n : Node) (s : State) : State × Result :=
  match pqPush s.k n.weight (s.pushNode n) with
  | (t, .ok) => ({ t with k := t.k + 1#_ }, .ok)
  | (t, .fail e) => (t, .fail e)

/-- The loop that makes one leaf for each recorded symbol (R171). -/
def addLeaves : List Sym → State → State × Result
  | [], s => (s, .ok)
  | x :: xs, s =>
    if s.count x = 0#_ then addLeaves xs s
    else
      match addNode (leafNode x (s.count x)) s with
      | (t, .ok) => addLeaves xs t
      | (t, .fail e) => (t, .fail e)

/-- The merging loop (R171), with a bound on its iterations. -/
def mergeLoop : Nat → State → Except Fault (State × Result)
  | 0, _ => .error .unboundedLoop
  | n + 1, s =>
    match pqPop s with
    | (t, none) => .ok (t, .fail .emptyQueue)
    | (t, some a) =>
      if pqIsEmpty t then .ok ({ t with root := a.item }, .ok)
      else
        match pqPop t with
        | (u, none) => .ok (u, .fail .emptyQueue)
        | (u, some b) =>
          match addNode (mergeNode a b) u with
          | (v, .ok) => mergeLoop n v
          | (v, .fail e) => .ok (v, .fail e)

/-- FT denotes the empty mapping (R171, R282). -/
def State.alphabetEmpty (s : State) : Bool := allSymbols.all (fun x => s.count x == 0#_)

/-- TB_BUILD after its precondition: the previous tree is discarded, then leaves, then merges (R171, R177). The slots
of the previous tree hold unspecified values from here on (R25), so they are taken off the list. -/
def startBuild (s : State) : State := { pqClear { s with treeValid := false, node := [] } with k := 0#_ }

/-- TB_BUILD (R171). -/
def tbBuild (s : State) : Except Fault (State × Result) :=
  if s.alphabetEmpty then .ok (s, .fail .emptyAlphabet)
  else
    match addLeaves allSymbols (startBuild s) with
    | (t, .fail e) => .ok (t, .fail e)
    | (t, .ok) =>
      match mergeLoop (Config.alphabet + 1) t with
      | .ok (u, .ok) => .ok ({ u with treeValid := true }, .ok)
      | .ok (u, .fail e) => .ok (u, .fail e)
      | .error f => .error f

/-- TB_BUILD at the sub-block interface. -/
def execTbBuild (s : State) : Host.Outcome State Fault Refusal :=
  match tbBuild s with
  | .ok (t, r) => .next (t.present (replyOf r))
  | .error f => .fault f

end Sys2Proof.Machine
end

