-- ==== Sys2Proof/Machine/Sequencer.lean ====
section
/-! DEFINITION. The codec sequencer (46_codec_sequencer.md): the four host commands (R251 to R254) and the illegal
command word (R256), each accepted and completed as R250 says. -/

namespace Sys2Proof.Machine

open Sys2Proof

/-- COUNT's micro-operations (R251) for given buffer capacities. -/
def runCount (cap : Config.Capacities) (s : State) : State × Result :=
  if cap.sb < s.sbLen.toNat then (s, .fail .capacity)
  else ((List.range s.sbLen.toNat).foldl (fun t i => faAdd (t.sbAt i) t) (faClear s), .ok)

/-- BUILD's micro-operations (R252): the first that fails ends the command (R250). -/
def runBuild (s : State) : Except Fault (State × Result) :=
  match tbBuild s with
  | .ok (t, .ok) => cgGen t
  | .ok (t, .fail e) => .ok (t, .fail e)
  | .error f => .error f

/-- A host command from its acceptance to its completion (R250), for micro-operations that always end. -/
def runCommand (run : State → State × Result) (s : State) : Host.Outcome State Fault Refusal :=
  .next ((run s.accept).1.complete (run s.accept).2)

/-- COUNT (R251). -/
def execCmdCount (s : State) : Host.Outcome State Fault Refusal := runCommand (runCount Config.depths) s

/-- BUILD (R252). -/
def execCmdBuild (s : State) : Host.Outcome State Fault Refusal :=
  match runBuild s.accept with
  | .ok (t, r) => .next (t.complete r)
  | .error f => .fault f

/-- ENCODE (R253). -/
def execCmdEncode (s : State) : Host.Outcome State Fault Refusal := runCommand (encRun Config.depths) s

/-- DECODE (R254). -/
def execCmdDecode (s : State) : Host.Outcome State Fault Refusal := runCommand (decRun Config.depths) s

/-- An illegal command word (R256): no micro-operation runs, the command completes as IllegalCommand. -/
def illegalCommand (s : State) : Host.Outcome State Fault Refusal :=
  runCommand (fun t => (t, .fail .illegalCommand)) s

end Sys2Proof.Machine
end

