-- ==== Sys2Proof/Machine/Dispatch.lean ====
section
/-! DEFINITION. One arm for each instruction. -/

namespace Sys2Proof.Machine

open Sys2Proof

def exec (i : Instr) (s : State) : Host.Outcome State Fault Refusal :=
  match i with
  | .cmdCount => Sys2Proof.Machine.execCmdCount s
  | .cmdBuild => Sys2Proof.Machine.execCmdBuild s
  | .cmdEncode => Sys2Proof.Machine.execCmdEncode s
  | .cmdDecode => Sys2Proof.Machine.execCmdDecode s
  | .faClear => Sys2Proof.Machine.execFaClear s
  | .faAdd sym => Sys2Proof.Machine.execFaAdd sym s
  | .pqClear => Sys2Proof.Machine.execPqClear s
  | .pqPush item weight => Sys2Proof.Machine.execPqPush item weight s
  | .pqPop => Sys2Proof.Machine.execPqPop s
  | .pqIsEmpty => Sys2Proof.Machine.execPqIsEmpty s
  | .tbBuild => Sys2Proof.Machine.execTbBuild s
  | .cgGen => Sys2Proof.Machine.execCgGen s
  | .encRun => Sys2Proof.Machine.execEncRun s
  | .decRun => Sys2Proof.Machine.execDecRun s

end Sys2Proof.Machine
end

