-- ==== Sys2Proof/WellFormed.lean ====
section
/-! DEFINITION. Well-formedness. The port operands of an instruction are typed at their widths (R97), so every `Instr`
is well formed as a term; the checks are on the words that carry instructions (R91 to R96), on host accesses (R61),
and on script lines (R101). -/

namespace Sys2Proof

/-- A legal format H word: `zero` is 0 and `op` is 1, 2, 3 or 4 (R91 to R93). -/
def hostWordWf (c : BitVec 8) : Bool :=
  c.extractLsb' 3 5 == 0#5 && (c.extractLsb' 0 3 == 1#3 || c.extractLsb' 0 3 == 2#3 || c.extractLsb' 0 3 == 3#3
    || c.extractLsb' 0 3 == 4#3)

/-- A format U code that is not reserved (R95, R96). -/
def microCodeWf (u : BitVec 4) : Bool := decide (u.toNat ≤ 9)

/-- The ports an operation does not use carry 0; which ports it uses is R95's "operands in". -/
def portsWf (u : BitVec 4) (p : Ports) : Bool :=
  (u == 1#4 || p.sym == 0#_) && (u == 3#4 || (p.item == 0#_ && p.weight == 0#_))

/-- A word some instruction encodes to. -/
def OpWord.wf : OpWord → Bool
  | .host c => hostWordWf c
  | .micro u p => microCodeWf u && portsWf u p

/-- The number of locations of a region (R61). -/
def Region.size : Region → Nat
  | .cmd | .status | .sbLen | .bbLen | .dbLen => 1
  | .ft | .ctLen => Config.alphabet
  | .ctBit => Config.alphabet * 256
  | .sb => Config.depths.sb
  | .bb => Config.depths.bb
  | .db => Config.depths.db

/-- Location `i` of region `r` exists (R61). -/
def accessWf (r : Region) (i : Nat) : Bool := decide (i < r.size)

/-- A script line whose values fit what it assembles to (R101): a byte for `.cmd`, sequences that fit their buffers,
counts and lengths that fit their registers, an existing location for `.expect`. -/
def Line.wf : Line → Bool
  | .count | .build | .encode | .decode | .roundtrip | .reset => true
  | .cmd w => decide (w < 256)
  | .sb xs => decide (xs.length ≤ Region.sb.size)
  | .bb ds => decide (ds.length ≤ Region.bb.size)
  | .ft ps => ps.all (fun p => decide (p.2 < 2 ^ Config.cntW))
  | .lenSb n => decide (n < 2 ^ Config.lenW)
  | .lenBb n => decide (n < 2 ^ Config.lenW)
  | .expect (.loc r i) _ => accessWf r i
  | .expect .err _ => true
  | .expect .treeValid _ => true

end Sys2Proof
end

