-- ==== Sys2Proof/Decode.lean ====
section
/-! DEFINITION. The decoders of the two formats (R91 to R96, 30_encoding.md), total on every word and rejecting by name,
the encoder, and the reading of spec/opcode_table.json's rows. -/

namespace Sys2Proof

/-- Why a word is no instruction. -/
inductive Reject where
  /-- R93: every 8-bit word but 0x01 to 0x04. -/
  | illegalCommand (c : BitVec 8)
  /-- R96: the codes 0xA to 0xF. -/
  | reservedMicroOp (u : BitVec 4)
  deriving DecidableEq, Repr

/-- What a decoder answers. -/
inductive Decoded where
  | instr (i : Instr)
  | reject (r : Reject)
  deriving DecidableEq, Repr

/-- Field `zero` of a command word (R91). -/
def zeroField (c : BitVec 8) : BitVec 5 := c.extractLsb' 3 5

/-- Field `op` of a command word (R91). -/
def opField (c : BitVec 8) : BitVec 3 := c.extractLsb' 0 3

/-- Format H (R92, R93). -/
def decodeHost (c : BitVec 8) : Decoded :=
  if zeroField c = 0#5 then
    if opField c = 1#3 then .instr .cmdCount
    else if opField c = 2#3 then .instr .cmdBuild
    else if opField c = 3#3 then .instr .cmdEncode
    else if opField c = 4#3 then .instr .cmdDecode
    else .reject (.illegalCommand c)
  else .reject (.illegalCommand c)

/-- Format U (R95, R96), with the operands taken from the ports (R97 b). -/
def decodeMicro (u : BitVec 4) (p : Ports) : Decoded :=
  match u.toNat with
  | 0 => .instr .faClear
  | 1 => .instr (.faAdd p.sym)
  | 2 => .instr .pqClear
  | 3 => .instr (.pqPush p.item p.weight)
  | 4 => .instr .pqPop
  | 5 => .instr .pqIsEmpty
  | 6 => .instr .tbBuild
  | 7 => .instr .cgGen
  | 8 => .instr .encRun
  | 9 => .instr .decRun
  | _ => .reject (.reservedMicroOp u)

/-- The decoder: which format a word has is fixed by where it arrives, never by its bits (R90, R91, R94). -/
def decode : OpWord → Decoded
  | .host c => decodeHost c
  | .micro u p => decodeMicro u p

/-- Ports that carry no operand. -/
def noPorts : Ports := { sym := 0#_, item := 0#_, weight := 0#_ }

/-- The encoder, from the opcode maps of R92 and R95. -/
def encode : Instr → OpWord
  | .cmdCount => .host 0x01#8
  | .cmdBuild => .host 0x02#8
  | .cmdEncode => .host 0x03#8
  | .cmdDecode => .host 0x04#8
  | .faClear => .micro 0x0#4 noPorts
  | .faAdd sym => .micro 0x1#4 { noPorts with sym := sym }
  | .pqClear => .micro 0x2#4 noPorts
  | .pqPush item weight => .micro 0x3#4 { noPorts with item := item, weight := weight }
  | .pqPop => .micro 0x4#4 noPorts
  | .pqIsEmpty => .micro 0x5#4 noPorts
  | .tbBuild => .micro 0x6#4 noPorts
  | .cgGen => .micro 0x7#4 noPorts
  | .encRun => .micro 0x8#4 noPorts
  | .decRun => .micro 0x9#4 noPorts

/-- The word of an opcode-table row given as a number of `nbits` bits (log entry 8). A row narrower than a byte is a
format U code. A row of a whole byte is the format H word where that word is legal; a 4-bit code widened to a byte
that format H rejects is the format U code. Operand ports have no bits in the table and carry 0. -/
def tableWord (nbits w : Nat) : Option OpWord :=
  if nbits < 8 then
    if w < 16 then some (.micro (BitVec.ofNat 4 w) noPorts) else none
  else if w < 256 then
    if hostWordWf (BitVec.ofNat 8 w) then some (.host (BitVec.ofNat 8 w))
    else if w ≤ 9 then some (.micro (BitVec.ofNat 4 w) noPorts)
    else some (.host (BitVec.ofNat 8 w))
  else none

/-- The instruction the decoder reads from the row-numbered word `w`. -/
def decodeTableWord (nbits w : Nat) : Option Instr :=
  match tableWord nbits w with
  | none => none
  | some ow =>
    match decode ow with
    | .instr i => some i
    | .reject _ => none

end Sys2Proof
end

