-- ==== Sys2Proof/Machine/HostAccess.lean ====
section
/-! DEFINITION. The host address space (20_memory.md): the map of R61, MemRead and MemWrite (R64), and what a wrong
access does (R65). -/

namespace Sys2Proof.Machine

open Sys2Proof

/-- One row of the address map: the first address of a region (its size is `Region.size`) and what the host may do. -/
structure RegionRow where
  region   : Region
  base     : Nat
  readable : Bool
  writable : Bool
  deriving DecidableEq, Repr

/-- The address map of R61. -/
def memoryMap : List RegionRow :=
  [ { region := .cmd,    base := 0x000000, readable := false, writable := true }
  , { region := .status, base := 0x000001, readable := true,  writable := false }
  , { region := .sbLen,  base := 0x000002, readable := true,  writable := true }
  , { region := .bbLen,  base := 0x000003, readable := true,  writable := true }
  , { region := .dbLen,  base := 0x000004, readable := true,  writable := false }
  , { region := .ft,     base := 0x000100, readable := true,  writable := true }
  , { region := .ctLen,  base := 0x000200, readable := true,  writable := false }
  , { region := .ctBit,  base := 0x010000, readable := true,  writable := false }
  , { region := .sb,     base := 0x100000, readable := true,  writable := true }
  , { region := .bb,     base := 0x200000, readable := true,  writable := true }
  , { region := .db,     base := 0x300000, readable := true,  writable := false } ]

/-- Address `a` lies in the region of row `m`. -/
def RegionRow.holds (m : RegionRow) (a : Nat) : Bool := decide (m.base ≤ a ∧ a < m.base + m.region.size)

/-- The row that address `a` falls in; none where it is unmapped (R61). -/
def mapRow (a : Addr) : Option RegionRow := memoryMap.find? (fun m => m.holds a.toNat)

/-- The first address of a region (R61). -/
def regionBase (r : Region) : Nat := ((memoryMap.find? (fun m => m.region == r)).map RegionRow.base).getD 0

/-- The address of location `i` of region `r`. -/
def regionAddress (r : Region) (i : Nat) : Addr := BitVec.ofNat 24 (regionBase r + i)

/-- The address of CMD (R61). -/
def cmdAddr : Addr := 0x000000#24

/-- The address of STATUS (R61). -/
def statusAddr : Addr := 0x000001#24

/-- The value of location `i` of region `r`, zero-extended to the host's data word (R61, R64). -/
def readLoc (r : Region) (i : Nat) (s : State) : HostWord :=
  match r with
  | .cmd => 0#32
  | .status => s.status.setWidth 32
  | .sbLen => s.sbLen.setWidth 32
  | .bbLen => s.bbLen.setWidth 32
  | .dbLen => s.dbLen.setWidth 32
  | .ft => (s.count (BitVec.ofNat _ i)).setWidth 32
  | .ctLen => (s.code (BitVec.ofNat _ i)).len.setWidth 32
  | .ctBit =>
    if i % 256 < Config.codeMax then
      (BitVec.ofBool (digitAt (s.code (BitVec.ofNat _ (i / 256))).code (i % 256))).setWidth 32
    else 0#32
  | .sb => (s.sbAt i).setWidth 32
  | .bb => (BitVec.ofBool (s.bbAt i)).setWidth 32
  | .db => (s.dbAt i).setWidth 32

/-- `v` truncated to the location's width and stored at location `i` of region `r` (R64); regions without plain
storage that the host may write are left alone (R65). -/
def writeLoc (r : Region) (i : Nat) (v : HostWord) (s : State) : State :=
  match r with
  | .sbLen => { s with sbLen := v.setWidth _ }
  | .bbLen => { s with bbLen := v.setWidth _ }
  | .ft => s.setCount (BitVec.ofNat _ i) (v.setWidth _)
  | .sb => s.setSb i (v.setWidth _)
  | .bb => s.setBb i (v.getLsbD 0)
  | .cmd | .status | .dbLen | .ctLen | .ctBit | .db => s

/-- MemRead (R64, R65): what a host read of address `a` returns; CMD and unmapped addresses read 0. -/
def memRead (a : Addr) (s : State) : HostWord :=
  match mapRow a with
  | none => 0#32
  | some m => if m.readable then readLoc m.region (a.toNat - m.base) s else 0#32

/-- MemWrite (R64, R65) of an address other than CMD: read-only and unmapped addresses ignore it. -/
def memWrite (a : Addr) (v : HostWord) (s : State) : State :=
  match mapRow a with
  | none => s
  | some m => if m.writable then writeLoc m.region (a.toNat - m.base) v s else s

/-- A host read: its value goes to the host, nothing else changes (R67). -/
def hostRead (a : Addr) (s : State) : State := { s with hostData := memRead a s }

end Sys2Proof.Machine
end

