-- ==== Sys2Proof/Machine/Fetch.lean ====
section
/-! DEFINITION. What the next input asks for (R6, R250): an instruction to run, or something that is done at once. The
core has no program counter and fetches nothing from memory (R38, R70); `pending` is where inputs wait. -/

namespace Sys2Proof.Machine

open Sys2Proof

/-- What the next input turns into. -/
inductive Fetched where
  | run (i : Instr) (s : State)
  | done (o : Host.Outcome State Fault Refusal)

/-- A write of CMD while idle (R33, R64, R91, R250): the word is the value truncated to 8 bits. -/
def fetchCommand (v : HostWord) (s : State) : Fetched :=
  match decodeHost (v.setWidth 8) with
  | .instr i => .run i s
  | .reject _ => .done (illegalCommand s)

/-- A code on the operation bus (R94, R95); a reserved code is ignored (R96). -/
def fetchMicro (u : BitVec 4) (p : Ports) (s : State) : Fetched :=
  match decodeMicro u p with
  | .instr i => .run i s
  | .reject _ => .done (.next s)

/-- One input, taken off `pending` already. While BUSY = 1 only a STATUS read and the reset have a meaning (R66, R330,
U3). -/
def fetchInput (i : Input) (s : State) : Fetched :=
  match i with
  | .reset => .done (.next s.resetEvent)
  | .hostRead a =>
    if s.busy && !(a == statusAddr) then .done (.refused .accessWhileBusy) else .done (.next (hostRead a s))
  | .hostWrite a v =>
    if s.busy then .done (.refused .accessWhileBusy)
    else if a = cmdAddr then fetchCommand v s
    else .done (.next (memWrite a v s))
  | .micro u p => if s.busy then .done (.refused .accessWhileBusy) else fetchMicro u p s

/-- The next input; with none the core is idle and keeps all state (R298). -/
def fetch (s : State) : Fetched :=
  match s.pending with
  | [] => .done (.next s)
  | i :: rest => fetchInput i { s with pending := rest }

/-- The input that carries an operation word: a write of CMD, or a code on the operation bus. -/
def inputOf : OpWord → Input
  | .host c => .hostWrite cmdAddr (c.setWidth 32)
  | .micro u p => .micro u p

/-- The input put before those still to come. -/
def State.giveNext (s : State) (i : Input) : State := { s with pending := i :: s.pending }

/-- The opcode-table word `w` put where the next step takes its input from (log entries 6 and 8). -/
def placeTableWord (s : State) (nbits w : Nat) : State :=
  match tableWord nbits w with
  | some ow => s.giveNext (inputOf ow)
  | none => s

end Sys2Proof.Machine
end

