-- ==== Sys2Proof/Machine/Script.lean ====
section
/-! DEFINITION. The host script (R100 to R102, 30_encoding.md): reading its text, and what each line assembles to. Where
the spec leaves the text's form open (spaces, the sign of a number), log entry 16 says what is read. -/

namespace Sys2Proof.Machine

open Sys2Proof

/-- `MemWrite(r, i, v)` as the host's step (R101). -/
def writeStep (r : Region) (i v : Nat) : ScriptStep :=
  .input (.hostWrite (regionAddress r i) (BitVec.ofNat 32 v))

/-- `MemWrite(CMD, 0, word)`. -/
def commandStep (word : Nat) : ScriptStep := writeStep .cmd 0 word

/-- Writes of successive elements from index 0 (R101, `.sb` and `.bb`). -/
def elementSteps (r : Region) : Nat → List Nat → List ScriptStep
  | _, [] => []
  | i, v :: vs => writeStep r i v :: elementSteps r (i + 1) vs

/-- The width of a location in bits (R61). -/
def regionWidth : Region → Nat
  | .cmd | .status => 8
  | .ctLen | .sb | .db => Config.symW
  | .sbLen | .bbLen | .dbLen => Config.lenW
  | .ft => Config.cntW
  | .ctBit | .bb => 1

/-- The field that a `.expect` line compares: a whole location, or a field of STATUS (R101). -/
def checkOf (what : Expected) (value : Nat) : Check :=
  match what with
  | .loc r i => { addr := regionAddress r i, lo := 0, width := regionWidth r, value := value }
  | .err => { addr := statusAddr, lo := 2, width := 3, value := value }
  | .treeValid => { addr := statusAddr, lo := 1, width := 1, value := value }

/-- What a line assembles to (R101); ROUNDTRIP expands to four commands (R102). -/
def assemble : Line → List ScriptStep
  | .count => [commandStep 0x01]
  | .build => [commandStep 0x02]
  | .encode => [commandStep 0x03]
  | .decode => [commandStep 0x04]
  | .roundtrip => [commandStep 0x01, commandStep 0x02, commandStep 0x03, commandStep 0x04]
  | .cmd w => [commandStep w]
  | .reset => [.input .reset]
  | .sb xs => elementSteps .sb 0 (xs.map BitVec.toNat) ++ [writeStep .sbLen 0 xs.length]
  | .bb ds => elementSteps .bb 0 (ds.map Bool.toNat) ++ [writeStep .bbLen 0 ds.length]
  | .ft ps =>
    elementSteps .ft 0 (List.replicate Config.alphabet 0) ++ ps.map (fun p => writeStep .ft p.1.toNat p.2)
  | .lenSb n => [writeStep .sbLen 0 n]
  | .lenBb n => [writeStep .bbLen 0 n]
  | .expect what v => [.check (checkOf what v)]

/-- The input of a script step: a check is a host read (R101). -/
def stepInput : ScriptStep → Input
  | .input i => i
  | .check c => .hostRead c.addr

/-- The inputs a script gives the machine. -/
def scriptInputs (ls : List Line) : List Input := (ls.flatMap assemble).map stepInput

/-- The comparison of a check with what the host read. -/
def checkPasses (c : Check) (v : HostWord) : Bool := v.toNat / 2 ^ c.lo % 2 ^ c.width == c.value

/-- Run script steps one after another, each as the next input, and tell whether every check passed. -/
def runScript : List ScriptStep → State → Host.Outcome (State × Bool) Fault Refusal
  | [], s => .next (s, true)
  | x :: xs, s =>
    match step (s.giveNext (stepInput x)) with
    | .next t =>
      match runScript xs t with
      | .next (u, good) =>
        .next (u, good && (match x with | .check c => checkPasses c t.hostData | .input _ => true))
      | .fault f => .fault f
      | .refused r => .refused r
    | .fault f => .fault f
    | .refused r => .refused r

/-! ### Reading the text -/

/-- A text as its characters. -/
abbrev Text := List Char

/-- The text before a `;` that stands outside quotes (R100); the flag says that a `"` is open. DESIGN CHOICE (log entry 16):
outside `"` a quoted character `'c'` is one unit, whatever `c` is, and a single `'` is an ordinary character. -/
def dropComment : Bool → Text → Text
  | false, '\'' :: c :: '\'' :: cs => '\'' :: c :: '\'' :: dropComment false cs
  | _, [] => []
  | quoted, c :: cs =>
    if c = ';' ∧ quoted = false then [] else c :: dropComment (if c = '"' then !quoted else quoted) cs

/-- A space or a tab. -/
def isGap (c : Char) : Bool := c == ' ' || c == '\t' || c == '\r'

/-- Without leading spaces. -/
def skipGap (t : Text) : Text := t.dropWhile isGap

/-- Without trailing spaces. -/
def dropTrailing (t : Text) : Text := (t.reverse.dropWhile isGap).reverse

/-- The first word and the rest of a line. -/
def firstWord (t : Text) : Text × Text := t.span (fun c => !isGap c)

/-- Lower case of an ASCII letter: mnemonics are case-insensitive (R100). -/
def lowerChar (c : Char) : Char := if 'A' ≤ c ∧ c ≤ 'Z' then Char.ofNat (c.toNat + 32) else c

/-- The value of a digit in base 16, for digits below `base`. -/
def digitValue (base : Nat) (c : Char) : Option Nat :=
  let d := lowerChar c
  let v := if '0' ≤ d ∧ d ≤ '9' then d.toNat - 48 else if 'a' ≤ d ∧ d ≤ 'f' then d.toNat - 87 else base
  if v < base then some v else none

/-- A number in a base, most significant digit first. -/
def readDigits (base : Nat) : Nat → Text → Option Nat
  | acc, [] => some acc
  | acc, c :: cs =>
    match digitValue base c with
    | some v => readDigits base (acc * base + v) cs
    | none => none

/-- A hexadecimal value, with or without `0x`. -/
def readHex : Text → Option Nat
  | [] => none
  | '0' :: 'x' :: c :: cs => readDigits 16 0 (c :: cs)
  | c :: cs => readDigits 16 0 (c :: cs)

/-- A number: decimal, or hexadecimal with `0x` (R11). -/
def readNumber : Text → Option Nat
  | [] => none
  | '0' :: 'x' :: c :: cs => readDigits 16 0 (c :: cs)
  | c :: cs => readDigits 10 0 (c :: cs)

/-- A quoted ASCII text, nothing after it (R12, R101). -/
def readQuoted : Text → Option Text
  | '"' :: cs =>
    match cs.span (fun c => c != '"') with
    | (body, '"' :: rest) => if rest.all isGap then some body else none
    | _ => none
  | _ => none

/-- The symbol of an ASCII character (R12). -/
def charSymbol (c : Char) : Option Sym := if c.toNat < 128 then some (BitVec.ofNat _ c.toNat) else none

/-- The digit of a character `0` or `1`. -/
def charDigit (c : Char) : Option Digit := if c = '0' then some false else if c = '1' then some true else none

/-- A symbol given as a hexadecimal value. -/
def hexSymbol (t : Text) : Option Sym :=
  (readHex t).bind (fun n => if n < Config.alphabet then some (BitVec.ofNat _ n) else none)

/-- The words of a line as `next` takes one word off it, with a bound on their number. -/
def wordsBy (next : Text → Text × Text) : Nat → Text → List Text
  | 0, _ => []
  | n + 1, t =>
    match next (skipGap t) with
    | ([], _) => []
    | (w, rest) => w :: wordsBy next n rest

/-- The words of a line: gaps separate them. -/
def wordsOf (t : Text) : List Text := wordsBy firstWord t.length t

/-- The first pair of a `.ft` line and the rest. DESIGN CHOICE (log entry 16): R101 does not say how pairs are split; a
quoted character `'c'` at its start belongs to the pair whatever `c` is, a space too, and the next gap ends the pair. -/
def firstPair : Text → Text × Text
  | '\'' :: c :: '\'' :: t => ('\'' :: c :: '\'' :: (firstWord t).1, (firstWord t).2)
  | t => firstWord t

/-- The pairs of a `.ft` line. -/
def pairsOf (t : Text) : List Text := wordsBy firstPair t.length t

/-- A pair `<sym>=<count>` of a `.ft` line: the symbol a quoted character or a hexadecimal value (R101). -/
def readPair : Text → Option (Sym × Nat)
  | '\'' :: c :: '\'' :: '=' :: n =>
    match charSymbol c, readNumber n with
    | some x, some k => some (x, k)
    | _, _ => none
  | t =>
    match t.span (fun c => c != '=') with
    | (h, '=' :: n) =>
      match hexSymbol h, readNumber n with
      | some x, some k => some (x, k)
      | _, _ => none
    | _ => none

/-- The region names of R61 in lower case. -/
def regionNames : List (Text × Region) :=
  [ ("cmd".toList, .cmd), ("status".toList, .status), ("sb_len".toList, .sbLen), ("bb_len".toList, .bbLen)
  , ("db_len".toList, .dbLen), ("ft".toList, .ft), ("ct_len".toList, .ctLen), ("ct_bit".toList, .ctBit)
  , ("sb".toList, .sb), ("bb".toList, .bb), ("db".toList, .db) ]

/-- A region by name. -/
def regionNamed (t : Text) : Option Region :=
  (regionNames.find? (fun p => p.1 == t.map lowerChar)).map Prod.snd

/-- The left side of a `.expect` line: ERR, TREE_VALID, or `<region>[<i>]` (R101). DESIGN CHOICE (log entry 16): a region's
name without `[<i>]`, which R101 does not give, stands for index 0 of it. -/
def readExpected (t : Text) : Option Expected :=
  if t.map lowerChar = "err".toList then some .err
  else if t.map lowerChar = "tree_valid".toList then some .treeValid
  else
    match t.span (fun c => c != '[') with
    | (name, '[' :: rest) =>
      match rest.span (fun c => c != ']'), regionNamed name with
      | (i, [']']), some r => (readNumber i).map (fun n => .loc r n)
      | _, _ => none
    | (name, _) => (regionNamed name).map (fun r => .loc r 0)

/-- A `.expect` line's text after its keyword. -/
def readExpect (t : Text) : Option Line :=
  match t.span (fun c => c != '=') with
  | (l, '=' :: v) =>
    match readExpected (dropTrailing (skipGap l)), readNumber (dropTrailing (skipGap v)) with
    | some e, some n => some (.expect e n)
    | _, _ => none
  | _ => none

/-- The mnemonics, their aliases and the pseudo-instruction (R92, R102), in lower case. -/
def commandNames : List (Text × Line) :=
  [ ("count".toList, .count), ("build".toList, .build), ("buildfromfrequencies".toList, .build)
  , ("encode".toList, .encode), ("decode".toList, .decode), ("roundtrip".toList, .roundtrip)
  , (".reset".toList, .reset) ]

/-- A directive with its arguments (R101). -/
def readDirective (w t : Text) : Option Line :=
  if w = ".cmd".toList then (readNumber t).map .cmd
  else if w = ".sb".toList then ((readQuoted t).bind (fun b => b.mapM charSymbol)).map .sb
  else if w = ".sbx".toList then ((wordsOf t).mapM hexSymbol).map .sb
  else if w = ".bb".toList then ((readQuoted t).bind (fun b => b.mapM charDigit)).map .bb
  else if w = ".ft".toList then ((pairsOf t).mapM readPair).map .ft
  else if w = ".len".toList then
    match wordsOf t with
    | [r, n] =>
      if r.map lowerChar = "sb".toList then (readNumber n).map .lenSb
      else if r.map lowerChar = "bb".toList then (readNumber n).map .lenBb
      else none
    | _ => none
  else if w = ".expect".toList then readExpect t
  else none

/-- What a line of text says. -/
inductive ReadLine where
  | blank
  | line (l : Line)
  | wrong
  deriving DecidableEq, Repr

/-- One line of text (R100, R101); a line whose values do not fit is wrong. -/
def readLine (t : Text) : ReadLine :=
  match firstWord (skipGap (dropTrailing (dropComment false t))) with
  | ([], _) => .blank
  | (w, rest) =>
    let found :=
      match commandNames.find? (fun p => p.1 == w.map lowerChar) with
      | some p => if rest.all isGap then some p.2 else none
      | none => readDirective (w.map lowerChar) (skipGap rest)
    match found with
    | some l => if l.wf then .line l else .wrong
    | none => .wrong

/-- A script's lines of text (R100); none where one of them is wrong. -/
def readScript : List Text → Option (List Line)
  | [] => some []
  | t :: ts =>
    match readLine t, readScript ts with
    | .blank, r => r
    | .line l, some ls => some (l :: ls)
    | .line _, none => none
    | .wrong, _ => none

end Sys2Proof.Machine
end

