-- ==== Sys2Proof/Machine/Abstract.lean ====
section
/-! DEFINITION. The abstract view the rules reason with: the abstract tree (R42), the code table of a tree in closed form
(R199), the reference functions of R18, and R191's recursive traversal. The machine does not run these; the laws and
the statements compare it with them. -/

namespace Sys2Proof.Machine

open Sys2Proof

/-- The abstract tree (R42). -/
inductive Tree where
  | leaf (x : Sym) (weight : Weight)
  | node (weight : Weight) (left right : Tree)
  deriving DecidableEq, Repr

/-- `abs(n)` (R42), to a bound on the depth; none where the bound does not reach. -/
def absNode (s : State) : Nat → Idx → Option Tree
  | 0, _ => none
  | d + 1, n =>
    let nd := s.nodeAt n
    if nd.leaf then some (.leaf nd.sym nd.weight)
    else
      match absNode s d nd.left, absNode s d nd.right with
      | some l, some r => some (.node nd.weight l r)
      | _, _ => none

/-- The abstract tree of the state, `abs(ROOT)` (R42). -/
def State.tree (s : State) : Option Tree := absNode s (Config.codeMax + 1) s.root

/-- The codewords below a node whose root path is `p` (R199, `paths`), left subtree first (R193). -/
def Tree.paths : Tree → List Digit → List (Sym × List Digit)
  | .leaf x _, p => [(x, p)]
  | .node _ l r, p => l.paths (p ++ [false]) ++ r.paths (p ++ [true])

/-- The code table of a tree (R199, `codes`). -/
def Tree.codes : Tree → List (Sym × List Digit)
  | .leaf x _ => [(x, [false])]
  | .node w l r => (Tree.node w l r).paths []

/-- The weight a tree's root carries (R25). -/
def Tree.weight : Tree → Weight
  | .leaf _ w => w
  | .node w _ _ => w

/-- The symbols on a tree's leaves, left to right. -/
def Tree.symbols : Tree → List Sym
  | .leaf x _ => [x]
  | .node _ l r => l.symbols ++ r.symbols

/-- Every weight is what R40 (f) says: a leaf's at least 1, an internal node's the exact sum. -/
def Tree.weighted : Tree → Prop
  | .leaf _ w => 1 ≤ w.toNat
  | .node w l r => w.toNat = l.weight.toNat + r.weight.toNat ∧ l.weighted ∧ r.weighted

/-- The codeword CT holds for a symbol; none where the symbol is absent (R28). -/
def State.codewordOf (s : State) (x : Sym) : Option (List Digit) :=
  if (s.code x).len = 0#_ then none else some (codeword (s.code x))

/-- The concatenation of the codewords of a sequence under the state's table (R18 `encode`, R213); none where a symbol
has no codeword. -/
def State.concatCodes (s : State) : List Sym → Option (List Digit)
  | [] => some []
  | x :: xs =>
    match s.codewordOf x, s.concatCodes xs with
    | some p, some q => some (p ++ q)
    | _, _ => none

/-- Decoding by walking an abstract tree (R230): the walk is at `cur` in the tree `t`. The answer is the symbols emitted
before the walk stops, and whether the digits ran out at the root (R232). -/
def Tree.decodeWalk (t : Tree) : Tree → List Digit → List Sym × Bool
  | cur, [] => ([], decide (cur = t))
  | .leaf x _, b :: bs => if b then ([], false) else (x :: (Tree.decodeWalk t t bs).1, (Tree.decodeWalk t t bs).2)
  | .node _ l r, b :: bs =>
    match if b then r else l with
    | .leaf x _ => (x :: (Tree.decodeWalk t t bs).1, (Tree.decodeWalk t t bs).2)
    | .node w l' r' => Tree.decodeWalk t (.node w l' r') bs

/-- R191's `walk(n, p)` as written there, on the table it fills, to a bound on the depth. -/
def walkRec (s : State) : Nat → Idx → List Digit → Store CodeEntry → Option (Store CodeEntry)
  | 0, _, _, _ => none
  | d + 1, n, p, ct =>
    let nd := s.nodeAt n
    if nd.leaf then some (Store.write absentCode ct nd.sym.toNat (codeEntry p))
    else
      match walkRec s d nd.left (p ++ [false]) ct with
      | some ct' => walkRec s d nd.right (p ++ [true]) ct'
      | none => none

/-- The recorded symbols of FT, ascending (R21, R172); their number is the N of R40. -/
def State.recorded (s : State) : List Sym := allSymbols.filter (fun x => !(s.count x == 0#_))

/-- An entry of the queue of TB_BUILD seen abstractly (R141, R147): its key, and the tree its item stands for. -/
structure QueueTree where
  weight : Weight
  seq    : Nat
  tree   : Tree
  deriving DecidableEq, Repr

/-- The order of R141. -/
def QueueTree.before (a b : QueueTree) : Bool :=
  decide (a.weight < b.weight ∨ (a.weight = b.weight ∧ a.seq < b.seq))

/-- A push into the queue kept as a sorted list (R147). -/
def insertTree (e : QueueTree) : List QueueTree → List QueueTree
  | [] => [e]
  | x :: xs => if e.before x then e :: x :: xs else x :: insertTree e xs

/-- Two subtrees merged: first-popped left, second-popped right (R173). -/
def mergedTree (a b : QueueTree) (seq : Nat) : QueueTree :=
  { weight := a.weight + b.weight, seq := seq, tree := .node (a.weight + b.weight) a.tree b.tree }

/-- The merging loop of R171 on the sorted list, with a bound on its iterations and the next sequence number. -/
def mergeTrees : Nat → Nat → List QueueTree → Option Tree
  | 0, _, _ => none
  | _ + 1, _, [] => none
  | _ + 1, _, [a] => some a.tree
  | n + 1, seq, a :: b :: rest => mergeTrees n (seq + 1) (insertTree (mergedTree a b seq) rest)

/-- The leaves of R171, in ascending symbol order (R172). -/
def leafTrees (s : State) : List QueueTree :=
  s.recorded.zipIdx.map (fun p =>
    { weight := (s.count p.1).setWidth _, seq := p.2, tree := .leaf p.1 ((s.count p.1).setWidth _) })

/-- `tree(F)` (R18) by repeated minimal-pair merging of a sorted list (R170, R171). -/
def huffmanTree (s : State) : Option Tree :=
  mergeTrees (Config.alphabet + 1) s.recorded.length ((leafTrees s).foldl (fun q e => insertTree e q) [])

/-- Instructions run one after another (R250: "executes X's micro-operations in order"). -/
def execAll : List Instr → State → Host.Outcome State Fault Refusal
  | [], s => .next s
  | i :: is, s =>
    match exec i s with
    | .next t => execAll is t
    | .fault f => .fault f
    | .refused r => .refused r

end Sys2Proof.Machine
end

