-- ==== Sys2Proof/Safety.lean ====
section
/-! DEFINITION. What a good state is: the invariants of R40, R41 and R142, the canonical form of the storage, and what a
safe run is. -/

namespace Sys2Proof.Machine

open Sys2Proof

/-- The indices that occur as children in the nodes, in order. -/
def childIndices (ns : List Node) : List Nat :=
  ns.flatMap (fun n => if n.leaf then [] else [n.left.toNat, n.right.toNat])

/-- R40: the well-formed tree over N leaves that NODE and ROOT hold. -/
structure TreeWf (s : State) (n : Nat) : Prop where
  /-- 1 <= N <= A. -/
  count_pos : 1 ≤ n
  count_le : n ≤ Config.alphabet
  /-- NODE holds exactly the 2N - 1 slots of the tree (R175). -/
  slots : s.node.length = 2 * n - 1
  /-- (a), (b): the first N slots are leaves, the others internal nodes. -/
  leaves : ∀ k (h : k < s.node.length), s.node[k].leaf = decide (k < n)
  /-- (a): the leaves' symbols ascend strictly. -/
  ascending : ∀ k (h : k < s.node.length), k < n → ∀ j (g : j < k), s.node[j].sym < s.node[k].sym
  /-- (c). -/
  root_eq : s.root.toNat = 2 * n - 2
  /-- (d). -/
  children : ∀ k (h : k < s.node.length), s.node[k].leaf = false →
    s.node[k].left.toNat < k ∧ s.node[k].right.toNat < k ∧ s.node[k].left ≠ s.node[k].right
  /-- (e). -/
  once : ∀ j, j < 2 * n - 2 → (childIndices s.node).count j = 1
  /-- (f): an internal node's weight is the exact sum of its children's. -/
  sums : ∀ k (h : k < s.node.length), s.node[k].leaf = false →
    s.node[k].weight.toNat = (s.nodeAt s.node[k].left).weight.toNat + (s.nodeAt s.node[k].right).weight.toNat
  /-- (f): a leaf's weight is at least 1. -/
  positive : ∀ k (h : k < s.node.length), s.node[k].leaf = true → 1 ≤ s.node[k].weight.toNat

/-- R40 as an invariant: whenever TREE_VALID = 1. -/
def TreeOk (s : State) : Prop := s.treeValid = true → ∃ n, TreeWf s n

/-- R41: CT denotes the codes of the tree when there is one, and nothing when there is none. -/
def TableOk (s : State) : Prop :=
  (s.treeValid = true → ∃ t, s.tree = some t ∧ ∀ x, s.codewordOf x = t.codes.lookup x) ∧
  (s.treeValid = false → ∀ x, (s.code x).len = 0#_)

/-- R28: the digits of a code entry at or past its length are 0. -/
def CodesPadded (s : State) : Prop :=
  ∀ x j, (s.code x).len.toNat ≤ j → digitAt (s.code x).code j = false

/-- R142: the heap invariant, R141's distinct keys, and the ranges of R23 and R24. -/
structure QueueOk (s : State) : Prop where
  size : s.heap.length ≤ Config.heapDepth
  parent : ∀ i, i < s.heap.length → 0 < i → heapLt s.heap ((i - 1) / 2) i = true
  /-- Every entry was stamped before SEQ reached its value, and no two alike (R24, R144). -/
  stamped : ∀ e ∈ s.heap, e.seq < s.seq
  distinct : (s.heap.map HeapEntry.seq).Nodup

/-- The invariant of every state a run reaches. -/
structure Inv (s : State) : Prop where
  idle : s.busy = false
  memory : Memory.wf s
  tree : TreeOk s
  queue : QueueOk s
  padded : CodesPadded s
  /-- With no tree the table is empty (R41). -/
  noTree : s.treeValid = false → ∀ x, (s.code x).len = 0#_

/-- An input the host can give: not the sub-block interface (R8). -/
def inputOfHost : Input → Bool
  | .micro _ _ => false
  | .hostWrite _ _ | .hostRead _ | .reset => true

/-- The inputs still to come are the host's (R8). -/
def HostOnly (s : State) : Prop := ∀ i ∈ s.pending, inputOfHost i = true

/-- A run of `k` steps that neither faults nor is refused. -/
def SafeRun (k : Nat) (s : State) : Prop := ∃ t, core.run k s = .next t

end Sys2Proof.Machine
end

