-- ==== Sys2Proof/Certificates/Slice0/Obligations.lean ====
section
/-! DEFINITION. The statements for the provers. Each docstring names the rules of spec/ it formalises; a frame is written
as the state after with every field it may differ in taken from itself, so that the equation says that every other
field is as before. -/

section

open Sys2Proof Sys2Proof.Machine

/-! ### Encoding (R90 to R97) -/

/-- The words of R92 and R95, written out bit by bit, decode to their operations (a sanity statement). -/
def Obligations.TableWordsDecode : Prop :=
  decode (.host 0b00000001#8) = .instr .cmdCount ∧
  decode (.host 0b00000010#8) = .instr .cmdBuild ∧
  decode (.host 0b00000011#8) = .instr .cmdEncode ∧
  decode (.host 0b00000100#8) = .instr .cmdDecode ∧
  ∀ p : Ports,
    decode (.micro 0b0000#4 p) = .instr .faClear ∧ decode (.micro 0b0001#4 p) = .instr (.faAdd p.sym) ∧
    decode (.micro 0b0010#4 p) = .instr .pqClear ∧ decode (.micro 0b0011#4 p) = .instr (.pqPush p.item p.weight) ∧
    decode (.micro 0b0100#4 p) = .instr .pqPop ∧ decode (.micro 0b0101#4 p) = .instr .pqIsEmpty ∧
    decode (.micro 0b0110#4 p) = .instr .tbBuild ∧ decode (.micro 0b0111#4 p) = .instr .cgGen ∧
    decode (.micro 0b1000#4 p) = .instr .encRun ∧ decode (.micro 0b1001#4 p) = .instr .decRun

/-- Decoding and encoding are inverse: every operation, with every operand, comes back from its word; every well-formed
word is the word of what it decodes to; and exactly the words outside R92 and R95 are rejected (R93, R96). -/
def Obligations.DecodeAndEncodeAgree : Prop :=
  (∀ i : Instr, (encode i).wf = true ∧ decode (encode i) = .instr i) ∧
  (∀ w : OpWord, w.wf = true → ∃ i, decode w = .instr i ∧ encode i = w) ∧
  (∀ c : BitVec 8, decode (.host c) = .reject (.illegalCommand c) ↔ ¬ (1 ≤ c.toNat ∧ c.toNat ≤ 4)) ∧
  (∀ (u : BitVec 4) (p : Ports), decode (.micro u p) = .reject (.reservedMicroOp u) ↔ 10 ≤ u.toNat)

/-! ### Steps (R6, R250) -/

/-- A step runs the decoded instruction: a write of CMD while idle runs the command its low 8 bits name (R33, R64, R91,
R250), and a code on the operation bus runs its micro-operation (R94, R95; the bus as an input is log entry 7). The
input is used up, and nothing else happens around the instruction. -/
def Obligations.StepRunsDecodedInstruction : Prop :=
  (∀ (s : State) (v : HostWord) (rest : List Input) (i : Instr), s.busy = false →
    s.pending = .hostWrite cmdAddr v :: rest → decode (.host (v.setWidth 8)) = .instr i →
    step s = exec i { s with pending := rest }) ∧
  (∀ (s : State) (u : BitVec 4) (p : Ports) (rest : List Input) (i : Instr), s.busy = false →
    s.pending = .micro u p :: rest → decode (.micro u p) = .instr i →
    step s = exec i { s with pending := rest })

/-- The opcode-table word placed before a step is the instruction the step runs, with every input that waited still
waiting (log entries 6 and 8). -/
def Obligations.PlacedTableWordRuns : Prop :=
  ∀ (s : State) (nbits w : Nat) (i : Instr), s.busy = false → decodeTableWord nbits w = some i →
    step (s.withFetchWord nbits w) = exec i s

/-- An illegal command word changes ERR and nothing else (R256). -/
def Obligations.IllegalCommandChangesOnlyErr : Prop :=
  ∀ (s : State) (v : HostWord) (rest : List Input), s.busy = false → s.pending = .hostWrite cmdAddr v :: rest →
    ¬ (1 ≤ v.toNat % 256 ∧ v.toNat % 256 ≤ 4) → step s = .next { s with pending := rest, err := 7#3 }

/-- A reserved micro-operation code is ignored (R96), and with no input the core is idle and keeps all state (R298). -/
def Obligations.IgnoredInputs : Prop :=
  (∀ (s : State) (u : BitVec 4) (p : Ports) (rest : List Input), s.busy = false → s.pending = .micro u p :: rest →
    10 ≤ u.toNat → step s = .next { s with pending := rest }) ∧
  (∀ s : State, s.pending = [] → step s = .next s)

/-- While BUSY = 1 only a STATUS read and the reset have a meaning (R330, U3). The refusal by name is the model's
choice, log entry 9. -/
def Obligations.BusyAccessRefused : Prop :=
  (∀ (s : State) (x : Input) (rest : List Input), s.busy = true → s.pending = x :: rest → x ≠ .reset →
    x ≠ .hostRead statusAddr → step s = .refused .accessWhileBusy) ∧
  (∀ (s : State) (rest : List Input), s.busy = true → s.pending = .hostRead statusAddr :: rest →
    ∃ t, step s = .next t ∧ t.hostData.getLsbD 0 = true ∧ t = { s with pending := rest, hostData := t.hostData })

/-! ### Reset (R44, R320, R323) -/

/-- The value of every piece of state after reset (R44), for the state after reset and for the reset event, which happens
in any state, also while BUSY = 1 (R320). Three things here are the model's choice, not the spec's: the elements of SB, BB
and DB that R44 leaves unspecified are free values by epoch and index (log entry 1), the slots of NODE free values by slot
and the counter of free values (log entry 4), and the inputs that wait stay after the event (log entry 6). -/
def Obligations.ResetValues : Prop :=
  (∀ (s : State) (rest : List Input), s.pending = .reset :: rest → ∃ t, step s = .next t ∧ t.pending = rest) ∧
  ∀ t : State, (t = State.reset ∨ ∃ s rest, s.pending = .reset :: rest ∧ step s = .next t ∧ t.pending = rest) →
    (∀ x, t.count x = 0#32) ∧ (∀ x, (t.code x).len = 0#8 ∧ ∀ j, digitAt (t.code x).code j = false) ∧
    t.treeValid = false ∧ t.root = 0#9 ∧ t.heapN = 0 ∧ t.seq = 0#9 ∧
    t.sbLen = 0#32 ∧ t.bbLen = 0#32 ∧ t.dbLen = 0#32 ∧ t.err = 0#3 ∧ t.busy = false ∧ t.status = 0x00#8 ∧
    (∀ i, t.sbAt i = Config.freeSb t.sb.epoch i) ∧ (∀ i, t.bbAt i = Config.freeBb t.bb.epoch i) ∧
    (∀ i, t.dbAt i = Config.freeDb t.db.epoch i) ∧ (∀ k, t.nodeAt k = Config.freeNode t.free k.toNat)

/-- Every command is defined on the state after reset (R323). -/
def Obligations.CommandsAfterReset : Prop :=
  (∃ t, exec .cmdCount State.reset = .next t ∧ t.err = 0#3 ∧ ∀ x, t.count x = 0#32) ∧
  (∃ t, exec .cmdBuild State.reset = .next t ∧ t.err = 1#3) ∧
  (∃ t, exec .cmdEncode State.reset = .next t ∧ t.err = 0#3 ∧ t.bbLen = 0#32) ∧
  (∃ t, exec .cmdDecode State.reset = .next t ∧ t.err = 2#3)

/-! ### Host access (R32, R61 to R68) -/

/-- The address map (R61): the number of locations of every region, the address of each of them, and that no two
locations share an address of the 24-bit space. -/
def Obligations.AddressMap : Prop :=
  (Region.size .cmd = 1 ∧ Region.size .status = 1 ∧ Region.size .sbLen = 1 ∧ Region.size .bbLen = 1 ∧
    Region.size .dbLen = 1 ∧ Region.size .ft = 256 ∧ Region.size .ctLen = 256 ∧ Region.size .ctBit = 65536 ∧
    Region.size .sb = 4096 ∧ Region.size .bb = 32768 ∧ Region.size .db = 4096) ∧
  regionAddress .cmd 0 = 0x000000#24 ∧ regionAddress .status 0 = 0x000001#24 ∧
  regionAddress .sbLen 0 = 0x000002#24 ∧ regionAddress .bbLen 0 = 0x000003#24 ∧
  regionAddress .dbLen 0 = 0x000004#24 ∧
  (∀ i, i < 256 → (regionAddress .ft i).toNat = 0x000100 + i) ∧
  (∀ i, i < 256 → (regionAddress .ctLen i).toNat = 0x000200 + i) ∧
  (∀ x j, x < 256 → j < 256 → (regionAddress .ctBit (x * 256 + j)).toNat = 0x010000 + x * 256 + j) ∧
  (∀ i, i < 4096 → (regionAddress .sb i).toNat = 0x100000 + i) ∧
  (∀ i, i < 32768 → (regionAddress .bb i).toNat = 0x200000 + i) ∧
  (∀ i, i < 4096 → (regionAddress .db i).toNat = 0x300000 + i) ∧
  (∀ r r' i i', i < Region.size r → i' < Region.size r' → regionAddress r i = regionAddress r' i' → r = r' ∧ i = i')

/-- A host read returns the location's value zero-extended to 32 bits, and changes nothing (R61, R64, R67). -/
def Obligations.HostReadReturnsLocation : Prop :=
  ∀ (s : State) (r : Region) (i : Nat) (rest : List Input), s.busy = false → i < r.size →
    s.pending = .hostRead (regionAddress r i) :: rest →
    step s = .next { s with pending := rest, hostData :=
      match r with
      | .cmd => 0#32
      | .status => (statusWord s.err s.treeValid false).setWidth 32
      | .sbLen => s.sbLen
      | .bbLen => s.bbLen
      | .dbLen => s.dbLen
      | .ft => s.count (BitVec.ofNat 8 i)
      | .ctLen => (s.code (BitVec.ofNat 8 i)).len.setWidth 32
      | .ctBit =>
        if i % 256 < 255 then
          if digitAt (s.code (BitVec.ofNat 8 (i / 256))).code (i % 256) then 1#32 else 0#32
        else 0#32
      | .sb => (s.sbAt i).setWidth 32
      | .bb => if s.bbAt i then 1#32 else 0#32
      | .db => (s.dbAt i).setWidth 32 }

/-- A host write stores the value truncated to the location's width where the host may write, leaves every other element
alone, and is ignored where it may not (R61, R64, R65). CMD is `StepRunsDecodedInstruction`. -/
def Obligations.HostWriteStoresLocation : Prop :=
  ∀ (s : State) (r : Region) (i : Nat) (v : HostWord) (rest : List Input), s.busy = false → i < r.size → r ≠ .cmd →
    s.pending = .hostWrite (regionAddress r i) v :: rest →
    ∃ t, step s = .next t ∧
      match r with
      | .sbLen => t = { s with pending := rest, sbLen := v }
      | .bbLen => t = { s with pending := rest, bbLen := v }
      | .ft =>
        (∀ x : Sym, t.count x = if x.toNat = i then v else s.count x) ∧ t = { s with pending := rest, ft := t.ft }
      | .sb =>
        (∀ j, t.sbAt j = if j = i then v.setWidth 8 else s.sbAt j) ∧ t = { s with pending := rest, sb := t.sb }
      | .bb =>
        (∀ j, t.bbAt j = if j = i then v.getLsbD 0 else s.bbAt j) ∧ t = { s with pending := rest, bb := t.bb }
      | .cmd | .status | .dbLen | .ctLen | .ctBit | .db => t = { s with pending := rest }

/-- An unmapped address reads 0 and ignores writes (R65). -/
def Obligations.UnmappedAddress : Prop :=
  ∀ (s : State) (a : Addr) (rest : List Input), s.busy = false →
    (∀ r i, i < Region.size r → regionAddress r i ≠ a) →
    (s.pending = .hostRead a :: rest → step s = .next { s with pending := rest, hostData := 0#32 }) ∧
    (∀ v, s.pending = .hostWrite a v :: rest → step s = .next { s with pending := rest })

/-- Every host write but one of CMD is idempotent (R67). -/
def Obligations.HostWritesIdempotent : Prop :=
  ∀ (s : State) (a : Addr) (v : HostWord) (rest : List Input), s.busy = false → a ≠ cmdAddr →
    s.pending = .hostWrite a v :: .hostWrite a v :: rest →
    ∃ t, step s = .next t ∧ step t = .next { t with pending := rest }

/-- The layout of STATUS (R32), its value after reset, and that a host write leaves it alone. -/
def Obligations.StatusLayout : Prop :=
  (∀ s : State, (s.status.getLsbD 0 = s.busy) ∧ s.status.extractLsb' 5 3 = 0#3 ∧
    (s.busy = false → s.status.getLsbD 1 = s.treeValid ∧ s.status.extractLsb' 2 3 = s.err)) ∧
  State.reset.status = 0#8 ∧
  (∀ (s : State) (v : HostWord) (rest : List Input), s.busy = false →
    s.pending = .hostWrite statusAddr v :: rest → step s = .next { s with pending := rest })

/-! ### frequency_accumulator and COUNT (R120 to R126, R251) -/

/-- FA_CLEAR (R121). -/
def Obligations.FaClearEmptiesTable : Prop :=
  ∀ s : State, ∃ t, exec .faClear s = .next t ∧ (∀ x, t.count x = 0#32) ∧ t.reply = replyOf .ok ∧
    t = { s with ft := t.ft, reply := t.reply }

/-- FA_ADD (R122). -/
def Obligations.FaAddIncrementsOneCount : Prop :=
  ∀ (s : State) (x : Sym), s.count x ≠ BitVec.allOnes 32 →
    ∃ t, exec (.faAdd x) s = .next t ∧ (t.count x).toNat = (s.count x).toNat + 1 ∧
      (∀ y, y ≠ x → t.count y = s.count y) ∧ t.reply = replyOf .ok ∧ t = { s with ft := t.ft, reply := t.reply }

/-- FA_ADD at the largest count runs and leaves every other entry alone; the new count is a free value, which R125 does
not define. That the machine goes on is the model's choice, log entry 2. -/
def Obligations.FaAddAtLargestCount : Prop :=
  ∀ (s : State) (x : Sym), s.count x = BitVec.allOnes 32 →
    ∃ t, exec (.faAdd x) s = .next t ∧ t.count x = Config.freeCount s.free ∧
      (∀ y, y ≠ x → t.count y = s.count y) ∧ t = { s with ft := t.ft, reply := t.reply, free := t.free }

/-- COUNT (R251): the occurrence count of every symbol, the sum of all counts equal to the length, and nothing else
written but ERR; the same counts for the same symbols in any order (R126); CapacityFault, with FT unchanged, for a
length past the buffer. -/
def Obligations.CountComputesFrequencies : Prop :=
  (∀ s : State, s.sbLen.toNat ≤ 4096 →
    ∃ t, exec .cmdCount s = .next t ∧ (∀ x, (t.count x).toNat = s.symbols.count x) ∧
      (allSymbols.map (fun x => (t.count x).toNat)).sum = s.sbLen.toNat ∧ t.err = 0#3 ∧ t.busy = false ∧
      t = { s with ft := t.ft, err := t.err, busy := t.busy }) ∧
  (∀ s s' t t' : State, s.sbLen.toNat ≤ 4096 → s.symbols.Perm s'.symbols → exec .cmdCount s = .next t →
    exec .cmdCount s' = .next t' → ∀ x, t.count x = t'.count x) ∧
  (∀ s : State, 4096 < s.sbLen.toNat → exec .cmdCount s = .next { s with err := 6#3, busy := false })

/-! ### The commands and their micro-operations (R250 to R254) -/

/-- Each command is its micro-operations run in order, the first failure ending it, with the outcome in ERR and BUSY 0 at
the end (R250 to R254). -/
def Obligations.CommandsRunTheirMicroOperations : Prop :=
  ∀ s : State,
    (s.sbLen.toNat ≤ 4096 → ∃ t, execAll (.faClear :: s.symbols.map .faAdd) s = .next t ∧
      exec .cmdCount s = .next { t with reply := s.reply, err := 0#3, busy := false }) ∧
    (∀ t, exec .tbBuild s = .next t → t.reply.result ≠ .ok →
      exec .cmdBuild s = .next { t with reply := s.reply, err := t.reply.result.code, busy := false }) ∧
    (∀ t u, exec .tbBuild s = .next t → t.reply.result = .ok → exec .cgGen t = .next u →
      exec .cmdBuild s = .next { u with reply := s.reply, err := u.reply.result.code, busy := false }) ∧
    (∃ t, exec .encRun s = .next t ∧
      exec .cmdEncode s = .next { t with reply := s.reply, err := t.reply.result.code, busy := false }) ∧
    (∃ t, exec .decRun s = .next t ∧
      exec .cmdDecode s = .next { t with reply := s.reply, err := t.reply.result.code, busy := false })

/-! ### priority_queue_min_heap (R140 to R148) -/

/-- PQ_CLEAR (R143). -/
def Obligations.PqClearEmptiesQueue : Prop :=
  ∀ s : State, ∃ t, exec .pqClear s = .next t ∧ t.heapN = 0 ∧ t.seq = 0#9 ∧ t.queueEmpty = true ∧
    t.reply = replyOf .ok ∧ t = { s with heap := t.heap, seq := t.seq, reply := t.reply }

/-- PQ_PUSH adds one entry stamped with SEQ, and keeps the order of the heap; with the queue full or the counter at its
end it fails and changes nothing (R144, R147). -/
def Obligations.PqPushAddsEntry : Prop :=
  (∀ (s : State) (item : Idx) (weight : Weight), s.heapN < 256 → s.seq.toNat < 511 →
    ∃ t, exec (.pqPush item weight) s = .next t ∧
      t.heap.Perm ({ item := item, weight := weight, seq := s.seq } :: s.heap) ∧ t.seq.toNat = s.seq.toNat + 1 ∧
      (QueueOk s → QueueOk t) ∧ t.reply = replyOf .ok ∧ t = { s with heap := t.heap, seq := t.seq, reply := t.reply }) ∧
  (∀ (s : State) (item : Idx) (weight : Weight), s.heapN = 256 ∨ s.seq.toNat = 511 →
    exec (.pqPush item weight) s = .next { s with reply := replyOf (.fail .capacity) })

/-- PQ_POP takes and returns the entry with the least key and keeps the order of the heap; on an empty queue it fails and
changes nothing (R145, R147). -/
def Obligations.PqPopTakesLeast : Prop :=
  (∀ s : State, QueueOk s → s.heap ≠ [] →
    ∃ t e, exec .pqPop s = .next t ∧ s.heap.Perm (e :: t.heap) ∧
      (∀ f ∈ t.heap, e.weight < f.weight ∨ (e.weight = f.weight ∧ e.seq < f.seq)) ∧ QueueOk t ∧
      t.reply = { result := .ok, item := some e.item, weight := some e.weight, empty := none } ∧
      t = { s with heap := t.heap, reply := t.reply }) ∧
  (∀ s : State, s.heap = [] → exec .pqPop s = .next { s with reply := replyOf (.fail .emptyQueue) })

/-- PQ_ISEMPTY (R146). -/
def Obligations.PqIsEmptyReports : Prop :=
  ∀ s : State, exec .pqIsEmpty s =
    .next { s with reply := { result := .ok, item := none, weight := none, empty := some (decide (s.heapN = 0)) } }

/-- What the queue answers does not depend on the layout of the array (R147): two heaps with the same entries give the
same replies and again the same entries. -/
def Obligations.PqLayoutUnobservable : Prop :=
  ∀ (s s' : State) (i : Instr), QueueOk s → QueueOk s' → s' = { s with heap := s'.heap } → s'.heap.Perm s.heap →
    (i = .pqClear ∨ (∃ item weight, i = .pqPush item weight) ∨ i = .pqPop ∨ i = .pqIsEmpty) →
    ∃ t t', exec i s = .next t ∧ exec i s' = .next t' ∧ t'.reply = t.reply ∧ t'.heap.Perm t.heap ∧
      t' = { t with heap := t'.heap }

/-! ### huffman_tree_builder (R170 to R180) -/

/-- EmptyAlphabetError: TB_BUILD and BUILD on the empty mapping fail before any state is written (R282). -/
def Obligations.EmptyAlphabetWritesNothing : Prop :=
  ∀ s : State, (∀ x, s.count x = 0#32) →
    exec .tbBuild s = .next { s with reply := replyOf (.fail .emptyAlphabet) } ∧
    exec .cmdBuild s = .next { s with err := 1#3, busy := false }

/-- TB_BUILD on any other mapping succeeds, from every state: the arena of R40 with the leaves of R175, the root weight of
R178 and the queue of R179. -/
def Obligations.TbBuildMakesWellFormedTree : Prop :=
  ∀ s : State, s.recorded ≠ [] →
    ∃ t, exec .tbBuild s = .next t ∧ t.treeValid = true ∧ TreeWf t s.recorded.length ∧
      t.node.take s.recorded.length = s.recorded.map (fun x =>
        { leaf := true, sym := x, weight := (s.count x).setWidth 40, left := 0#9, right := 0#9 }) ∧
      (t.nodeAt t.root).weight.toNat = (allSymbols.map (fun x => (s.count x).toNat)).sum ∧
      t.heapN = 0 ∧ t.seq.toNat = 2 * s.recorded.length - 1 ∧ t.k.toNat = 2 * s.recorded.length - 1 ∧
      t.reply = replyOf .ok ∧
      t = { s with node := t.node, root := t.root, treeValid := t.treeValid, heap := t.heap, seq := t.seq, k := t.k,
                   reply := t.reply }

/-- The tree TB_BUILD makes is the one that repeatedly merging the two least entries of a sorted list gives, least left,
ties by push order, leaves pushed by ascending symbol (R147, R170 to R173). -/
def Obligations.TbBuildMergesLeastPairs : Prop :=
  ∀ s : State, s.recorded ≠ [] →
    ∃ t T, exec .tbBuild s = .next t ∧ t.tree = some T ∧ huffmanTree s = some T

/-- Determinism (R180): equal FT contents give equal arenas and equal roots, hence equal code tables. -/
def Obligations.BuildDependsOnFrequenciesOnly : Prop :=
  ∀ s s' : State, (∀ x, s.count x = s'.count x) → s.recorded ≠ [] →
    (∃ t t', exec .tbBuild s = .next t ∧ exec .tbBuild s' = .next t' ∧ t.node = t'.node ∧ t.root = t'.root) ∧
    (∃ t t', exec .cmdBuild s = .next t ∧ exec .cmdBuild s' = .next t' ∧ ∀ x, t.code x = t'.code x)

/-- One recorded symbol (R174, R192): the root is its leaf, and its codeword is "0". -/
def Obligations.OneSymbolAlphabet : Prop :=
  ∀ (s : State) (x : Sym), s.recorded = [x] →
    ∃ t, exec .cmdBuild s = .next t ∧ t.root = 0#9 ∧
      t.nodeAt 0#9 = { leaf := true, sym := x, weight := (s.count x).setWidth 40, left := 0#9, right := 0#9 } ∧
      t.node.length = 1 ∧ ∀ y, t.codewordOf y = if y = x then some [false] else none

/-! ### codeword_table_generator (R190 to R199) -/

/-- CG_GEN with no tree fails and leaves CT alone (R191, R196, R283). -/
def Obligations.CgGenWithoutTree : Prop :=
  ∀ s : State, s.treeValid = false → exec .cgGen s = .next { s with reply := replyOf (.fail .emptyTree) }

/-- The closed form of the code table (R199): CT is `codes(T)`, and the unused digits are 0. -/
def Obligations.CgGenWritesRootPaths : Prop :=
  ∀ (s : State) (n : Nat), s.treeValid = true → TreeWf s n →
    ∃ t T, exec .cgGen s = .next t ∧ s.tree = some T ∧ (∀ x, t.codewordOf x = T.codes.lookup x) ∧ CodesPadded t ∧
      t.reply = replyOf .ok ∧
      t = { s with ct := t.ct, path := t.path, depth := t.depth, dstack := t.dstack, reply := t.reply }

/-- The traversal by PATH, DEPTH and DSTACK writes what R191's recursion writes (R191, R198). -/
def Obligations.CgGenFollowsRecursion : Prop :=
  ∀ (s : State) (n : Nat), s.treeValid = true → TreeWf s n → (s.nodeAt s.root).leaf = false →
    ∃ t, exec .cgGen s = .next t ∧ walkRec s 256 s.root [] [] = some t.ct

/-- Prefix-freedom (R195). -/
def Obligations.CodewordsPrefixFree : Prop :=
  ∀ (s : State) (n : Nat), s.treeValid = true → TreeWf s n →
    ∃ t, exec .cgGen s = .next t ∧ t.reply.result = .ok ∧
      ∀ x y p q, x ≠ y → t.codewordOf x = some p → t.codewordOf y = some q → ¬ p <+: q

/-- After BUILD exactly the recorded symbols have codewords (R194), of 1 to N - 1 digits, or of exactly 1 where N = 1, and
never truncated: what CT holds for a symbol is the whole codeword that R199's closed form gives it in the abstract tree, its
root path, and `len` and `code` have room for it (R197). -/
def Obligations.BuildCoversRecordedSymbols : Prop :=
  ∀ s : State, s.recorded ≠ [] →
    ∃ t T, exec .cmdBuild s = .next t ∧ t.tree = some T ∧ (∀ x, t.codewordOf x = T.codes.lookup x) ∧
      (∀ x, (t.code x).len ≠ 0#8 ↔ s.count x ≠ 0#32) ∧
      ∀ x p, t.codewordOf x = some p → 1 ≤ p.length ∧ p.length ≤ max 1 (s.recorded.length - 1) ∧
        p.length = (t.code x).len.toNat ∧ p.length ≤ 255

/-! ### BUILD (R252) -/

/-- A successful BUILD replaces the tree and the table, which agree with each other and with FT, and changes nothing but
what R252 lists, the scratch registers, ERR and BUSY. -/
def Obligations.BuildReplacesTreeAndTable : Prop :=
  ∀ s : State, s.recorded ≠ [] →
    ∃ t T, exec .cmdBuild s = .next t ∧ t.treeValid = true ∧ TreeWf t s.recorded.length ∧ t.tree = some T ∧
      T.symbols.Perm s.recorded ∧ T.weighted ∧ (∀ x, t.codewordOf x = T.codes.lookup x) ∧ CodesPadded t ∧
      t.err = 0#3 ∧ t.busy = false ∧
      t = { s with node := t.node, root := t.root, treeValid := t.treeValid, ct := t.ct, heap := t.heap, seq := t.seq,
                   k := t.k, path := t.path, depth := t.depth, dstack := t.dstack, err := t.err, busy := t.busy }

/-- BUILD again with FT unchanged leaves the very same state (R180, R252). That the scratch registers are the same too
rests on log entry 3. -/
def Obligations.BuildAgainChangesNothing : Prop :=
  ∀ s : State, s.recorded ≠ [] → ∃ t, exec .cmdBuild s = .next t ∧ exec .cmdBuild t = .next t

/-! ### huffman_encoder (R210 to R217) -/

/-- ENC_RUN leaves the concatenation of the codewords, of the total length, and writes nothing else (R211, R213, R214). -/
def Obligations.EncRunConcatenatesCodewords : Prop :=
  ∀ (s : State) (q : List Digit), s.sbLen.toNat ≤ 4096 → s.concatCodes s.symbols = some q → q.length ≤ 32768 →
    ∃ t, exec .encRun s = .next t ∧ t.stream = q ∧ t.bbLen.toNat = q.length ∧
      t.bbLen.toNat = (s.symbols.map (fun x => (s.code x).len.toNat)).sum ∧ t.reply = replyOf .ok ∧
      t = { s with bb := t.bb, bbLen := t.bbLen, out := t.out, reply := t.reply }

/-- ENC_RUN stops at the lowest index whose symbol has no codeword, with no stream (R211, R212, R284, R290). -/
def Obligations.EncRunUnknownSymbol : Prop :=
  ∀ (s : State) (i : Nat) (q : List Digit), s.sbLen.toNat ≤ 4096 → i < s.sbLen.toNat →
    s.concatCodes (s.symbols.take i) = some q → q.length ≤ 32768 → s.codewordOf (s.sbAt i) = none →
    ∃ t, exec .encRun s = .next t ∧ t.reply = replyOf (.fail .unknownSymbol) ∧ t.bbLen = 0#32 ∧
      t = { s with bb := t.bb, bbLen := t.bbLen, out := t.out, reply := t.reply }

/-- ENC_RUN stops at the lowest index whose codeword does not fit, and at once on a length past the buffer, with no stream
(R211, R212, R287, R290). -/
def Obligations.EncRunCapacityFault : Prop :=
  (∀ (s : State) (i : Nat) (q p : List Digit), s.sbLen.toNat ≤ 4096 → i < s.sbLen.toNat →
    s.concatCodes (s.symbols.take i) = some q → q.length ≤ 32768 → s.codewordOf (s.sbAt i) = some p →
    32768 < q.length + p.length →
    ∃ t, exec .encRun s = .next t ∧ t.reply = replyOf (.fail .capacity) ∧ t.bbLen = 0#32 ∧
      t = { s with bb := t.bb, bbLen := t.bbLen, out := t.out, reply := t.reply }) ∧
  (∀ s : State, 4096 < s.sbLen.toNat →
    ∃ t, exec .encRun s = .next t ∧ t.reply = replyOf (.fail .capacity) ∧ t.bbLen = 0#32 ∧
      t = { s with bb := t.bb, bbLen := t.bbLen, out := t.out, reply := t.reply })

/-! ### huffman_decoder (R230 to R238) -/

/-- EmptyTreeError comes first, whatever BB and BB_LEN hold, and a command reports it in no other case (R237). -/
def Obligations.EmptyTreeErrorComesFirst : Prop :=
  (∀ s : State, s.treeValid = false →
    ∃ t, exec .decRun s = .next t ∧ t.reply = replyOf (.fail .emptyTree) ∧ t.dbLen = 0#32 ∧
      t = { s with db := t.db, dbLen := t.dbLen, reply := t.reply }) ∧
  (∀ (s t : State) (i : Instr), (i = .cmdCount ∨ i = .cmdBuild ∨ i = .cmdEncode ∨ i = .cmdDecode) →
    exec i s = .next t → t.err = 2#3 → i = .cmdDecode ∧ s.treeValid = false)

/-- DEC_RUN on a valid tree (R231, R232, R234, R285, R290): CapacityFault on a length past the buffer or on more symbols
than fit; MalformedStreamError where the walk of the tree stops or ends below the root; else the symbols the walk emits. -/
def Obligations.DecRunWalksTree : Prop :=
  ∀ (s : State) (n : Nat), s.treeValid = true → TreeWf s n →
    ∃ t T, exec .decRun s = .next t ∧ s.tree = some T ∧
      t = { s with db := t.db, dbLen := t.dbLen, cur := t.cur, out := t.out, reply := t.reply } ∧
      (if 32768 < s.bbLen.toNat ∨ 4096 < (T.decodeWalk T s.stream).1.length then
        t.reply = replyOf (.fail .capacity) ∧ t.dbLen = 0#32
      else if (T.decodeWalk T s.stream).2 then
        t.reply = replyOf .ok ∧ t.decoded = (T.decodeWalk T s.stream).1 ∧
          t.dbLen.toNat = (T.decodeWalk T s.stream).1.length ∧ t.cur = s.root
      else t.reply = replyOf (.fail .malformedStream) ∧ t.dbLen = 0#32)

/-- A root that is a leaf (R233): each digit 0 emits its symbol, and a digit 1 is malformed. -/
def Obligations.LeafRootDecoding : Prop :=
  ∀ (s : State) (k : Nat), s.treeValid = true → (s.nodeAt s.root).leaf = true → s.bbLen.toNat ≤ 32768 → k ≤ 4096 →
    (s.stream = List.replicate k false →
      ∃ t, exec .decRun s = .next t ∧ t.reply = replyOf .ok ∧
        t.decoded = List.replicate k (s.nodeAt s.root).sym ∧ t.dbLen.toNat = k) ∧
    (∀ rest, s.stream = List.replicate k false ++ true :: rest →
      ∃ t, exec .decRun s = .next t ∧ t.reply = replyOf (.fail .malformedStream) ∧ t.dbLen = 0#32)

/-- Unique decodability (R238): a stream decodes exactly when it is a sequence of whole codewords of the tree, and the
capacity of DB suffices. -/
def Obligations.DecodingSucceedsOnCodewordsOnly : Prop :=
  ∀ (s : State) (n : Nat), s.treeValid = true → TreeWf s n → TableOk s → s.bbLen.toNat ≤ 32768 →
    ∃ t, exec .decRun s = .next t ∧
      (t.reply.result = .ok ↔ ∃ xs, xs.length ≤ 4096 ∧ s.concatCodes xs = some s.stream)

/-- The empty input encodes to the empty stream, whatever CT holds (R215), and the empty stream decodes to the empty
sequence, whatever the tree is (R236). -/
def Obligations.EmptyInputsSucceed : Prop :=
  (∀ s : State, s.sbLen = 0#32 →
    ∃ t, exec .encRun s = .next t ∧ t.reply = replyOf .ok ∧ t.bbLen = 0#32 ∧
      t = { s with bb := t.bb, bbLen := t.bbLen, out := t.out, reply := t.reply }) ∧
  (∀ s : State, s.treeValid = true → s.bbLen = 0#32 →
    ∃ t, exec .decRun s = .next t ∧ t.reply = replyOf .ok ∧ t.dbLen = 0#32 ∧ t.cur = s.root ∧
      t = { s with db := t.db, dbLen := t.dbLen, cur := t.cur, out := t.out, reply := t.reply })

/-! ### Round trips (R235, R259) -/

/-- The round-trip law (R235): what ENC_RUN produced, DEC_RUN decodes to the symbols it came from. -/
def Obligations.RoundTrip : Prop :=
  ∀ (s : State) (n : Nat) (q : List Digit), s.treeValid = true → TreeWf s n → TableOk s → s.sbLen.toNat ≤ 4096 →
    s.concatCodes s.symbols = some q → q.length ≤ 32768 →
    ∃ t u, exec .encRun s = .next t ∧ t.reply = replyOf .ok ∧ exec .decRun t = .next u ∧ u.reply = replyOf .ok ∧
      u.decoded = s.symbols ∧ u.symbols = s.symbols ∧ u.dbLen = s.sbLen

/-- The end-to-end law (R259): COUNT, BUILD, ENCODE, DECODE on a non-empty sequence, from any state; and what happens on
the empty one. -/
def Obligations.EndToEndRoundTrip : Prop :=
  (∀ s : State, 1 ≤ s.sbLen.toNat → s.sbLen.toNat ≤ 4096 →
    ∃ s1 s2 q, exec .cmdCount s = .next s1 ∧ exec .cmdBuild s1 = .next s2 ∧ s1.err = 0#3 ∧ s2.err = 0#3 ∧
      s2.concatCodes s.symbols = some q ∧
      (q.length ≤ 32768 → ∃ s3 s4, exec .cmdEncode s2 = .next s3 ∧ exec .cmdDecode s3 = .next s4 ∧
        s3.err = 0#3 ∧ s4.err = 0#3 ∧ s4.dbLen = s.sbLen ∧ s4.decoded = s.symbols ∧ s4.sb = s.sb ∧
        s4.sbLen = s.sbLen ∧ (∀ x, (s4.count x).toNat = s.symbols.count x) ∧
        (∀ x y p p', x ≠ y → s4.codewordOf x = some p → s4.codewordOf y = some p' → ¬ p <+: p') ∧
        (∀ x, s4.codewordOf x ≠ none ↔ x ∈ s.symbols) ∧ s4.stream = q ∧
        s4.bbLen.toNat = (s.symbols.map (fun x => (s4.code x).len.toNat)).sum)) ∧
  (∀ s : State, s.sbLen = 0#32 →
    ∃ s1 s2, exec .cmdCount s = .next s1 ∧ s1.err = 0#3 ∧ exec .cmdBuild s1 = .next s2 ∧ s2.err = 1#3 ∧
      s2.ct = s.ct ∧ s2.node = s.node ∧ s2.root = s.root ∧ s2.treeValid = s.treeValid)

/-! ### Errors (R255, R281, R291, R297) -/

/-- Every command completes, from every state, with BUSY = 0 and only the ERR values R297 allows it (R255, R297). -/
def Obligations.EveryCommandCompletes : Prop :=
  ∀ s : State,
    (∃ t, exec .cmdCount s = .next t ∧ t.busy = false ∧ (t.err = 0#3 ∨ t.err = 6#3)) ∧
    (∃ t, exec .cmdBuild s = .next t ∧ t.busy = false ∧ (t.err = 0#3 ∨ t.err = 1#3)) ∧
    (∃ t, exec .cmdEncode s = .next t ∧ t.busy = false ∧ (t.err = 0#3 ∨ t.err = 3#3 ∨ t.err = 6#3)) ∧
    (∃ t, exec .cmdDecode s = .next t ∧ t.busy = false ∧
      (t.err = 0#3 ∨ t.err = 2#3 ∨ t.err = 4#3 ∨ t.err = 6#3))

/-- What a failing command changes (R291): ERR, its own output length, which becomes 0, its output buffer, whose elements
are unspecified from then on, and scratch registers (log entry 3). -/
def Obligations.FailedCommandKeepsTheRest : Prop :=
  ∀ s t : State,
    (exec .cmdCount s = .next t → t.err ≠ 0#3 → t = { s with err := t.err, busy := false }) ∧
    (exec .cmdBuild s = .next t → t.err ≠ 0#3 → t = { s with err := t.err, busy := false }) ∧
    (exec .cmdEncode s = .next t → t.err ≠ 0#3 →
      t = { s with bb := t.bb, bbLen := 0#32, out := t.out, err := t.err, busy := false } ∧
      ∀ i, t.bbAt i = Config.freeBb t.bb.epoch i) ∧
    (exec .cmdDecode s = .next t → t.err ≠ 0#3 →
      t = { s with db := t.db, dbLen := 0#32, cur := t.cur, out := t.out, err := t.err, busy := false } ∧
      ∀ i, t.dbAt i = Config.freeDb t.db.epoch i)

/-! ### Whole-machine rules -/

/-- TREE_VALID goes from 1 to 0 by reset only (R27, R322). -/
def Obligations.TreeValidClearedOnlyByReset : Prop :=
  ∀ s t : State, step s = .next t → s.treeValid = true → t.treeValid = false → ∃ rest, s.pending = .reset :: rest

/-- The tree changes only by BUILD, TB_BUILD or reset, and the table only by BUILD, CG_GEN or reset (R20, R41, R70). -/
def Obligations.TreeAndTableChangeOnlyByBuild : Prop :=
  ∀ (s t : State) (x : Input) (rest : List Input), s.pending = x :: rest → step s = .next t →
    (t.node ≠ s.node ∨ t.root ≠ s.root ∨ t.treeValid ≠ s.treeValid →
      x = .reset ∨ (∃ v : HostWord, v.toNat % 256 = 2 ∧ x = .hostWrite cmdAddr v) ∨ (∃ p, x = .micro 6#4 p)) ∧
    (t.ct ≠ s.ct →
      x = .reset ∨ (∃ v : HostWord, v.toNat % 256 = 2 ∧ x = .hostWrite cmdAddr v) ∨ (∃ p, x = .micro 7#4 p))

/-- Who writes FT and the buffers (R20, R29, R30, R31): the host where it may, and the one command or micro-operation that
owns the output. -/
def Obligations.BuffersWrittenByTheirOwnersOnly : Prop :=
  ∀ (s t : State) (x : Input) (rest : List Input), s.pending = x :: rest → step s = .next t → x ≠ .reset →
    (t.sb ≠ s.sb → ∃ i v, i < 4096 ∧ x = .hostWrite (regionAddress .sb i) v) ∧
    (t.sbLen ≠ s.sbLen → ∃ v, x = .hostWrite (regionAddress .sbLen 0) v) ∧
    (t.ft ≠ s.ft → (∃ i v, i < 256 ∧ x = .hostWrite (regionAddress .ft i) v) ∨
      (∃ v : HostWord, v.toNat % 256 = 1 ∧ x = .hostWrite cmdAddr v) ∨ (∃ u p, u.toNat ≤ 1 ∧ x = .micro u p)) ∧
    (t.bb ≠ s.bb → (∃ i v, i < 32768 ∧ x = .hostWrite (regionAddress .bb i) v) ∨
      (∃ v : HostWord, v.toNat % 256 = 3 ∧ x = .hostWrite cmdAddr v) ∨ (∃ p, x = .micro 8#4 p)) ∧
    (t.bbLen ≠ s.bbLen → (∃ v, x = .hostWrite (regionAddress .bbLen 0) v) ∨
      (∃ v : HostWord, v.toNat % 256 = 3 ∧ x = .hostWrite cmdAddr v) ∨ (∃ p, x = .micro 8#4 p)) ∧
    (t.db ≠ s.db ∨ t.dbLen ≠ s.dbLen →
      (∃ v : HostWord, v.toNat % 256 = 4 ∧ x = .hostWrite cmdAddr v) ∨ (∃ p, x = .micro 9#4 p))

/-- ERR is written by the completion of a command and by reset, by nothing else (R34); BUSY is 0 after every step of an
idle core (R35). -/
def Obligations.ErrWrittenByCommandsOnly : Prop :=
  ∀ (s t : State) (x : Input) (rest : List Input), s.pending = x :: rest → step s = .next t → s.busy = false →
    t.busy = false ∧ (t.err ≠ s.err → x = .reset ∨ ∃ v, x = .hostWrite cmdAddr v)

/-- What the host can read changes only in the regions that the operation writes: a command's regions are R72's table, a
micro-operation's follow from R20's column "written by" (TREE_VALID, which TB_BUILD writes, lies in STATUS), and ERR is
written by a command's completion and by nothing else (R34). -/
def Obligations.HostSeesOnlyDeclaredWrites : Prop :=
  ∀ (i : Instr) (s t : State) (a : Addr), s.busy = false → exec i s = .next t →
    (∀ r j, j < Region.size r → regionAddress r j = a →
      r ∉ (match i with
        | .cmdCount => [.ft, .status]
        | .cmdBuild => [.ctLen, .ctBit, .status]
        | .cmdEncode => [.bb, .bbLen, .status]
        | .cmdDecode => [.db, .dbLen, .status]
        | .faClear => [.ft]
        | .faAdd _ => [.ft]
        | .pqClear => []
        | .pqPush _ _ => []
        | .pqPop => []
        | .pqIsEmpty => []
        | .tbBuild => [.status]
        | .cgGen => [.ctLen, .ctBit]
        | .encRun => [.bb, .bbLen]
        | .decRun => [.db, .dbLen] : List Region)) →
    memRead a t = memRead a s

/-- The host can supply any sequence that fits (R101, R323): the steps of a `.sb` line leave it as the input. -/
def Obligations.HostSuppliesSymbols : Prop :=
  ∀ (s : State) (xs : List Sym), s.busy = false → xs.length ≤ 4096 →
    ∃ t, runScript (assemble (.sb xs)) s = .next (t, true) ∧ t.symbols = xs ∧
      t = { s with sb := t.sb, sbLen := t.sbLen }

/-- Buffers large enough never overflow (R287, U11): COUNT, ENC_RUN and DEC_RUN with capacities past what the lengths can
need never report CapacityFault. -/
def Obligations.LargeBuffersNeverOverflow : Prop :=
  ∀ (s : State) (cap : Config.Capacities), s.sbLen.toNat ≤ cap.sb → 255 * s.sbLen.toNat ≤ cap.bb →
    s.bbLen.toNat ≤ cap.bb → s.bbLen.toNat ≤ cap.db →
    (runCount cap s).2 ≠ .fail .capacity ∧ (encRun cap s).2 ≠ .fail .capacity ∧ (decRun cap s).2 ≠ .fail .capacity

/-! ### Invariants -/

/-- Every step keeps the invariant (R28, R40, R142 and the canonical form of the storage). -/
def Obligations.StepKeepsInvariant : Prop :=
  ∀ s t : State, Inv s → step s = .next t → Inv t

/-- The state after reset has the invariants. -/
def Obligations.InvariantsAtReset : Prop := Inv State.reset ∧ TableOk State.reset ∧ HostOnly State.reset

/-- Table consistency (R41): while the host alone drives the core, CT is the code table of the tree, or empty where there
is no tree. -/
def Obligations.StepKeepsTableConsistent : Prop :=
  ∀ s t : State, Inv s → TableOk s → HostOnly s → step s = .next t → TableOk t ∧ HostOnly t

/-- From a good state no run stops (R255): no fault and no refusal, whatever the inputs are. -/
def Obligations.GoodRunsNeverStop : Prop :=
  ∀ (s : State) (k : Nat), Inv s → SafeRun k s

end
end

