-- ==== Sys2Proof/Laws/Widths.lean ====
section
/-! SUPPORT. What the parameters of R9 come to in the configuration of this machine: `widths` is what `omega` needs of them,
the simp lemmas turn a power of a width into its numeral, and the constraints of R9 hold of the configuration. -/

namespace Sys2Proof.Config

theorem parameters_legal : parameters.legal := by decide

@[simp] theorem two_pow_symW : 2 ^ symW = 256 := rfl
@[simp] theorem two_pow_cntW : 2 ^ cntW = 4294967296 := rfl
@[simp] theorem two_pow_weightW : 2 ^ weightW = 1099511627776 := rfl
@[simp] theorem two_pow_idxW : 2 ^ idxW = 512 := rfl
@[simp] theorem two_pow_lenW : 2 ^ lenW = 4294967296 := rfl
@[simp] theorem codeMax_eq : codeMax = 255 := rfl
@[simp] theorem alphabet_eq : alphabet = 256 := rfl
@[simp] theorem heapDepth_eq : heapDepth = 256 := rfl
@[simp] theorem nodeDepth_eq : nodeDepth = 511 := rfl

/-- The counts that bound every value, for `omega`. -/
theorem widths : 2 ^ symW = 256 ∧ 2 ^ cntW = 4294967296 ∧ 2 ^ weightW = 1099511627776 ∧ 2 ^ idxW = 512 ∧
    2 ^ lenW = 4294967296 ∧ codeMax = 255 ∧ alphabet = 256 ∧ heapDepth = 256 ∧ nodeDepth = 511 :=
  ⟨rfl, rfl, rfl, rfl, rfl, rfl, rfl, rfl, rfl⟩

end Sys2Proof.Config
end

