-- ==== Sys2Proof/Laws/Digits.lean ====
section
/-! SUPPORT. Laws of digit registers and code entries (R28, R191, R198). -/

namespace Sys2Proof.Machine

open Sys2Proof

theorem digitAt_digitsOf (p : List Digit) (j : Nat) (hj : j < 255) : digitAt (digitsOf p) j = p.getD j false := by
  induction p generalizing j with
  | nil => simp [digitsOf, digitAt]
  | cons b bs ih =>
    cases j with
    | zero => cases b <;> simp [digitsOf, digitAt]
    | succ j =>
      have h := ih j (by omega)
      simp only [digitAt] at h
      rw [BitVec.getLsbD_eq_getElem (show j < 255 by omega)] at h
      cases b <;> simpa [digitsOf, digitAt, hj] using h

@[simp] theorem firstDigits_length (ds : Digits) (n : Nat) : (firstDigits ds n).length = n := by
  simp [firstDigits]

theorem firstDigits_digitsOf (p : List Digit) (h : p.length ≤ 255) : firstDigits (digitsOf p) p.length = p := by
  apply List.ext_getElem (by simp)
  intro i h1 h2
  simp only [firstDigits, List.getElem_map, List.getElem_range]
  rw [digitAt_digitsOf p i (by omega)]
  simp [h2]

/-- The codeword of the entry that `assign` writes is the sequence assigned (R191: "assign never truncates"). -/
theorem codeword_codeEntry (p : List Digit) (h : p.length ≤ 255) : codeword (codeEntry p) = p := by
  have hl : (BitVec.ofNat Config.symW p.length).toNat = p.length := by simp; omega
  simp only [codeword, codeEntry, hl]
  exact firstDigits_digitsOf p h

theorem codeEntry_len (p : List Digit) (h : p.length ≤ 255) : (codeEntry p).len.toNat = p.length := by
  simp [codeEntry]; omega

/-- Digits past the length are 0 (R28). -/
theorem codeEntry_padded (p : List Digit) (h : p.length ≤ 255) (j : Nat) (hj : (codeEntry p).len.toNat ≤ j) :
    digitAt (codeEntry p).code j = false := by
  rw [codeEntry_len p h] at hj
  by_cases h2 : j < 255
  · rw [codeEntry, digitAt_digitsOf p j h2]; simp [hj]
  · exact BitVec.getLsbD_of_ge _ _ (by (have := Config.widths; omega))

theorem digitAt_setDigit (ds : Digits) (i : Nat) (b : Digit) (j : Nat) (hi : i < 255) :
    digitAt (setDigit ds i b) j = if j = i then b else digitAt ds j := by
  by_cases hj : j < 255
  · by_cases hji : j = i
    · subst hji; cases b <;> simp [setDigit, digitAt, hj]
    · have h1 : j < i ∨ ¬ j - i = 0 := by omega
      have h2 : (decide (j < i) || !decide (j - i = 0)) = true := by simpa using h1
      cases b
      · simp [setDigit, digitAt, hji, hj]; intro _; exact h1
      · simp only [setDigit, digitAt, hji, if_true, if_false]
        rcases h1 with h1 | h1 <;> simp [hj, h1]
  · have e : ∀ x : Digits, x.getLsbD j = false := fun x => BitVec.getLsbD_of_ge _ _ (by (have := Config.widths; omega))
    simp [digitAt, e]
    omega

/-- Setting digit `n` extends the first `n` digits by it. -/
theorem firstDigits_setDigit (ds : Digits) (n : Nat) (b : Digit) (hn : n < 255) :
    firstDigits (setDigit ds n b) (n + 1) = firstDigits ds n ++ [b] := by
  simp only [firstDigits, List.range_succ, List.map_append, List.map_cons, List.map_nil]
  congr 1
  · apply List.map_congr_left
    intro i hi
    rw [digitAt_setDigit ds n b i hn, if_neg (by have := List.mem_range.mp hi; omega)]
  · rw [digitAt_setDigit ds n b n hn, if_pos rfl]

/-- Digits from a register whose first `n` digits are given. -/
theorem firstDigits_prefix (ds es : Digits) (n m : Nat) (h : m ≤ n) (e : firstDigits ds n = firstDigits es n) :
    firstDigits ds m = firstDigits es m := by
  have : ∀ xs : Digits, firstDigits xs m = (firstDigits xs n).take m := by
    intro xs; simp [firstDigits, ← List.map_take, List.take_range, h]
  rw [this, this, e]

end Sys2Proof.Machine
end

