-- ==== Sys2Proof/Laws/Store.lean ====
section
/-! SUPPORT. Laws of sparse storage: reading after writing, and the canonical form that every write keeps. -/

namespace Sys2Proof.Machine

variable {α : Type}

@[simp] theorem Store.find_nil (k : Nat) : Store.find ([] : Store α) k = none := rfl

@[simp] theorem Store.find_put_same (l : Store α) (k : Nat) (v : α) : (Store.put l k v).find k = some v := by
  induction l with
  | nil => simp [Store.put, Store.find]
  | cons p r ih =>
    obtain ⟨j, w⟩ := p
    simp only [Store.put]
    split
    · simp [Store.find]
    · split
      · simp [Store.find]
      · rename_i h; simp [Store.find, Ne.symm h, ih]

theorem Store.find_put_other (l : Store α) {k j : Nat} (h : j ≠ k) (v : α) :
    (Store.put l k v).find j = l.find j := by
  induction l with
  | nil => simp [Store.put, Store.find, Ne.symm h]
  | cons p r ih =>
    obtain ⟨i, w⟩ := p
    simp only [Store.put]
    split
    · simp [Store.find, Ne.symm h]
    · split
      · subst_vars; simp [Store.find, Ne.symm h]
      · simp [Store.find, ih]

@[simp] theorem Store.find_clear_same (l : Store α) (k : Nat) : (Store.clear l k).find k = none := by
  induction l with
  | nil => rfl
  | cons p r ih =>
    obtain ⟨j, w⟩ := p
    by_cases hj : j = k
    · subst hj; simpa [Store.clear] using ih
    · have : Store.clear ((j, w) :: r) k = (j, w) :: Store.clear r k := by simp [Store.clear, hj]
      rw [this]; simp [Store.find, hj, ih]

theorem Store.find_clear_other (l : Store α) {k j : Nat} (h : j ≠ k) : (Store.clear l k).find j = l.find j := by
  induction l with
  | nil => rfl
  | cons p r ih =>
    obtain ⟨i, w⟩ := p
    by_cases hi : i = k
    · subst hi
      have : Store.clear ((i, w) :: r) i = Store.clear r i := by simp [Store.clear]
      rw [this, ih]; simp [Store.find, Ne.symm h]
    · have : Store.clear ((i, w) :: r) k = (i, w) :: Store.clear r k := by simp [Store.clear, hi]
      rw [this]; simp [Store.find, ih]

variable [DecidableEq α]

@[simp] theorem Store.find_write_same (d : α) (l : Store α) (k : Nat) (v : α) :
    ((Store.write d l k v).find k).getD d = v := by
  unfold Store.write
  split <;> simp_all

theorem Store.find_write_other (d : α) (l : Store α) {k j : Nat} (h : j ≠ k) (v : α) :
    (Store.write d l k v).find j = l.find j := by
  unfold Store.write
  split
  · exact Store.find_clear_other l h
  · exact Store.find_put_other l h v

omit [DecidableEq α]

theorem Store.mem_put {l : Store α} {k : Nat} {v : α} {p : Nat × α} (h : p ∈ Store.put l k v) :
    p = (k, v) ∨ p ∈ l := by
  induction l with
  | nil => simpa [Store.put] using h
  | cons q r ih =>
    obtain ⟨j, w⟩ := q
    simp only [Store.put] at h
    split at h
    · simpa using h
    · split at h
      · rcases List.mem_cons.mp h with h | h
        · exact .inl h
        · exact .inr (List.mem_cons_of_mem _ h)
      · rcases List.mem_cons.mp h with h | h
        · exact .inr (by simp [h])
        · rcases ih h with h | h
          · exact .inl h
          · exact .inr (List.mem_cons_of_mem _ h)

/-- A write inside the range keeps the canonical form. -/
theorem Store.wf_put {n : Nat} {l : Store α} {k : Nat} (v : α) (h : Store.wf n l) (hk : k < n) :
    Store.wf n (Store.put l k v) := by
  refine ⟨?_, fun p hp => ?_⟩
  · obtain ⟨hs, -⟩ := h
    induction l with
    | nil => simp [Store.put]
    | cons q r ih =>
      obtain ⟨j, w⟩ := q
      rw [List.pairwise_cons] at hs
      simp only [Store.put]
      split
      · rename_i hkj
        refine List.pairwise_cons.mpr ⟨fun b hb => ?_, List.pairwise_cons.mpr hs⟩
        rcases List.mem_cons.mp hb with rfl | hb
        · exact hkj
        · exact lt_trans hkj (hs.1 b hb)
      · split
        · subst_vars; exact List.pairwise_cons.mpr hs
        · refine List.pairwise_cons.mpr ⟨fun b hb => ?_, ih hs.2⟩
          rcases Store.mem_put hb with rfl | hb
          · change j < k; omega
          · exact hs.1 b hb
  · rcases Store.mem_put hp with rfl | hp
    · exact hk
    · exact h.2 p hp

theorem Store.wf_clear {n : Nat} {l : Store α} (k : Nat) (h : Store.wf n l) : Store.wf n (Store.clear l k) :=
  ⟨h.1.filter _, fun p hp => h.2 p (List.mem_of_mem_filter hp)⟩

/-- A table write keeps the canonical form: no listed entry equals what an unlisted one reads as. -/
theorem Store.tableWf_write [DecidableEq α] {d : α} {n : Nat} {l : Store α} {k : Nat} (v : α)
    (h : Store.tableWf d n l) (hk : k < n) : Store.tableWf d n (Store.write d l k v) := by
  unfold Store.write
  split
  · exact ⟨Store.wf_clear k h.1, fun p hp => h.2 p (List.mem_of_mem_filter hp)⟩
  · rename_i hv
    refine ⟨Store.wf_put v h.1 hk, fun p hp => ?_⟩
    rcases Store.mem_put hp with rfl | hp
    · exact hv
    · exact h.2 p hp

/-- What a listed sequence holds at each index. -/
theorem Store.find_ofListFrom (vs : List α) (i k : Nat) :
    (Store.ofListFrom i vs).find k = if k < i then none else vs[k - i]? := by
  induction vs generalizing i with
  | nil => simp [Store.ofListFrom]
  | cons v vs ih =>
    simp only [Store.ofListFrom, Store.find, ih]
    by_cases h : i = k
    · subst h; simp
    · by_cases hk : k < i
      · simp [h, hk, Nat.lt_succ_of_lt hk]
      · have h1 : ¬ k < i + 1 := by omega
        have h2 : k - i = (k - (i + 1)) + 1 := by omega
        simp [h, hk, h1, h2]

theorem Store.mem_ofListFrom {vs : List α} {i : Nat} {p : Nat × α} (h : p ∈ Store.ofListFrom i vs) :
    i ≤ p.1 ∧ p.1 < i + vs.length := by
  induction vs generalizing i with
  | nil => simp [Store.ofListFrom] at h
  | cons v vs ih =>
    rcases List.mem_cons.mp h with rfl | h
    · simp
    · have := ih h
      simp only [List.length_cons]; omega

theorem Store.wf_ofListFrom {n : Nat} (vs : List α) (i : Nat) (h : i + vs.length ≤ n) :
    Store.wf n (Store.ofListFrom i vs) := by
  refine ⟨?_, fun p hp => lt_of_lt_of_le (Store.mem_ofListFrom hp).2 h⟩
  clear h
  induction vs generalizing i with
  | nil => simp [Store.ofListFrom]
  | cons v vs ih =>
    refine List.pairwise_cons.mpr ⟨fun b hb => ?_, ih (i + 1)⟩
    have := (Store.mem_ofListFrom hb).1
    change i < b.1; omega

end Sys2Proof.Machine
end

