-- ==== Sys2Proof/Laws/Queue.lean ====
section
/-! SUPPORT. Laws of the priority queue (R141 to R147): the key order is an order of naturals, both sift loops only
permute the array and restore R142's invariant, and PQ_POP takes the least key. -/

namespace Sys2Proof.Machine

open Sys2Proof

/-- The key `(weight, seq)` as one natural: `seq` has 9 bits. -/
def keyNat (e : HeapEntry) : Nat := e.weight.toNat * 512 + e.seq.toNat

theorem keyLt_iff (a b : HeapEntry) : keyLt a b = true ↔ keyNat a < keyNat b := by
  have ha := a.seq.isLt
  have hb := b.seq.isLt
  simp only [keyLt, keyNat, decide_eq_true_eq, BitVec.lt_def, ← BitVec.toNat_inj]
  have := Config.widths
  omega

theorem keyNat_ne {a b : HeapEntry} (h : a.seq ≠ b.seq) : keyNat a ≠ keyNat b := by
  have ha := a.seq.isLt
  have hb := b.seq.isLt
  have : a.seq.toNat ≠ b.seq.toNat := fun e => h (BitVec.eq_of_toNat_eq e)
  simp only [keyNat]; have := Config.widths; omega

/-- The key at index `i` of an array. -/
def keyAt (h : List HeapEntry) (i : Nat) : Nat := (h[i]?.map keyNat).getD 0

theorem keyAt_eq {h : List HeapEntry} {i : Nat} (hi : i < h.length) : keyAt h i = keyNat h[i] := by
  simp [keyAt, hi]

theorem heapLt_iff {h : List HeapEntry} {i j : Nat} (hi : i < h.length) (hj : j < h.length) :
    heapLt h i j = true ↔ keyAt h i < keyAt h j := by
  simp [heapLt, hi, hj, keyLt_iff, keyAt_eq]

@[simp] theorem heapSwap_length (h : List HeapEntry) (i j : Nat) : (heapSwap h i j).length = h.length := by
  unfold heapSwap; split <;> simp

theorem heapSwap_perm (h : List HeapEntry) (i j : Nat) : (heapSwap h i j).Perm h := by
  unfold heapSwap
  split
  · rename_i a b hi hj
    obtain ⟨hi', rfl⟩ := List.getElem?_eq_some_iff.mp hi
    obtain ⟨hj', rfl⟩ := List.getElem?_eq_some_iff.mp hj
    exact List.set_set_perm hi' hj'
  · exact List.Perm.refl _

theorem keyAt_heapSwap {h : List HeapEntry} {i j : Nat} (hi : i < h.length) (hj : j < h.length) (m : Nat) :
    keyAt (heapSwap h i j) m = if m = j then keyAt h i else if m = i then keyAt h j else keyAt h m := by
  simp only [heapSwap, List.getElem?_eq_getElem hi, List.getElem?_eq_getElem hj, keyAt, List.getElem?_set,
    List.length_set]
  by_cases h1 : m = j
  · subst h1; simp [hj]
  · by_cases h2 : m = i
    · subst h2; simp [h1, Ne.symm h1, hi]
    · simp [h1, h2, Ne.symm h1, Ne.symm h2]

@[simp] theorem siftUp_length (n i : Nat) (h : List HeapEntry) : (siftUp n i h).length = h.length := by
  induction n generalizing i h with
  | zero => rfl
  | succ n ih => simp only [siftUp]; split <;> [rfl; (split <;> simp [ih])]

theorem siftUp_perm (n i : Nat) (h : List HeapEntry) : (siftUp n i h).Perm h := by
  induction n generalizing i h with
  | zero => exact List.Perm.refl _
  | succ n ih =>
    simp only [siftUp]
    split
    · exact List.Perm.refl _
    · split
      · exact (ih _ _).trans (heapSwap_perm _ _ _)
      · exact List.Perm.refl _

theorem siftDown_perm (n i : Nat) (h : List HeapEntry) : (siftDown n i h).Perm h := by
  induction n generalizing i h with
  | zero => exact List.Perm.refl _
  | succ n ih =>
    simp only [siftDown]
    split
    · exact List.Perm.refl _
    · split
      · exact (ih _ _).trans (heapSwap_perm _ _ _)
      · exact List.Perm.refl _

/-- R142's invariant on the keys of an array. -/
def HeapOrdered (h : List HeapEntry) : Prop := ∀ j, 0 < j → j < h.length → keyAt h ((j - 1) / 2) < keyAt h j

/-- No two indices hold equal keys (R141). -/
def KeysDistinct (h : List HeapEntry) : Prop :=
  ∀ i j, i < h.length → j < h.length → i ≠ j → keyAt h i ≠ keyAt h j

theorem keysDistinct_of_nodup {h : List HeapEntry} (hd : (h.map HeapEntry.seq).Nodup) : KeysDistinct h := by
  intro i j hi hj hij
  rw [keyAt_eq hi, keyAt_eq hj]
  refine keyNat_ne fun e => hij ?_
  have := (List.Nodup.getElem_inj_iff hd (i := i) (j := j) (hi := by simpa using hi) (hj := by simpa using hj)).mp
    (by simpa using e)
  exact this

theorem KeysDistinct.swap {h : List HeapEntry} (hd : KeysDistinct h) {i j : Nat} (hi : i < h.length)
    (hj : j < h.length) : KeysDistinct (heapSwap h i j) := by
  intro a b ha hb hab
  rw [heapSwap_length] at ha hb
  rw [keyAt_heapSwap hi hj, keyAt_heapSwap hi hj]
  split_ifs <;> first | omega | (apply hd <;> omega)

/-- The sift-up loop restores the invariant when only index `i` may be too small (R144, R147). -/
theorem siftUp_ordered (n i : Nat) (h : List HeapEntry) (hi : i < h.length) (hn : i < n) (hd : KeysDistinct h)
    (h1 : ∀ j, 0 < j → j < h.length → j ≠ i → keyAt h ((j - 1) / 2) < keyAt h j)
    (h2 : ∀ c, 0 < c → c < h.length → (c - 1) / 2 = i → 0 < i → keyAt h ((i - 1) / 2) < keyAt h c) :
    HeapOrdered (siftUp n i h) := by
  induction n generalizing i h with
  | zero => omega
  | succ n ih =>
    simp only [siftUp]
    split
    · subst_vars; exact fun j hj hl => h1 j hj hl (by omega)
    · rename_i hi0
      have hp : (i - 1) / 2 < h.length := by omega
      split
      · rename_i hlt
        rw [heapLt_iff hi hp] at hlt
        refine ih _ _ (by simpa using hp) (by omega) (hd.swap hi hp) ?_ ?_
        · intro j hj hl hjp
          rw [heapSwap_length] at hl
          rw [keyAt_heapSwap hi hp, keyAt_heapSwap hi hp]
          by_cases hji : j = i
          · subst hji; simp [hjp, hlt]
          · have hj1 := h1 j hj hl hji
            by_cases a : (j - 1) / 2 = (i - 1) / 2
            · rw [a] at hj1; simp [a, hjp, hji]; omega
            · by_cases b : (j - 1) / 2 = i
              · have := h2 j hj hl b (by omega)
                simp [b, hjp, hji, show i ≠ (i - 1) / 2 by omega]; exact this
              · simp [a, b, hjp, hji]; exact hj1
        · intro c hc hl hcp hp0
          rw [heapSwap_length] at hl
          rw [keyAt_heapSwap hi hp, keyAt_heapSwap hi hp]
          have hpp := h1 ((i - 1) / 2) hp0 hp (by omega)
          have e1 : ((i - 1) / 2 - 1) / 2 ≠ (i - 1) / 2 := by omega
          have e2 : ((i - 1) / 2 - 1) / 2 ≠ i := by omega
          have e3 : c ≠ (i - 1) / 2 := by omega
          by_cases hci : c = i
          · subst hci; simp [e1, e2, e3]; exact hpp
          · have := h1 c hc hl hci
            rw [hcp] at this
            simp [e1, e2, e3, hci]; omega
      · rename_i hlt
        rw [heapLt_iff hi hp] at hlt
        intro j hj hl
        by_cases hji : j = i
        · subst hji
          have := hd _ _ hi hp (by omega)
          omega
        · exact h1 j hj hl hji

theorem smallerChild_spec {h : List HeapEntry} {i : Nat} (hi : 2 * i + 1 < h.length) (hd : KeysDistinct h) :
    (smallerChild h i = 2 * i + 1 ∨ smallerChild h i = 2 * i + 2) ∧ smallerChild h i < h.length ∧
    ∀ c, 0 < c → c < h.length → (c - 1) / 2 = i → c ≠ smallerChild h i → keyAt h (smallerChild h i) < keyAt h c := by
  unfold smallerChild
  by_cases hr : 2 * i + 2 < h.length
  · by_cases hlt : heapLt h (2 * i + 2) (2 * i + 1) = true
    · rw [if_pos ⟨hr, hlt⟩]
      rw [heapLt_iff hr hi] at hlt
      refine ⟨.inr rfl, hr, fun c hc hl hp hne => ?_⟩
      obtain rfl : c = 2 * i + 1 := by omega
      exact hlt
    · rw [if_neg (fun x => hlt x.2)]
      rw [heapLt_iff hr hi] at hlt
      refine ⟨.inl rfl, hi, fun c hc hl hp hne => ?_⟩
      obtain rfl : c = 2 * i + 2 := by omega
      have := hd _ _ hr hi (by omega)
      omega
  · rw [if_neg (fun x => hr x.1)]
    exact ⟨.inl rfl, hi, fun c hc hl hp hne => by omega⟩

/-- The sift-down loop restores the invariant when only index `i` may be too large (R145, R147). -/
theorem siftDown_ordered (n i : Nat) (h : List HeapEntry) (hn : h.length ≤ n + i) (hd : KeysDistinct h)
    (h1 : ∀ j, 0 < j → j < h.length → (j - 1) / 2 ≠ i → keyAt h ((j - 1) / 2) < keyAt h j)
    (h2 : ∀ c, 0 < c → c < h.length → (c - 1) / 2 = i → 0 < i → keyAt h ((i - 1) / 2) < keyAt h c) :
    HeapOrdered (siftDown n i h) := by
  induction n generalizing i h with
  | zero => exact fun j hj hl => h1 j hj hl (by simp only [siftDown] at hl; omega)
  | succ n ih =>
    simp only [siftDown]
    split
    · exact fun j hj hl => h1 j hj hl (by omega)
    · rename_i hl1
      obtain ⟨hc, hcl, hmin⟩ := smallerChild_spec (by omega : 2 * i + 1 < h.length) hd
      generalize smallerChild h i = c at hc hcl hmin
      have hi : i < h.length := by omega
      have hcp : (c - 1) / 2 = i := by omega
      split
      · rename_i hlt
        rw [heapLt_iff hcl hi] at hlt
        refine ih _ _ (by simp; omega) (hd.swap hi hcl) ?_ ?_
        · intro j hj hl hjc
          rw [heapSwap_length] at hl
          rw [keyAt_heapSwap hi hcl, keyAt_heapSwap hi hcl]
          by_cases hp : (j - 1) / 2 = i
          · by_cases hjc2 : j = c
            · subst hjc2; simp [hp, show i ≠ j by omega, hlt]
            · have := hmin j hj hl hp hjc2
              simp [hp, hjc2, show i ≠ c by omega, show j ≠ i by omega, this]
          · have hj1 := h1 j hj hl hp
            by_cases hji : j = i
            · subst hji
              have := h2 c (by omega) hcl hcp hj
              simp [hjc, hp, show j ≠ c by omega, this]
            · simp [hjc, hp, hji, show j ≠ c by (rintro rfl; exact hp hcp), hj1]
        · intro d hd0 hl hdc hc0
          rw [heapSwap_length] at hl
          rw [keyAt_heapSwap hi hcl, keyAt_heapSwap hi hcl]
          have := h1 d hd0 hl (by omega)
          rw [hdc] at this
          simp [hcp, show i ≠ c by omega, show d ≠ c by omega, show d ≠ i by omega, this]
      · rename_i hlt
        rw [heapLt_iff hcl hi] at hlt
        have hic : keyAt h i < keyAt h c := by
          have := hd _ _ hcl hi (by omega)
          omega
        intro j hj hl
        by_cases hp : (j - 1) / 2 = i
        · by_cases hjc : j = c
          · subst hjc; rw [hp]; exact hic
          · rw [hp]; exact lt_trans hic (hmin j hj hl hp hjc)
        · exact h1 j hj hl hp

/-- The root holds the least key (R142). -/
theorem HeapOrdered.root_le {h : List HeapEntry} (ho : HeapOrdered h) (j : Nat) (hj : j < h.length) :
    keyAt h 0 ≤ keyAt h j := by
  induction j using Nat.strong_induction_on with
  | _ j ih =>
    by_cases h0 : j = 0
    · subst h0; exact le_refl _
    · have := ih ((j - 1) / 2) (by omega) (by omega)
      have := ho j (by omega) hj
      omega

theorem queueOk_ordered {s : State} (h : QueueOk s) : HeapOrdered s.heap := by
  intro j hj hl
  exact (heapLt_iff (by omega) hl).mp (h.parent j hl hj)

theorem parent_of_ordered {h : List HeapEntry} (ho : HeapOrdered h) (i : Nat) (hi : i < h.length) (h0 : 0 < i) :
    heapLt h ((i - 1) / 2) i = true :=
  (heapLt_iff (by omega) hi).mpr (ho i h0 hi)

/-- The array after PQ_POP holds the entries but the root's (R145, R147). -/
theorem heapAfterPop_perm (r : HeapEntry) (tl : List HeapEntry) : (heapAfterPop (r :: tl)).Perm tl := by
  cases tl using List.reverseRecOn with
  | nil => simp [heapAfterPop]
  | append_singleton mid last =>
    have e1 : (r :: (mid ++ [last])).dropLast = r :: mid := by
      rw [← List.cons_append, List.dropLast_concat]
    have e2 : (r :: (mid ++ [last])).getLast? = some last := by
      rw [← List.cons_append, List.getLast?_concat]
    unfold heapAfterPop
    rw [e1, e2]
    exact (siftDown_perm _ _ _).trans (List.perm_append_singleton last mid).symm

theorem heapAfterPop_ordered (r : HeapEntry) (tl : List HeapEntry) (ho : HeapOrdered (r :: tl))
    (hd : ((r :: tl).map HeapEntry.seq).Nodup) : HeapOrdered (heapAfterPop (r :: tl)) := by
  cases tl using List.reverseRecOn with
  | nil => intro j _ hl; simp [heapAfterPop] at hl
  | append_singleton mid last =>
    have e1 : (r :: (mid ++ [last])).dropLast = r :: mid := by
      rw [← List.cons_append, List.dropLast_concat]
    have e2 : (r :: (mid ++ [last])).getLast? = some last := by
      rw [← List.cons_append, List.getLast?_concat]
    unfold heapAfterPop
    rw [e1, e2]
    have hnd : ((last :: mid).map HeapEntry.seq).Nodup := by
      have : ((mid ++ [last]).map HeapEntry.seq).Nodup := (List.nodup_cons.mp hd).2
      exact ((List.perm_append_singleton last mid).map _).nodup_iff.mp this
    have hk : ∀ j, 0 < j → j < mid.length + 1 → keyAt (last :: mid) j = keyAt (r :: (mid ++ [last])) j := by
      intro j hj hl
      obtain ⟨j, rfl⟩ : ∃ m, j = m + 1 := ⟨j - 1, by omega⟩
      have : j < mid.length := by omega
      simp [keyAt, this, List.getElem?_append_left]
    refine siftDown_ordered _ 0 _ (by simp) (keysDistinct_of_nodup hnd) ?_ (by omega)
    intro j hj hl hp
    simp only [List.length_cons] at hl
    rw [hk j hj hl, hk ((j - 1) / 2) (by omega) (by omega)]
    exact ho j hj (by simp; omega)

/-- Everything PQ_PUSH can do (R144, R147). -/
theorem pqPush_cases (item : Idx) (weight : Weight) (s : State) :
    ((Config.heapDepth ≤ s.heap.length ∨ s.seq = BitVec.allOnes _) ∧ pqPush item weight s = (s, .fail .capacity)) ∨
    (s.heap.length < Config.heapDepth ∧ s.seq ≠ BitVec.allOnes _ ∧
      ∃ h, h.Perm ({ item := item, weight := weight, seq := s.seq } :: s.heap) ∧
        pqPush item weight s = ({ s with heap := h, seq := s.seq + 1#_ }, .ok)) := by
  unfold pqPush
  split
  · rename_i hf; exact .inl ⟨hf, rfl⟩
  · rename_i hf
    rw [not_or] at hf
    exact .inr ⟨by omega, hf.2, _, (siftUp_perm _ _ _).trans (List.perm_append_singleton _ _), rfl⟩

theorem seq_succ_toNat {x : Idx} (h : x ≠ BitVec.allOnes _) : (x + 1#_).toNat = x.toNat + 1 := by
  have : x.toNat ≠ 511 := fun e => h (BitVec.eq_of_toNat_eq (by simpa using e))
  have := x.isLt
  simp; have := Config.widths; omega

/-- PQ_PUSH keeps the queue's invariant (R142, R147). -/
theorem pqPush_queueOk {s : State} (item : Idx) (weight : Weight) (h : QueueOk s) :
    QueueOk (pqPush item weight s).1 := by
  unfold pqPush
  split
  · exact h
  · rename_i hf
    rw [not_or] at hf
    have hlt := seq_succ_toNat hf.2
    have hperm := siftUp_perm (s.heap.length + 1) s.heap.length
      (s.heap ++ [{ item := item, weight := weight, seq := s.seq }])
    have hnd : ((s.heap ++ [({ item := item, weight := weight, seq := s.seq } : HeapEntry)]).map
        HeapEntry.seq).Nodup := by
      rw [List.map_append, List.nodup_append]
      refine ⟨h.distinct, by simp, ?_⟩
      intro a ha b hb hab
      simp only [List.map_cons, List.map_nil, List.mem_singleton] at hb
      subst hb; subst hab
      obtain ⟨e, he, hes⟩ := List.mem_map.mp ha
      have := h.stamped e he
      rw [hes] at this
      exact absurd this (by simp)
    refine ⟨?_, ?_, ?_, ?_⟩
    · simp only [siftUp_length, List.length_append, List.length_cons, List.length_nil]; omega
    · intro i hi h0
      refine parent_of_ordered (siftUp_ordered _ _ _ (by simp) (Nat.lt_succ_self _) (keysDistinct_of_nodup hnd) ?_ ?_)
        i hi h0
      · intro j hj hl hne
        simp only [List.length_append, List.length_cons, List.length_nil] at hl
        have hjl : j < s.heap.length := by omega
        have hpl : (j - 1) / 2 < s.heap.length := by omega
        have := queueOk_ordered h j hj hjl
        simpa [keyAt, List.getElem?_append_left, hjl, hpl] using this
      · intro c hc hl hp _
        simp only [List.length_append, List.length_cons, List.length_nil] at hl
        omega
    · intro e he
      rcases List.mem_append.mp (hperm.mem_iff.mp he) with he | he
      · have := h.stamped e he
        simp only [BitVec.lt_def] at this ⊢
        change _ < (s.seq + 1#_).toNat
        omega
      · simp only [List.mem_singleton] at he
        subst he
        simp only [BitVec.lt_def]
        omega
    · exact (hperm.map _).nodup_iff.mpr hnd

/-- PQ_POP on a queue that is not empty takes the entry with the least key, leaves the others, and keeps the invariant
(R145, R147). -/
theorem pqPop_spec {s : State} (h : QueueOk s) (hne : s.heap ≠ []) :
    ∃ e tl, s.heap = e :: tl ∧ pqPop s = ({ s with heap := heapAfterPop s.heap }, some e) ∧
      (heapAfterPop s.heap).Perm tl ∧ (∀ e' ∈ tl, keyLt e e' = true) ∧ QueueOk { s with heap := heapAfterPop s.heap } := by
  obtain ⟨size, parent, stamped, distinct⟩ := h
  have ho : HeapOrdered s.heap := fun j hj hl => (heapLt_iff (by omega) hl).mp (parent j hl hj)
  cases hh : s.heap with
  | nil => exact absurd hh hne
  | cons e tl =>
    rw [hh] at size stamped distinct ho
    have hp := heapAfterPop_perm e tl
    refine ⟨e, tl, rfl, by simp [pqPop, hh], hp, ?_, ?_, ?_, ?_, ?_⟩
    · intro e' he'
      obtain ⟨i, hi, rfl⟩ := List.mem_iff_getElem.mp he'
      rw [keyLt_iff]
      have h1 := ho.root_le (i + 1) (by simpa using hi)
      have h2 := keysDistinct_of_nodup distinct 0 (i + 1) (by simp) (by simpa using hi) (by omega)
      rw [keyAt_eq (by simp), keyAt_eq (by simpa using hi)] at h1 h2
      simp only [List.getElem_cons_zero, List.getElem_cons_succ] at h1 h2
      omega
    · change (heapAfterPop (e :: tl)).length ≤ _
      rw [hp.length_eq]
      simp only [List.length_cons] at size
      omega
    · exact parent_of_ordered (heapAfterPop_ordered e tl ho distinct)
    · intro e' he'
      exact stamped e' (List.mem_cons_of_mem _ (hp.mem_iff.mp he'))
    · exact (hp.map _).nodup_iff.mpr (List.nodup_cons.mp distinct).2

theorem QueueOk.congr {s t : State} (hh : t.heap = s.heap) (hs : t.seq = s.seq) (h : QueueOk s) : QueueOk t := by
  obtain ⟨a, b, c, d⟩ := h
  exact ⟨by rw [hh]; exact a, by rw [hh]; exact b, by rw [hh, hs]; exact c, by rw [hh]; exact d⟩

theorem pqClear_queueOk (s : State) : QueueOk (pqClear s) :=
  ⟨by simp [pqClear], by simp [pqClear], by simp [pqClear], by simp [pqClear]⟩

end Sys2Proof.Machine
end

