-- ==== Sys2Proof/Laws/TreeBuilder.lean ====
section
/-! SUPPORT. Laws of TB_BUILD (R171 to R179): it always succeeds on a mapping that is not empty, and what it builds is
the well-formed tree of R40. -/

namespace Sys2Proof.Machine

open Sys2Proof

@[simp] theorem childIndices_append (a b : List Node) : childIndices (a ++ b) = childIndices a ++ childIndices b := by
  simp [childIndices]

theorem childIndices_leaf {n : Node} (h : n.leaf = true) : childIndices [n] = [] := by simp [childIndices, h]

theorem childIndices_node {n : Node} (h : n.leaf = false) : childIndices [n] = [n.left.toNat, n.right.toNat] := by
  simp [childIndices, h]

/-- Adding a node where there is room (R171). -/
theorem addNode_spec {s : State} (nd : Node) (hq : QueueOk s) (hroom : s.heap.length < Config.heapDepth)
    (hseq : s.seq ≠ BitVec.allOnes _) :
    ∃ h', h'.Perm ({ item := s.k, weight := nd.weight, seq := s.seq } :: s.heap) ∧
      addNode nd s = ({ s with node := s.node ++ [nd], heap := h', seq := s.seq + 1#_, k := s.k + 1#_ }, .ok) ∧
      QueueOk { s with node := s.node ++ [nd], heap := h', seq := s.seq + 1#_, k := s.k + 1#_ } := by
  have hq' : QueueOk (s.pushNode nd) := QueueOk.congr (s := s) rfl rfl hq
  have hok := pqPush_queueOk s.k nd.weight hq'
  rcases pqPush_cases s.k nd.weight (s.pushNode nd) with ⟨hf, -⟩ | ⟨-, -, h', hp, he⟩
  · rcases hf with hf | hf
    · exact absurd hf (by simp only [State.pushNode]; omega)
    · exact absurd hf hseq
  · rw [he] at hok
    refine ⟨h', hp, ?_, QueueOk.congr (s := { s.pushNode nd with heap := h', seq := s.seq + 1#_ }) rfl rfl hok⟩
    unfold addNode
    rw [he]
    rfl

/-- The forest of TB_BUILD at work: N leaves have been made, `heap` holds the roots, of total weight `w`. -/
structure Forest (n w : Nat) (s : State) : Prop where
  queue : QueueOk s
  kLen : s.k.toNat = s.node.length
  seqLen : s.seq.toNat = s.node.length
  size : s.heap.length + s.node.length = 2 * n
  count_le : n ≤ Config.alphabet
  made : n ≤ s.node.length
  itemSeq : ∀ e ∈ s.heap, e.item = e.seq
  weights : ∀ e ∈ s.heap, (s.nodeAt e.item).weight = e.weight
  leaves : ∀ k (h : k < s.node.length), s.node[k].leaf = decide (k < n)
  children : ∀ k (h : k < s.node.length), s.node[k].leaf = false →
    s.node[k].left.toNat < k ∧ s.node[k].right.toNat < k ∧ s.node[k].left ≠ s.node[k].right
  sums : ∀ k (h : k < s.node.length), s.node[k].leaf = false →
    s.node[k].weight.toNat = (s.nodeAt s.node[k].left).weight.toNat + (s.nodeAt s.node[k].right).weight.toNat
  positive : ∀ k (h : k < s.node.length), s.node[k].leaf = true → 1 ≤ s.node[k].weight.toNat
  opened : ∀ e ∈ s.heap, (childIndices s.node).count e.item.toNat = 0
  closed : ∀ j, j < s.node.length → (∀ e ∈ s.heap, e.item.toNat ≠ j) → (childIndices s.node).count j = 1
  total : (s.heap.map (fun e => e.weight.toNat)).sum = w
  bound : w < 2 ^ 40

theorem nodeAt_eq {s : State} {k : Idx} (h : k.toNat < s.node.length) : s.nodeAt k = s.node[k.toNat] := by
  simp [State.nodeAt, h]

theorem nodeAt_append {s : State} {k : Idx} (l : List Node) (f : Nat) (h : k.toNat < s.node.length) :
    ((s.node ++ l)[k.toNat]?).getD (Config.freeNode f k.toNat) = s.nodeAt k := by
  simp [State.nodeAt, List.getElem?_append_left h, h]

theorem Forest.item_lt {n w : Nat} {s : State} (h : Forest n w s) {e : HeapEntry} (he : e ∈ s.heap) :
    e.item.toNat < s.node.length := by
  have := h.queue.stamped e he
  rw [BitVec.lt_def, h.seqLen] at this
  rw [h.itemSeq e he]; exact this

theorem Forest.child_lt {n w : Nat} {s : State} (h : Forest n w s) {j : Nat} (hj : j ∈ childIndices s.node) :
    j + 1 < s.node.length := by
  simp only [childIndices, List.mem_flatMap] at hj
  obtain ⟨nd, hnd, hj⟩ := hj
  obtain ⟨k, hk, rfl⟩ := List.mem_iff_getElem.mp hnd
  by_cases hl : s.node[k].leaf = true
  · simp [hl] at hj
  · have := h.children k hk (by simpa using hl)
    simp only [hl, Bool.false_eq_true, if_false, List.mem_cons, List.not_mem_nil, or_false] at hj
    omega

theorem sum_perm {h h' : List HeapEntry} (p : h'.Perm h) :
    (h'.map (fun e => e.weight.toNat)).sum = (h.map (fun e => e.weight.toNat)).sum := (p.map _).sum_eq

/-- One more leaf. -/
theorem Forest.addLeaf {n w : Nat} {s : State} (h : Forest n w s) (hn : s.node.length = n) (hlt : n < Config.alphabet)
    (x : Sym) (c : Count) (hc : c ≠ 0#_) (hb : w + c.toNat < 2 ^ 40) :
    ∃ t, addNode (leafNode x c) s = (t, .ok) ∧ Forest (n + 1) (w + c.toNat) t ∧ t.node = s.node ++ [leafNode x c] ∧
      t = { s with node := t.node, heap := t.heap, seq := t.seq, k := t.k } := by
  have hA : Config.alphabet = 256 := rfl
  have hD : Config.heapDepth = 256 := rfl
  have hsize := h.size
  have hseq : s.seq ≠ BitVec.allOnes _ := by
    intro e
    have := h.seqLen
    rw [e] at this
    simp at this; omega
  obtain ⟨h', hp, he, hq⟩ := addNode_spec (leafNode x c) h.queue (by omega) hseq
  have hw : (leafNode x c).weight.toNat = c.toNat := by
    have := c.isLt
    simp [leafNode]; omega
  have hmem : ∀ e, e ∈ h' ↔ e = { item := s.k, weight := (leafNode x c).weight, seq := s.seq } ∨ e ∈ s.heap := by
    intro e; rw [hp.mem_iff, List.mem_cons]
  have hkseq : s.k = s.seq := BitVec.eq_of_toNat_eq (by rw [h.kLen, h.seqLen])
  have hk1 : (s.k + 1#_).toNat = s.k.toNat + 1 := seq_succ_toNat (hkseq ▸ hseq)
  have hleaf : (leafNode x c).leaf = true := rfl
  refine ⟨_, he, ⟨hq, ?_, ?_, ?_, by omega, by simp; omega, ?_, ?_, ?_, ?_, ?_, ?_, ?_, ?_, ?_, hb⟩, rfl, rfl⟩
  · simp [hk1, h.kLen]
  · simp only [List.length_append, List.length_cons, List.length_nil]
    rw [seq_succ_toNat hseq, h.seqLen]
  · have := hp.length_eq
    simp only [List.length_append, List.length_cons, List.length_nil] at this ⊢
    omega
  · intro e hm
    rcases (hmem e).mp hm with rfl | hm
    · exact hkseq
    · exact h.itemSeq e hm
  · intro e hm
    rcases (hmem e).mp hm with rfl | hm
    · simp [State.nodeAt, h.kLen]
    · rw [← h.weights e hm]
      exact congrArg Node.weight (nodeAt_append _ _ (h.item_lt hm))
  · intro k hk
    simp only [List.length_append, List.length_cons, List.length_nil] at hk
    by_cases hk' : k < s.node.length
    · simp only [List.getElem_append_left hk', h.leaves k hk']
      simp; omega
    · obtain rfl : k = s.node.length := by omega
      simp [hleaf]; omega
  · intro k hk hl
    simp only [List.length_append, List.length_cons, List.length_nil] at hk
    by_cases hk' : k < s.node.length
    · simp only [List.getElem_append_left hk'] at hl ⊢
      exact h.children k hk' hl
    · obtain rfl : k = s.node.length := by omega
      simp [hleaf] at hl
  · intro k hk hl
    simp only [List.length_append, List.length_cons, List.length_nil] at hk
    by_cases hk' : k < s.node.length
    · simp only [List.getElem_append_left hk'] at hl ⊢
      have hch := h.children k hk' hl
      rw [h.sums k hk' hl]
      congr 1
      · exact congrArg (fun m => Node.weight m |>.toNat) (nodeAt_append _ _ (by omega)).symm
      · exact congrArg (fun m => Node.weight m |>.toNat) (nodeAt_append _ _ (by omega)).symm
    · obtain rfl : k = s.node.length := by omega
      simp [hleaf] at hl
  · intro k hk hl
    simp only [List.length_append, List.length_cons, List.length_nil] at hk
    by_cases hk' : k < s.node.length
    · simp only [List.getElem_append_left hk'] at hl ⊢
      exact h.positive k hk' hl
    · obtain rfl : k = s.node.length := by omega
      simp only [List.getElem_concat_length, hw]
      have : c.toNat ≠ 0 := fun e => hc (BitVec.eq_of_toNat_eq (by simpa using e))
      omega
  · intro e hm
    simp only [childIndices_append, childIndices_leaf hleaf, List.append_nil]
    rcases (hmem e).mp hm with rfl | hm
    · rw [List.count_eq_zero]
      intro hj
      have := h.child_lt hj
      simp only [h.kLen] at this; omega
    · exact h.opened e hm
  · intro j hj hno
    simp only [childIndices_append, childIndices_leaf hleaf, List.append_nil]
    simp only [List.length_append, List.length_cons, List.length_nil] at hj
    have h0 := hno _ ((hmem _).mpr (.inl rfl))
    simp only [h.kLen] at h0
    exact h.closed j (by omega) (fun e he => hno e ((hmem e).mpr (.inr he)))
  · have := sum_perm hp
    simp only [List.map_cons, List.sum_cons, h.total, hw] at this
    change (h'.map _).sum = _
    omega

/-- One merge: the two least roots become the children of a new node (R171, R173). -/
theorem Forest.merge {n w : Nat} {s u : State} (h : Forest n w s) {a b : HeapEntry} {rest : List HeapEntry}
    (hp : s.heap.Perm (a :: b :: rest)) (hu : u = { s with heap := u.heap }) (hur : u.heap.Perm rest)
    (hq : QueueOk u) :
    ∃ t, addNode (mergeNode a b) u = (t, .ok) ∧ Forest n w t ∧ t.node = s.node ++ [mergeNode a b] ∧
      t.heap.length + 1 = s.heap.length ∧
      t = { s with node := t.node, heap := t.heap, seq := t.seq, k := t.k } := by
  obtain ⟨uheap, rfl⟩ : ∃ g, u = { s with heap := g } := ⟨_, hu⟩
  change uheap.Perm rest at hur
  have hA : Config.alphabet = 256 := rfl
  have hD : Config.heapDepth = 256 := rfl
  have hsize := h.size
  have hlen := hp.length_eq
  have hlen' := hur.length_eq
  have hcl := h.count_le
  simp only [List.length_cons] at hlen
  have hseq : s.seq ≠ BitVec.allOnes _ := by
    intro e
    have := h.seqLen
    rw [e] at this
    simp at this; omega
  obtain ⟨h', hp', he, hq'⟩ := addNode_spec (mergeNode a b) hq
    (by change uheap.length < _; have := h.queue.size; omega) hseq
  have ha : a ∈ s.heap := hp.mem_iff.mpr (by simp)
  have hb : b ∈ s.heap := hp.mem_iff.mpr (by simp)
  have hrest : ∀ e, e ∈ uheap → e ∈ s.heap := fun e he => hp.mem_iff.mpr (by simp [hur.mem_iff.mp he])
  have hnd : ((a :: b :: rest).map HeapEntry.seq).Nodup := (hp.map _).nodup_iff.mp h.queue.distinct
  simp only [List.map_cons, List.nodup_cons, List.mem_cons, not_or] at hnd
  obtain ⟨⟨hab, har⟩, hbr, -⟩ := hnd
  have hab' : a.item ≠ b.item := by rw [h.itemSeq a ha, h.itemSeq b hb]; exact hab
  have hne : ∀ e ∈ uheap, e.item ≠ a.item ∧ e.item ≠ b.item := by
    intro e he
    have hes := h.itemSeq e (hrest e he)
    refine ⟨fun x => har ?_, fun x => hbr ?_⟩
    · rw [← h.itemSeq a ha, ← x, hes]; exact List.mem_map_of_mem (hur.mem_iff.mp he)
    · rw [← h.itemSeq b hb, ← x, hes]; exact List.mem_map_of_mem (hur.mem_iff.mp he)
  have htot := h.total
  rw [sum_perm hp] at htot
  simp only [List.map_cons, List.sum_cons] at htot
  have hbound := h.bound
  have hw : (mergeNode a b).weight.toNat = a.weight.toNat + b.weight.toNat := by
    simp only [mergeNode, BitVec.toNat_add, Config.two_pow_weightW]; omega
  have hkseq : s.k = s.seq := BitVec.eq_of_toNat_eq (by rw [h.kLen, h.seqLen])
  have hk1 : (s.k + 1#_).toNat = s.k.toNat + 1 := seq_succ_toNat (hkseq ▸ hseq)
  have hmem : ∀ e, e ∈ h' ↔ e = { item := s.k, weight := (mergeNode a b).weight, seq := s.seq } ∨ e ∈ uheap := by
    intro e; rw [hp'.mem_iff, List.mem_cons]
  have hleaf : (mergeNode a b).leaf = false := rfl
  have hai := h.item_lt ha
  have hbi := h.item_lt hb
  have hnl := h.made
  refine ⟨_, he, ⟨hq', ?_, ?_, ?_, hcl, by simp; omega, ?_, ?_, ?_, ?_, ?_, ?_, ?_, ?_, ?_, hbound⟩, rfl, ?_, rfl⟩
  · simp [hk1, h.kLen]
  · simp only [List.length_append, List.length_cons, List.length_nil]
    rw [seq_succ_toNat hseq, h.seqLen]
  · have := hp'.length_eq
    simp only [List.length_append, List.length_cons, List.length_nil] at this ⊢
    omega
  · intro e hm
    rcases (hmem e).mp hm with rfl | hm
    · exact hkseq
    · exact h.itemSeq e (hrest e hm)
  · intro e hm
    rcases (hmem e).mp hm with rfl | hm
    · simp [State.nodeAt, h.kLen]
    · rw [← h.weights e (hrest e hm)]
      exact congrArg Node.weight (nodeAt_append _ _ (h.item_lt (hrest e hm)))
  · intro k hk
    simp only [List.length_append, List.length_cons, List.length_nil] at hk
    by_cases hk' : k < s.node.length
    · simp only [List.getElem_append_left hk', h.leaves k hk']
    · obtain rfl : k = s.node.length := by omega
      simp [hleaf, hnl]
  · intro k hk hl
    simp only [List.length_append, List.length_cons, List.length_nil] at hk
    by_cases hk' : k < s.node.length
    · simp only [List.getElem_append_left hk'] at hl ⊢
      exact h.children k hk' hl
    · obtain rfl : k = s.node.length := by omega
      simp only [List.getElem_concat_length]
      exact ⟨hai, hbi, hab'⟩
  · intro k hk hl
    simp only [List.length_append, List.length_cons, List.length_nil] at hk
    by_cases hk' : k < s.node.length
    · simp only [List.getElem_append_left hk'] at hl ⊢
      have hch := h.children k hk' hl
      rw [h.sums k hk' hl]
      congr 1
      · exact congrArg (fun m => Node.weight m |>.toNat) (nodeAt_append _ _ (by omega)).symm
      · exact congrArg (fun m => Node.weight m |>.toNat) (nodeAt_append _ _ (by omega)).symm
    · obtain rfl : k = s.node.length := by omega
      simp only [List.getElem_concat_length]
      rw [hw, ← h.weights a ha, ← h.weights b hb]
      congr 1
      · exact congrArg (fun m => Node.weight m |>.toNat) (nodeAt_append _ _ hai).symm
      · exact congrArg (fun m => Node.weight m |>.toNat) (nodeAt_append _ _ hbi).symm
  · intro k hk hl
    simp only [List.length_append, List.length_cons, List.length_nil] at hk
    by_cases hk' : k < s.node.length
    · simp only [List.getElem_append_left hk'] at hl ⊢
      exact h.positive k hk' hl
    · obtain rfl : k = s.node.length := by omega
      simp [hleaf] at hl
  · intro e hm
    simp only [childIndices_append, childIndices_node hleaf, List.count_append]
    rcases (hmem e).mp hm with rfl | hm
    · have h0 : (childIndices s.node).count s.node.length = 0 := by
        rw [List.count_eq_zero]
        intro hj
        have := h.child_lt hj
        omega
      simp only [mergeNode, h.kLen]
      rw [h0, Nat.zero_add, List.count_eq_zero]
      simp; omega
    · have := hne e hm
      rw [h.opened e (hrest e hm), List.count_eq_zero.mpr]
      simp only [mergeNode, List.mem_cons, List.not_mem_nil, or_false, BitVec.toNat_inj, not_or]
      exact this
  · intro j hj hno
    simp only [childIndices_append, childIndices_node hleaf, List.count_append]
    simp only [List.length_append, List.length_cons, List.length_nil] at hj
    have h0 := hno _ ((hmem _).mpr (.inl rfl))
    simp only [h.kLen] at h0
    have hab'' : a.item.toNat ≠ b.item.toNat := fun x => hab' (BitVec.eq_of_toNat_eq x)
    by_cases hja : j = a.item.toNat
    · subst hja
      rw [h.opened a ha]
      simp [mergeNode, Ne.symm hab'']
    · by_cases hjb : j = b.item.toNat
      · subst hjb
        rw [h.opened b hb]
        simp [mergeNode, hab'']
      · rw [h.closed j (by omega) ?_, List.count_eq_zero.mpr]
        · simp only [mergeNode, List.mem_cons, List.not_mem_nil, or_false, not_or]
          exact ⟨hja, hjb⟩
        · intro e he
          rcases List.mem_cons.mp (hp.mem_iff.mp he) with rfl | he
          · exact Ne.symm hja
          · rcases List.mem_cons.mp he with rfl | he
            · exact Ne.symm hjb
            · exact hno e ((hmem e).mpr (.inr (hur.mem_iff.mpr he)))
  · have := sum_perm hp'
    simp only [List.map_cons, List.sum_cons, hw] at this
    have h2 := sum_perm hur
    change (h'.map _).sum = _
    omega
  · have := hp'.length_eq
    simp only [List.length_cons] at this
    change h'.length + 1 = _
    omega

/-- The weights of FT's entries for a list of symbols. -/
def countSum (s : State) (xs : List Sym) : Nat := (xs.map (fun x => (s.count x).toNat)).sum

theorem countSum_le (s : State) (xs : List Sym) : countSum s xs ≤ xs.length * (2 ^ 32 - 1) := by
  induction xs with
  | nil => simp [countSum]
  | cons x xs ih =>
    have := (s.count x).isLt
    simp only [countSum, List.map_cons, List.sum_cons, List.length_cons] at ih ⊢
    have := Config.widths
    omega

/-- The symbols of a list that FT records. -/
def recordedIn (s : State) (xs : List Sym) : List Sym := xs.filter (fun x => !(s.count x == 0#_))

theorem countSum_recordedIn (s : State) (xs : List Sym) : countSum s (recordedIn s xs) = countSum s xs := by
  induction xs with
  | nil => rfl
  | cons x xs ih =>
    by_cases hx : s.count x = 0#_
    · simpa [recordedIn, countSum, hx] using ih
    · simpa [recordedIn, countSum, hx] using ih

/-- The leaf loop makes one leaf for each recorded symbol, in order (R171, R172). -/
theorem addLeaves_spec (xs : List Sym) {n w : Nat} {s : State} (h : Forest n w s) (hn : s.node.length = n)
    (hlen : n + (recordedIn s xs).length ≤ Config.alphabet) (hw : w ≤ n * (2 ^ 32 - 1)) :
    ∃ t, addLeaves xs s = (t, .ok) ∧
      Forest (n + (recordedIn s xs).length) (w + countSum s xs) t ∧
      t.node = s.node ++ (recordedIn s xs).map (fun x => leafNode x (s.count x)) ∧
      t = { s with node := t.node, heap := t.heap, seq := t.seq, k := t.k } := by
  induction xs generalizing n w s with
  | nil => exact ⟨s, rfl, by simpa [recordedIn, countSum] using h, by simp [recordedIn], rfl⟩
  | cons x xs ih =>
    have hA : Config.alphabet = 256 := rfl
    by_cases hx : s.count x = 0#_
    · have hr : recordedIn s (x :: xs) = recordedIn s xs := by simp [recordedIn, hx]
      have hs : countSum s (x :: xs) = countSum s xs := by simp [countSum, hx]
      rw [hr] at hlen ⊢
      rw [hs]
      obtain ⟨t, h1, h2⟩ := ih h hn hlen hw
      exact ⟨t, by simp only [addLeaves, hx, if_pos]; exact h1, h2⟩
    · have hr : recordedIn s (x :: xs) = x :: recordedIn s xs := by simp [recordedIn, hx]
      have hs : countSum s (x :: xs) = (s.count x).toNat + countSum s xs := by simp [countSum]
      rw [hr] at hlen ⊢
      rw [hs]
      simp only [List.length_cons] at hlen
      have hc := (s.count x).isLt
      obtain ⟨t, ht, hf, hnode, hframe⟩ := h.addLeaf hn (by omega) x (s.count x) hx (by (have := Config.widths; omega))
      have hcount : ∀ y, t.count y = s.count y := by intro y; rw [hframe]; rfl
      have hrec : recordedIn t xs = recordedIn s xs := by simp [recordedIn, hcount]
      have hsum : countSum t xs = countSum s xs := by simp [countSum, hcount]
      obtain ⟨u, hu, hfu, hnu, hframeu⟩ := ih hf (by rw [hnode]; simp [hn]) (by rw [hrec]; omega) (by (have := Config.widths; omega))
      refine ⟨u, ?_, ?_, ?_, ?_⟩
      · simp only [addLeaves, hx, if_false, ht]; exact hu
      · rw [hrec, hsum] at hfu
        have e1 : n + (x :: recordedIn s xs).length = n + 1 + (recordedIn s xs).length := by
          simp only [List.length_cons]; omega
        rw [e1, ← Nat.add_assoc]
        exact hfu
      · rw [hnu, hnode, hrec]
        simp [hcount]
      · rw [hframeu, hframe]

theorem forest_start (s : State) : Forest 0 0 (startBuild s) := by
  refine ⟨?_, rfl, rfl, rfl, by simp, by simp [startBuild, pqClear], ?_, ?_, ?_, ?_, ?_, ?_, ?_, ?_, rfl, by omega⟩
  · exact QueueOk.congr (s := pqClear s) rfl rfl (pqClear_queueOk s)
  all_goals simp [startBuild, pqClear]

/-- The tree at the end of the merging loop. -/
theorem Forest.root {n w : Nat} {s : State} (h : Forest n w s) {a : HeapEntry} (ha : s.heap = [a]) :
    s.node.length = 2 * n - 1 ∧ 1 ≤ n ∧ a.item.toNat = 2 * n - 2 ∧ a.weight.toNat = w := by
  have hs := h.size
  rw [ha] at hs
  simp only [List.length_cons, List.length_nil] at hs
  have hai := h.item_lt (e := a) (by simp [ha])
  have ht := h.total
  rw [ha] at ht
  refine ⟨by omega, by omega, ?_, by simpa using ht⟩
  by_contra hne
  have := h.closed (s.node.length - 1) (by omega) (by
    intro e he
    rw [ha, List.mem_singleton] at he
    subst he; omega)
  have hpos : s.node.length - 1 ∈ childIndices s.node := by
    rw [← List.count_pos_iff]; omega
  have := h.child_lt hpos
  omega

/-- What the merging loop leaves (R171, R175, R176): it never pops an empty queue, never uses up its bound, and ends
with one root over all the leaves. -/
theorem mergeLoop_spec (f : Nat) {n w : Nat} {s : State} (h : Forest n w s) (h1 : 1 ≤ s.heap.length)
    (hf : s.heap.length ≤ f) :
    ∃ t, mergeLoop f s = .ok (t, .ok) ∧ t.heap = [] ∧ t.root.toNat = 2 * n - 2 ∧
      (∃ a, Forest n w { t with heap := [a] } ∧ a.item = t.root) ∧ s.node <+: t.node ∧
      t = { s with node := t.node, heap := t.heap, seq := t.seq, k := t.k, root := t.root } := by
  induction f generalizing s with
  | zero => omega
  | succ f ih =>
    have hne : s.heap ≠ [] := by intro e; rw [e] at h1; simp at h1
    obtain ⟨a, tl, ha, hpop, hperm, -, hq⟩ := pqPop_spec h.queue hne
    simp only [mergeLoop, hpop, pqIsEmpty, State.queueEmpty]
    cases tl with
    | nil =>
      have hnil : heapAfterPop s.heap = [] := by simpa using hperm
      have hroot := h.root ha
      refine ⟨{ s with heap := heapAfterPop s.heap, root := a.item }, by simp [hnil], hnil, ?_, ⟨a, ?_, rfl⟩,
        List.prefix_rfl, ?_⟩
      · exact hroot.2.2.1
      · have e : ∀ r : Idx, Forest n w { s with heap := [a], root := r } := by
          intro r
          have h' : Forest n w { s with heap := [a] } := by rw [← ha]; exact h
          obtain ⟨b1, b2, b3, b4, b5, b6, b7, b8, b9, b10, b11, b12, b13, b14, b15, b16⟩ := h'
          exact ⟨QueueOk.congr (s := { s with heap := [a] }) rfl rfl b1, b2, b3, b4, b5, b6, b7, b8, b9, b10, b11,
            b12, b13, b14, b15, b16⟩
        exact e a.item
      · rfl
    | cons b rest =>
      have hne2 : heapAfterPop s.heap ≠ [] := by
        intro e
        rw [e] at hperm
        exact absurd hperm.length_eq (by simp)
      have hemp : (heapAfterPop s.heap).isEmpty = false := by simpa using hne2
      simp only [hemp, Bool.false_eq_true, if_false]
      obtain ⟨b', tl', hb', hpop', hperm', -, hq'⟩ := pqPop_spec hq hne2
      simp only [hpop']
      have hp2 : s.heap.Perm (a :: b' :: tl') := by
        rw [ha]
        refine List.Perm.cons a ?_
        change heapAfterPop s.heap = _ at hb'
        rw [← hb']; exact hperm.symm
      obtain ⟨t, ht, hft, hnt, hlt, hframe⟩ := h.merge (u := { s with heap := heapAfterPop (heapAfterPop s.heap) })
        hp2 rfl hperm' hq'
      rw [ht]
      obtain ⟨u, hu, hu1, hu2, hu3, hu4, hu5⟩ := ih hft (by
        have := hp2.length_eq
        simp only [List.length_cons] at this
        omega) (by omega)
      refine ⟨u, hu, hu1, hu2, hu3, ?_, ?_⟩
      · refine List.IsPrefix.trans ?_ hu4
        rw [hnt]; exact List.prefix_append _ _
      · rw [hu5, hframe]

theorem recorded_nodup (s : State) : s.recorded.Nodup := by
  refine List.Nodup.filter _ ?_
  refine List.Nodup.map_on ?_ List.nodup_range
  intro a ha b hb hab
  have ha := List.mem_range.mp ha
  have hb := List.mem_range.mp hb
  have := congrArg BitVec.toNat hab
  simp only [BitVec.toNat_ofNat, Config.two_pow_symW] at this
  change a < 256 at ha
  change b < 256 at hb
  omega

theorem mem_allSymbols (x : Sym) : x ∈ allSymbols := by
  refine List.mem_map.mpr ⟨x.toNat, List.mem_range.mpr x.isLt, by simp⟩

theorem mem_recorded {s : State} {x : Sym} : x ∈ s.recorded ↔ s.count x ≠ 0#_ := by
  simp [State.recorded, mem_allSymbols]

theorem recorded_length_le (s : State) : s.recorded.length ≤ Config.alphabet := by
  refine le_trans (List.length_filter_le _ _) ?_
  simp [allSymbols]

theorem recorded_ascending (s : State) : s.recorded.Pairwise (· < ·) := by
  refine List.Pairwise.filter _ ?_
  unfold allSymbols
  rw [List.pairwise_map]
  refine List.Pairwise.imp_of_mem ?_ (List.pairwise_lt_range)
  intro a b ha hb hab
  have ha := List.mem_range.mp ha
  have hb := List.mem_range.mp hb
  change a < 256 at ha
  change b < 256 at hb
  simp only [BitVec.lt_def, BitVec.toNat_ofNat, Config.two_pow_symW]
  omega

theorem alphabetEmpty_iff (s : State) : s.alphabetEmpty = true ↔ s.recorded = [] := by
  simp [State.alphabetEmpty, State.recorded, List.filter_eq_nil_iff]

/-- Everything TB_BUILD can do: an empty mapping leaves the state alone (R171), any other mapping gives the
well-formed tree over its recorded symbols (R40, R172, R175, R178, R179). -/
theorem tbBuild_spec (s : State) :
    (s.recorded = [] ∧ tbBuild s = .ok (s, .fail .emptyAlphabet)) ∨
    (s.recorded ≠ [] ∧ ∃ t, tbBuild s = .ok (t, .ok) ∧ t.treeValid = true ∧ TreeWf t s.recorded.length ∧
      t.node.take s.recorded.length = s.recorded.map (fun x => leafNode x (s.count x)) ∧
      t.heap = [] ∧ t.seq.toNat = 2 * s.recorded.length - 1 ∧ t.k.toNat = 2 * s.recorded.length - 1 ∧
      (t.nodeAt t.root).weight.toNat = countSum s s.recorded ∧
      t = { s with node := t.node, root := t.root, treeValid := t.treeValid, heap := t.heap, seq := t.seq, k := t.k }) := by
  unfold tbBuild
  by_cases he : s.recorded = []
  · exact .inl ⟨he, by rw [if_pos ((alphabetEmpty_iff s).mpr he)]⟩
  · refine .inr ⟨he, ?_⟩
    rw [if_neg (fun x => he ((alphabetEmpty_iff s).mp x))]
    have hA : Config.alphabet = 256 := rfl
    have hN := recorded_length_le s
    have hNpos : 0 < s.recorded.length := List.length_pos_iff.mpr he
    have hr0 : recordedIn (startBuild s) allSymbols = s.recorded := rfl
    obtain ⟨t, ht, hft, hnt, hframe⟩ := addLeaves_spec allSymbols (forest_start s) rfl
      (by rw [hr0]; omega) (by omega)
    rw [hr0] at hft hnt
    simp only [Nat.zero_add] at hft
    have hnode0 : (startBuild s).node = [] := rfl
    rw [hnode0, List.nil_append] at hnt
    have hcs : countSum (startBuild s) allSymbols = countSum s s.recorded := (countSum_recordedIn s allSymbols).symm
    rw [hcs] at hft
    have hnl : t.node.length = s.recorded.length := by rw [hnt]; simp
    have hsz := hft.size
    obtain ⟨u, hu, hu1, hu2, ⟨a, hfu, ha⟩, hu4, hu5⟩ := mergeLoop_spec (Config.alphabet + 1) hft (by omega) (by omega)
    rw [ht]
    simp only [hu]
    obtain ⟨hlen, -, hroot, hwr⟩ := hfu.root (a := a) rfl
    change u.node.length = _ at hlen
    have htake : u.node.take s.recorded.length = s.recorded.map (fun x => leafNode x (s.count x)) := by
      obtain ⟨r, hr⟩ := hu4
      rw [← hr, ← hnl, List.take_left, hnt]
      rfl
    have hget : ∀ j (hj : j < s.recorded.length), ∃ h2 : j < u.node.length,
        u.node[j] = leafNode s.recorded[j] (s.count s.recorded[j]) := by
      intro j hj
      have h2 : j < u.node.length := by rw [show u.node.length = 2 * s.recorded.length - 1 from hlen]; omega
      refine ⟨h2, ?_⟩
      have : (u.node.take s.recorded.length)[j]? = (s.recorded.map (fun x => leafNode x (s.count x)))[j]? := by
        rw [htake]
      simpa [List.getElem?_take, hj, h2] using this
    refine ⟨_, rfl, rfl, ⟨by omega, hN, hlen, hfu.leaves, ?_, hu2, hfu.children, ?_, hfu.sums, hfu.positive⟩, htake,
      hu1, ?_, ?_, ?_, ?_⟩
    · intro k hk hkn j hj
      obtain ⟨h1, e1⟩ := hget k hkn
      obtain ⟨h2, e2⟩ := hget j (by omega)
      simp only [e1, e2, leafNode]
      exact (List.pairwise_iff_getElem.mp (recorded_ascending s)) j k (by omega) hkn hj
    · intro j hj
      refine hfu.closed j ?_ ?_
      · change j < u.node.length; omega
      · intro e he
        rw [List.mem_singleton] at he
        subst he
        omega
    · exact hfu.seqLen.trans hlen
    · exact hfu.kLen.trans hlen
    · have := hfu.weights a (by simp)
      rw [ha] at this
      rw [← hwr, ← this]
      rfl
    · rw [hu5, hframe]
      rfl

end Sys2Proof.Machine
end

