-- ==== Sys2Proof/Laws/CodeGenerator.lean ====
section
/-! SUPPORT. Laws of CG_GEN (R191 to R199): a well-formed arena is one tree over all its nodes (R40, R42), and the
traversal by PATH, DEPTH and DSTACK assigns every leaf its root path. -/

namespace Sys2Proof.Machine

open Sys2Proof

/-- The number of edges on the longest root path. -/
def Tree.depth : Tree → Nat
  | .leaf _ _ => 0
  | .node _ l r => max l.depth r.depth + 1

/-- The number of nodes. -/
def Tree.size : Tree → Nat
  | .leaf _ _ => 1
  | .node _ l r => l.size + r.size + 1

/-- `Sub s k t m`: node `k` is the root of the abstract tree `t`, whose nodes are `m` in pre-order. -/
inductive Sub (s : State) : Nat → Tree → List Nat → Prop where
  | leaf (k : Nat) (h : k < s.node.length) (hl : s.node[k].leaf = true) :
      Sub s k (.leaf s.node[k].sym s.node[k].weight) [k]
  | node (k : Nat) (h : k < s.node.length) (hl : s.node[k].leaf = false) (tl tr : Tree) (ml mr : List Nat)
      (left : Sub s s.node[k].left.toNat tl ml) (right : Sub s s.node[k].right.toNat tr mr) :
      Sub s k (.node s.node[k].weight tl tr) (k :: (ml ++ mr))

theorem Sub.size {s : State} {k : Nat} {t : Tree} {m : List Nat} (h : Sub s k t m) : t.size = m.length := by
  induction h with
  | leaf => rfl
  | node k h hl tl tr ml mr _ _ il ir => simp [Tree.size, il, ir]

theorem Sub.lt {s : State} {k : Nat} {t : Tree} {m : List Nat} (h : Sub s k t m) : k < s.node.length := by
  cases h <;> assumption

/-- `Sub` is R42's `abs`, for every bound past the depth. -/
theorem Sub.absNode {s : State} {k : Nat} {t : Tree} {m : List Nat} (h : Sub s k t m) (d : Nat) (hd : t.depth < d)
    (i : Idx) (hi : i.toNat = k) : absNode s d i = some t := by
  induction h generalizing d i with
  | leaf k hk hl =>
    obtain ⟨d, rfl⟩ : ∃ e, d = e + 1 := ⟨d - 1, by omega⟩
    subst hi
    have : s.nodeAt i = s.node[i.toNat] := nodeAt_eq hk
    simp [Machine.absNode, this, hl]
  | node k hk hl tl tr ml mr _ _ il ir =>
    obtain ⟨d, rfl⟩ : ∃ e, d = e + 1 := ⟨d - 1, by omega⟩
    subst hi
    simp only [Tree.depth] at hd
    have : s.nodeAt i = s.node[i.toNat] := nodeAt_eq hk
    simp [Machine.absNode, this, hl, il d (by omega) _ rfl, ir d (by omega) _ rfl]

/-- Every node of a well-formed arena roots an abstract tree. -/
theorem TreeWf.sub {s : State} {n : Nat} (h : TreeWf s n) (k : Nat) (hk : k < s.node.length) :
    ∃ t m, Sub s k t m := by
  induction k using Nat.strong_induction_on with
  | _ k ih =>
    by_cases hl : s.node[k].leaf = true
    · exact ⟨_, _, .leaf k hk hl⟩
    · have hl : s.node[k].leaf = false := by simpa using hl
      have hc := h.children k hk hl
      obtain ⟨tl, ml, h1⟩ := ih _ hc.1 (by omega)
      obtain ⟨tr, mr, h2⟩ := ih _ hc.2.1 (by omega)
      exact ⟨_, _, .node k hk hl _ _ _ _ h1 h2⟩

theorem TreeWf.sub_le {s : State} {n : Nat} (h : TreeWf s n) {k : Nat} {t : Tree} {m : List Nat}
    (hs : Sub s k t m) : ∀ j ∈ m, j ≤ k := by
  induction hs with
  | leaf => simp
  | node k hk hl tl tr ml mr _ _ il ir =>
    have hc := h.children k hk hl
    intro j hj
    rcases List.mem_cons.mp hj with rfl | hj
    · exact le_refl _
    · rcases List.mem_append.mp hj with hj | hj
      · have := il j hj; omega
      · have := ir j hj; omega

/-- How often node `p` has node `j` as a child. -/
def childCount (s : State) (j p : Nat) : Nat := (childIndices (s.node[p]?.toList)).count j

theorem childCount_leaf {s : State} {k : Nat} (hk : k < s.node.length) (hl : s.node[k].leaf = true) (j : Nat) :
    childCount s j k = 0 := by
  simp [childCount, hk, childIndices, hl]

theorem childCount_node {s : State} {k : Nat} (hk : k < s.node.length) (hl : s.node[k].leaf = false) (j : Nat) :
    childCount s j k = [s.node[k].left.toNat].count j + [s.node[k].right.toNat].count j := by
  simp only [childCount, List.getElem?_eq_getElem hk, Option.toList_some, childIndices_node hl]
  rw [← List.count_append]; rfl

/-- A node occurs in a tree as its root or below one of the tree's nodes. -/
theorem Sub.count {s : State} {k : Nat} {t : Tree} {m : List Nat} (h : Sub s k t m) (j : Nat) :
    m.count j = [k].count j + (m.map (childCount s j)).sum := by
  induction h with
  | leaf k hk hl => simp [childCount_leaf hk hl]
  | node k hk hl tl tr ml mr _ _ il ir =>
    rw [← List.singleton_append, List.count_append, List.count_append, il, ir]
    simp only [List.map_append, List.map_cons, List.map_nil, List.sum_append, List.sum_cons, List.sum_nil,
      childCount_node hk hl]
    omega

theorem count_childIndices (ns : List Node) (j : Nat) :
    (childIndices ns).count j = (ns.map (fun nd => (childIndices [nd]).count j)).sum := by
  induction ns with
  | nil => rfl
  | cons nd ns ih =>
    rw [← List.singleton_append, childIndices_append, List.count_append, ih]
    simp

theorem sum_eq_one {l : List Nat} (h : l.sum = 1) : ∃ i, ∃ _ : i < l.length, l[i] = 1 ∧
    ∀ j (_ : j < l.length), j ≠ i → l[j] = 0 := by
  induction l with
  | nil => simp at h
  | cons a l ih =>
    rw [List.sum_cons] at h
    by_cases ha : a = 0
    · obtain ⟨i, hi, h1, h2⟩ := ih (by omega)
      refine ⟨i + 1, by simpa using hi, by simpa using h1, fun j hj hne => ?_⟩
      cases j with
      | zero => simpa using ha
      | succ j => simpa using h2 j (by simpa using hj) (by omega)
    · have hs : l.sum = 0 := by omega
      have hz : ∀ x ∈ l, x = 0 := by simpa using (List.sum_eq_zero_iff.mp hs)
      refine ⟨0, by simp, by simp; omega, fun j hj hne => ?_⟩
      obtain ⟨j, rfl⟩ : ∃ i, j = i + 1 := ⟨j - 1, by omega⟩
      simpa using hz _ (List.getElem_mem (by simpa using hj))

/-- R40 (e): every node but the root has one parent. -/
theorem TreeWf.parent {s : State} {n : Nat} (h : TreeWf s n) {j : Nat} (hj : j < 2 * n - 2) :
    ∃ p, j < p ∧ p < s.node.length ∧ ∀ q, q < s.node.length → childCount s j q = if q = p then 1 else 0 := by
  have h1 := h.once j hj
  rw [count_childIndices] at h1
  obtain ⟨p, hp, e1, e2⟩ := sum_eq_one h1
  have hp' : p < s.node.length := by simpa using hp
  have hc : ∀ q (hq : q < s.node.length), childCount s j q = (childIndices [s.node[q]]).count j := by
    intro q hq; simp [childCount, hq]
  refine ⟨p, ?_, hp', fun q hq => ?_⟩
  · simp only [List.getElem_map] at e1
    by_cases hl : s.node[p].leaf = true
    · simp [childIndices_leaf hl] at e1
    · have hl : s.node[p].leaf = false := by simpa using hl
      have hm : j ∈ childIndices [s.node[p]] := by rw [← List.count_pos_iff]; omega
      rw [childIndices_node hl] at hm
      have := h.children p hp' hl
      simp only [List.mem_cons, List.not_mem_nil, or_false] at hm
      omega
  · rw [hc q hq]
    split
    · subst_vars; simpa using e1
    · rename_i hne
      have := e2 q (by simpa using hq) hne
      rwa [List.getElem_map] at this

theorem sum_indicator (m : List Nat) (p : Nat) : (m.map (fun q => if q = p then 1 else 0)).sum = m.count p := by
  induction m with
  | nil => rfl
  | cons a m ih => rw [List.map_cons, List.sum_cons, ih, List.count_cons]; simp; omega

/-- The tree at ROOT holds every node exactly once (R40: no sharing, no cycles, all reachable). -/
theorem TreeWf.all_once {s : State} {n : Nat} (h : TreeWf s n) {t : Tree} {m : List Nat}
    (hs : Sub s (2 * n - 2) t m) (j : Nat) (hj : j < 2 * n - 1) : m.count j = 1 := by
  have hslots := h.slots
  have hle := h.sub_le hs
  have key : ∀ e j, j + e = 2 * n - 2 → m.count j = 1 := by
    intro e
    induction e using Nat.strong_induction_on with
    | _ e ih =>
      intro j hj
      rw [hs.count j]
      by_cases h0 : e = 0
      · have hjr : j = 2 * n - 2 := by omega
        have hz : ∀ q ∈ m, childCount s j q = 0 := by
          intro q hq
          have hql := hle q hq
          have hq' : q < s.node.length := by have := h.count_pos; omega
          by_cases hl : s.node[q].leaf = true
          · exact childCount_leaf hq' hl j
          · have hl : s.node[q].leaf = false := by simpa using hl
            have hc := h.children q hq' hl
            rw [childCount_node hq' hl, List.count_eq_zero.mpr (by rw [List.mem_singleton]; omega),
              List.count_eq_zero.mpr (by rw [List.mem_singleton]; omega)]
        rw [List.map_congr_left hz, hjr]
        simp
      · obtain ⟨p, hjp, hp, hpc⟩ := h.parent (j := j) (by omega)
        have hm : m.map (childCount s j) = m.map (fun q => if q = p then 1 else 0) := by
          refine List.map_congr_left fun q hq => hpc q ?_
          have := hle q hq
          have := h.count_pos
          omega
        rw [hm, sum_indicator, ih (2 * n - 2 - p) (by omega) p (by omega)]
        have : j ≠ 2 * n - 2 := by omega
        simp [Ne.symm this]
  exact key (2 * n - 2 - j) j (by omega)

theorem TreeWf.perm {s : State} {n : Nat} (h : TreeWf s n) {t : Tree} {m : List Nat}
    (hs : Sub s (2 * n - 2) t m) : m.Perm (List.range (2 * n - 1)) := by
  rw [List.perm_iff_count]
  intro j
  by_cases hj : j < 2 * n - 1
  · rw [h.all_once hs j hj, List.count_eq_one_of_mem List.nodup_range (List.mem_range.mpr hj)]
  · rw [List.count_eq_zero.mpr, List.count_eq_zero.mpr]
    · simpa using hj
    · intro hm
      have := h.sub_le hs j hm
      have := h.count_pos
      omega

theorem Sub.symbols {s : State} {k : Nat} {t : Tree} {m : List Nat} (h : Sub s k t m) :
    t.symbols = (m.filter (fun j => (s.node[j]?.map Node.leaf).getD false)).map
      (fun j => (s.node[j]?.map Node.sym).getD 0#_) := by
  induction h with
  | leaf k hk hl => simp [Tree.symbols, hk, hl]
  | node k hk hl tl tr ml mr _ _ il ir => simp [Tree.symbols, hk, hl, il, ir]

theorem Tree.depth_lt (t : Tree) : t.depth < t.symbols.length := by
  induction t with
  | leaf => simp [Tree.depth, Tree.symbols]
  | node w l r il ir => simp only [Tree.depth, Tree.symbols, List.length_append]; omega

theorem Tree.paths_symbols (t : Tree) (p : List Digit) : (t.paths p).map Prod.fst = t.symbols := by
  induction t generalizing p with
  | leaf => rfl
  | node w l r il ir => simp [Tree.paths, Tree.symbols, il, ir]

theorem Tree.codes_symbols (t : Tree) : t.codes.map Prod.fst = t.symbols := by
  cases t with
  | leaf => rfl
  | node w l r => exact Tree.paths_symbols _ _

/-- The leaves of the tree at ROOT carry the symbols of the first N nodes, each once. -/
theorem TreeWf.symbols {s : State} {n : Nat} (h : TreeWf s n) {t : Tree} {m : List Nat}
    (hs : Sub s (2 * n - 2) t m) : t.symbols.Perm ((s.node.take n).map Node.sym) := by
  have hslots := h.slots
  have hpos := h.count_pos
  rw [hs.symbols]
  refine (((h.perm hs).filter _).map _).trans ?_
  have e1 : (List.range (2 * n - 1)).filter (fun j => (s.node[j]?.map Node.leaf).getD false) = List.range n := by
    have hsplit : List.range (2 * n - 1) = List.range n ++ (List.range (n - 1)).map (n + ·) := by
      rw [← List.range_add]; congr 1; omega
    rw [hsplit, List.filter_append, List.filter_eq_self.mpr, List.filter_eq_nil_iff.mpr, List.append_nil]
    · intro j hj
      obtain ⟨i, hi, rfl⟩ := List.mem_map.mp hj
      have hi := List.mem_range.mp hi
      have hk : n + i < s.node.length := by omega
      simp [hk, h.leaves _ hk]
    · intro j hj
      have hj := List.mem_range.mp hj
      have hk : j < s.node.length := by omega
      simp [hk, h.leaves _ hk, hj]
  rw [e1]
  refine List.Perm.of_eq (List.ext_getElem (by simp; omega) ?_)
  intro i h1 h2
  have hi : i < s.node.length := by simp at h1; omega
  simp [hi]

theorem TreeWf.symbols_nodup {s : State} {n : Nat} (h : TreeWf s n) : ((s.node.take n).map Node.sym).Nodup := by
  have hslots := h.slots
  rw [List.nodup_iff_pairwise_ne, List.pairwise_iff_getElem]
  intro i j hi hj hij
  simp only [List.length_map, List.length_take] at hi hj
  have := h.ascending j (by omega) (by omega) i hij
  simp only [List.getElem_map, List.getElem_take, ne_eq]
  intro e
  rw [e] at this
  simp at this

/-- The abstract tree of a well-formed arena (R42). -/
theorem TreeWf.tree {s : State} {n : Nat} (h : TreeWf s n) :
    ∃ t m, s.tree = some t ∧ Sub s s.root.toNat t m ∧ t.size = 2 * n - 1 ∧ t.depth < n ∧
      t.symbols.Nodup ∧ t.symbols.Perm ((s.node.take n).map Node.sym) := by
  have hslots := h.slots
  have hpos := h.count_pos
  have hle : n ≤ 256 := h.count_le
  obtain ⟨t, m, hs⟩ := h.sub (2 * n - 2) (by omega)
  have hp := h.symbols hs
  have hlen : t.symbols.length = n := by rw [hp.length_eq]; simp; omega
  have hd := t.depth_lt
  refine ⟨t, m, hs.absNode _ ?_ _ h.root_eq, by rw [h.root_eq]; exact hs, ?_, by omega,
    hp.nodup_iff.mpr h.symbols_nodup, hp⟩
  · change t.depth < 256; omega
  · rw [hs.size, (h.perm hs).length_eq, List.length_range]

/-! ### Codewords and prefixes -/

theorem Tree.paths_prefix (t : Tree) (p : List Digit) : ∀ q ∈ t.paths p, ∃ r, q.2 = p ++ r ∧ r.length ≤ t.depth := by
  induction t generalizing p with
  | leaf x w => intro q hq; simp only [Tree.paths, List.mem_singleton] at hq; subst hq; exact ⟨[], by simp, by simp⟩
  | node w l r il ir =>
    intro q hq
    simp only [Tree.paths, List.mem_append] at hq
    rcases hq with hq | hq
    · obtain ⟨z, h1, h2⟩ := il _ q hq
      exact ⟨false :: z, by simp [h1], by simp only [List.length_cons, Tree.depth]; omega⟩
    · obtain ⟨z, h1, h2⟩ := ir _ q hq
      exact ⟨true :: z, by simp [h1], by simp only [List.length_cons, Tree.depth]; omega⟩

/-- Different leaves have root paths of which neither starts the other (R195). -/
theorem Tree.paths_prefixFree (t : Tree) (p : List Digit) (h : t.symbols.Nodup) :
    ∀ a ∈ t.paths p, ∀ b ∈ t.paths p, a.1 ≠ b.1 → ¬ a.2 <+: b.2 := by
  induction t generalizing p with
  | leaf x w =>
    intro a ha b hb hne
    simp only [Tree.paths, List.mem_singleton] at ha hb
    subst ha; subst hb; exact absurd rfl hne
  | node w l r il ir =>
    rw [Tree.symbols, List.nodup_append] at h
    intro a ha b hb hne
    simp only [Tree.paths, List.mem_append] at ha hb
    have cross : ∀ (c d : Digit) (u v : List Digit), c ≠ d → ¬ (p ++ [c] ++ u) <+: (p ++ [d] ++ v) := by
      intro c d u v hcd hpre
      rw [List.append_assoc, List.append_assoc, List.prefix_append_right_inj] at hpre
      have := List.cons_prefix_cons.mp hpre
      exact hcd this.1
    rcases ha with ha | ha <;> rcases hb with hb | hb
    · exact il _ h.1 a ha b hb hne
    · obtain ⟨u, hu, -⟩ := l.paths_prefix _ a ha
      obtain ⟨v, hv, -⟩ := r.paths_prefix _ b hb
      rw [hu, hv]; exact cross _ _ _ _ (by decide)
    · obtain ⟨u, hu, -⟩ := r.paths_prefix _ a ha
      obtain ⟨v, hv, -⟩ := l.paths_prefix _ b hb
      rw [hu, hv]; exact cross _ _ _ _ (by decide)
    · exact ir _ h.2.1 a ha b hb hne

theorem Tree.codes_prefixFree (t : Tree) (h : t.symbols.Nodup) :
    ∀ a ∈ t.codes, ∀ b ∈ t.codes, a.1 ≠ b.1 → ¬ a.2 <+: b.2 := by
  cases t with
  | leaf x w =>
    intro a ha b hb hne
    simp only [Tree.codes, List.mem_singleton] at ha hb
    subst ha; subst hb; exact absurd rfl hne
  | node w l r => exact Tree.paths_prefixFree _ _ h

/-- Every codeword has between 1 digit and the depth of the tree, or is "0" (R192, R197). -/
theorem Tree.codes_length (t : Tree) : ∀ a ∈ t.codes, 1 ≤ a.2.length ∧ a.2.length ≤ max 1 t.depth := by
  cases t with
  | leaf x w => intro a ha; simp only [Tree.codes, List.mem_singleton] at ha; subst ha; simp
  | node w l r =>
    intro a ha
    simp only [Tree.codes, Tree.paths, List.nil_append, List.mem_append] at ha
    simp only [Tree.depth]
    rcases ha with ha | ha
    · obtain ⟨z, h1, h2⟩ := l.paths_prefix _ a ha
      rw [h1]; simp only [List.length_append, List.length_cons, List.length_nil]; omega
    · obtain ⟨z, h1, h2⟩ := r.paths_prefix _ a ha
      rw [h1]; simp only [List.length_append, List.length_cons, List.length_nil]; omega

/-! ### The traversal -/

/-- The assignments of a list of codewords to a table, in order (R191, `assign`). -/
def assignAll (ps : List (Sym × List Digit)) (ct : Store CodeEntry) : Store CodeEntry :=
  ps.foldl (fun c q => Store.write absentCode c q.1.toNat (codeEntry q.2)) ct

theorem assignAll_append (a b : List (Sym × List Digit)) (ct : Store CodeEntry) :
    assignAll (a ++ b) ct = assignAll b (assignAll a ct) := by simp [assignAll]

/-- The traversal of one subtree (R191, R198): its leaves get their root paths, the entries under it on DSTACK stay,
and PATH keeps the subtree's own root path. -/
theorem walkLoop_sub {s : State} {k : Nat} {t : Tree} {m : List Nat} (h : Sub s k t m) (f : Nat) (u : State)
    (hnode : u.node = s.node) (p : List Digit) (e : StackEntry) (rest : List StackEntry) (he : e.node.toNat = k)
    (hd : e.depth.toNat = p.length) (hdepth : p.length + t.depth ≤ 255)
    (hstack : u.dstack = e :: rest)
    (hpath : p = [] ∨ p = firstDigits u.path (p.length - 1) ++ [e.digit]) :
    ∃ v, walkLoop (t.size + f) u = walkLoop f v ∧ v.dstack = rest ∧ v.ct = assignAll (t.paths p) u.ct ∧
      firstDigits v.path p.length = p ∧
      v = { u with ct := v.ct, path := v.path, depth := v.depth, dstack := v.dstack } := by
  induction h generalizing f u p e rest with
  | leaf k hk hl =>
    have hk' : e.node.toNat < u.node.length := by rw [hnode, he]; exact hk
    have hnd : u.nodeAt e.node = s.node[k] := by rw [nodeAt_eq hk']; simp only [hnode, he]
    have hpp : firstDigits (enterNode e rest u).path e.depth.toNat = p := by
      rw [hd]
      rcases hpath with rfl | hp
      · simp [firstDigits]
      · have hne : e.depth ≠ 0#_ := by
          intro h0
          rw [h0] at hd
          have : p.length = 0 := by simpa using hd.symm
          rw [List.length_eq_zero_iff.mp this] at hp
          simp at hp
        have hpos : p.length ≠ 0 := by rw [hp]; simp
        simp only [enterNode, hne, if_false, hd]
        conv_lhs => rw [show p.length = p.length - 1 + 1 by omega]
        rw [Nat.add_sub_cancel, firstDigits_setDigit _ _ _ (by omega)]
        exact hp.symm
    refine ⟨assignCode s.node[k].sym p (enterNode e rest u), ?_, rfl, rfl, ?_, rfl⟩
    · rw [show (Tree.leaf s.node[k].sym s.node[k].weight).size + f = f + 1 by simp [Tree.size]; omega]
      simp only [walkLoop, hstack, hnd, hl, if_true, hpp]
    · rw [← hd]; exact hpp
  | node k hk hl tl tr ml mr _ _ il ir =>
    have hk' : e.node.toNat < u.node.length := by rw [hnode, he]; exact hk
    have hnd : u.nodeAt e.node = s.node[k] := by rw [nodeAt_eq hk']; simp only [hnode, he]
    simp only [Tree.depth] at hdepth
    have hpp : firstDigits (enterNode e rest u).path p.length = p := by
      rcases hpath with rfl | hp
      · simp [firstDigits]
      · have hne : e.depth ≠ 0#_ := by
          intro h0
          rw [h0] at hd
          have : p.length = 0 := by simpa using hd.symm
          rw [List.length_eq_zero_iff.mp this] at hp
          simp at hp
        have hpos : p.length ≠ 0 := by rw [hp]; simp
        simp only [enterNode, hne, if_false, hd]
        conv_lhs => rw [show p.length = p.length - 1 + 1 by omega]
        rw [Nat.add_sub_cancel, firstDigits_setDigit _ _ _ (by omega)]
        exact hp.symm
    have hd1 : (e.depth + 1#_).toNat = p.length + 1 := by
      simp only [BitVec.toNat_add, hd]; simp; omega
    have hne255 : ¬ e.depth = BitVec.ofNat _ Config.codeMax := by
      intro h0
      rw [h0] at hd
      change 255 = p.length at hd
      omega
    obtain ⟨v, hv1, hv2, hv3, hv4, hv5⟩ := il (tr.size + f)
      { enterNode e rest u with dstack := childEntries s.node[k] e.depth ++ rest } hnode (p ++ [false])
      { node := s.node[k].left, depth := e.depth + 1#_, digit := false }
      ({ node := s.node[k].right, depth := e.depth + 1#_, digit := true } :: rest)
      rfl (by simpa using hd1) (by simp; omega) rfl (.inr (by simp [hpp]))
    have hvp : firstDigits v.path p.length = p := by
      have := congrArg (List.take p.length) hv4
      rw [show (p ++ [false]).length = p.length + 1 by simp, List.take_left'  (by rfl)] at this
      rw [← this]
      simp [firstDigits, ← List.map_take, List.take_range]
    obtain ⟨w, hw1, hw2, hw3, hw4, hw5⟩ := ir f v (by rw [hv5]; exact hnode) (p ++ [true])
      { node := s.node[k].right, depth := e.depth + 1#_, digit := true } rest
      rfl (by simpa using hd1) (by simp; omega) hv2 (.inr (by simp [hvp]))
    refine ⟨w, ?_, hw2, ?_, ?_, ?_⟩
    · rw [← hw1, ← hv1, show (Tree.node s.node[k].weight tl tr).size + f = tl.size + (tr.size + f) + 1 by
        simp [Tree.size]; omega]
      simp only [walkLoop, hstack, hnd, hl, Bool.false_eq_true, if_false, hne255]
    · rw [hw3, hv3, Tree.paths, assignAll_append]
      rfl
    · have := congrArg (List.take p.length) hw4
      rw [show (p ++ [true]).length = p.length + 1 by simp, List.take_left'  (by rfl)] at this
      rw [← this]
      simp [firstDigits, ← List.map_take, List.take_range]
    · rw [hw5, hv5]
      rfl

/-- The same assignments by R191's recursion: the machine's traversal is the rule's. -/
theorem walkRec_sub {s : State} {k : Nat} {t : Tree} {m : List Nat} (h : Sub s k t m) (d : Nat) (hd : t.depth < d)
    (i : Idx) (hi : i.toNat = k) (p : List Digit) (ct : Store CodeEntry) :
    walkRec s d i p ct = some (assignAll (t.paths p) ct) := by
  induction h generalizing d i p ct with
  | leaf k hk hl =>
    obtain ⟨d, rfl⟩ : ∃ e, d = e + 1 := ⟨d - 1, by omega⟩
    subst hi
    have : s.nodeAt i = s.node[i.toNat] := nodeAt_eq hk
    simp [walkRec, this, hl, Tree.paths, assignAll]
  | node k hk hl tl tr ml mr _ _ il ir =>
    obtain ⟨d, rfl⟩ : ∃ e, d = e + 1 := ⟨d - 1, by omega⟩
    subst hi
    simp only [Tree.depth] at hd
    have : s.nodeAt i = s.node[i.toNat] := nodeAt_eq hk
    simp [walkRec, this, hl, Tree.paths, il d (by omega) _ rfl, ir d (by omega) _ rfl, assignAll_append]

theorem codeEntry_ne_absent {p : List Digit} (h : 1 ≤ p.length) (h2 : p.length ≤ 255) : codeEntry p ≠ absentCode := by
  intro e
  have := codeEntry_len p h2
  rw [e] at this
  change 0 = p.length at this
  omega

/-- What the table reads after a list of assignments to distinct symbols. -/
theorem find_assignAll (ps : List (Sym × List Digit)) (ct : Store CodeEntry) (hn : (ps.map Prod.fst).Nodup) (x : Sym) :
    ((assignAll ps ct).find x.toNat).getD absentCode =
      match ps.lookup x with
      | some p => codeEntry p
      | none => (ct.find x.toNat).getD absentCode := by
  induction ps generalizing ct with
  | nil => rfl
  | cons q ps ih =>
    obtain ⟨y, p⟩ := q
    rw [List.map_cons, List.nodup_cons] at hn
    change ((assignAll ps (Store.write absentCode ct y.toNat (codeEntry p))).find x.toNat).getD absentCode = _
    rw [ih _ hn.2]
    by_cases hxy : x = y
    · subst hxy
      have hl : ps.lookup x = none := by
        rw [List.lookup_eq_none_iff]
        intro a ha
        have : x ≠ a.1 := by
          intro e
          rw [e] at hn
          exact hn.1 (List.mem_map.mpr ⟨a, ha, rfl⟩)
        simpa using this
      simp [hl]
    · have hne : x.toNat ≠ y.toNat := fun e => hxy (BitVec.eq_of_toNat_eq e)
      have hb : (x == y) = false := by simpa using hxy
      rw [List.lookup_cons, hb]
      cases ps.lookup x with
      | none => simp only [Store.find_write_other _ _ hne]
      | some p' => rfl

theorem lookup_mem {ps : List (Sym × List Digit)} {x : Sym} {p : List Digit} (h : ps.lookup x = some p) :
    (x, p) ∈ ps := by
  induction ps with
  | nil => simp at h
  | cons q ps ih =>
    obtain ⟨y, r⟩ := q
    rw [List.lookup_cons] at h
    by_cases hxy : x = y
    · subst hxy; simp at h; subst h; exact List.mem_cons_self
    · have hb : (x == y) = false := by simpa using hxy
      rw [hb] at h
      exact List.mem_cons_of_mem _ (ih h)

/-- A table that holds a list of codewords of legal length reads back as that list (R28, R199). -/
theorem codewordOf_assignAll {s : State} {ps : List (Sym × List Digit)} (hct : s.ct = assignAll ps [])
    (hn : (ps.map Prod.fst).Nodup) (hl : ∀ a ∈ ps, 1 ≤ a.2.length ∧ a.2.length ≤ 255) (x : Sym) :
    s.codewordOf x = ps.lookup x ∧ ∀ j, (s.code x).len.toNat ≤ j → digitAt (s.code x).code j = false := by
  have hc : s.code x = match ps.lookup x with | some p => codeEntry p | none => absentCode := by
    unfold State.code
    rw [hct, find_assignAll ps [] hn x]
    cases ps.lookup x <;> rfl
  cases hp : ps.lookup x with
  | none =>
    rw [hp] at hc
    simp only at hc
    refine ⟨by simp [State.codewordOf, hc, absentCode], fun j _ => ?_⟩
    rw [hc]; simp [absentCode, digitAt]
  | some p =>
    rw [hp] at hc
    simp only at hc
    obtain ⟨h1, h2⟩ := hl _ (lookup_mem hp)
    have hlen : (codeEntry p).len ≠ 0#_ := by
      intro e
      have := codeEntry_len p h2
      rw [e] at this
      simp at this; simp [← this] at h1
    refine ⟨by simp [State.codewordOf, hc, hlen, codeword_codeEntry p h2], fun j hj => ?_⟩
    rw [hc] at hj ⊢
    exact codeEntry_padded p h2 j hj

/-- Everything CG_GEN can do on a well-formed arena (R191, R192, R199). -/
theorem cgGen_spec {s : State} {n : Nat} (hv : s.treeValid = true) (h : TreeWf s n) :
    ∃ t T, cgGen s = .ok (t, .ok) ∧ s.tree = some T ∧ t.ct = assignAll T.codes [] ∧
      (∀ x, t.codewordOf x = T.codes.lookup x) ∧ CodesPadded t ∧ t.dstack = [] ∧
      t = { s with ct := t.ct, path := t.path, depth := t.depth, dstack := t.dstack } := by
  obtain ⟨T, m, hT, hsub, hsize, hdepth, hnd, -⟩ := h.tree
  have hle : n ≤ 256 := h.count_le
  have hpos := h.count_pos
  have hcodes : (T.codes.map Prod.fst).Nodup := by rw [T.codes_symbols]; exact hnd
  have hlen : ∀ a ∈ T.codes, 1 ≤ a.2.length ∧ a.2.length ≤ 255 := by
    intro a ha
    have := T.codes_length a ha
    omega
  suffices hmain : ∃ t, cgGen s = .ok (t, .ok) ∧ t.ct = assignAll T.codes [] ∧ t.dstack = [] ∧
      t = { s with ct := t.ct, path := t.path, depth := t.depth, dstack := t.dstack } by
    obtain ⟨t, h1, h2, h3, h4⟩ := hmain
    exact ⟨t, T, h1, hT, h2, fun x => (codewordOf_assignAll h2 hcodes hlen x).1,
      fun x j hj => (codewordOf_assignAll h2 hcodes hlen x).2 j hj, h3, h4⟩
  have hroot : s.nodeAt s.root = s.node[s.root.toNat]'hsub.lt := nodeAt_eq hsub.lt
  unfold cgGen
  rw [if_neg (by simp [hv])]
  cases hsub with
  | leaf _ hk hl =>
    rw [if_pos (by rw [hroot]; exact hl)]
    refine ⟨_, rfl, ?_, rfl, rfl⟩
    rw [hroot]
    rfl
  | node _ hk hl tl tr ml mr hsl hsr =>
    rw [if_neg (by rw [hroot, hl]; simp)]
    obtain ⟨v, hv1, hv2, hv3, -, hv5⟩ := walkLoop_sub (.node _ hk hl tl tr ml mr hsl hsr) (511 - (2 * n - 1))
      (startWalk s) rfl [] { node := s.root, depth := 0#_, digit := false } [] rfl rfl
      (by simp only [List.length_nil]; omega) rfl (.inl rfl)
    rw [hsize, show 2 * n - 1 + (511 - (2 * n - 1)) = Config.nodeDepth by change _ = 511; omega] at hv1
    have hend : walkLoop (511 - (2 * n - 1)) v = .ok v := by
      cases 511 - (2 * n - 1) with
      | zero => simp [walkLoop, hv2]
      | succ f => simp [walkLoop, hv2]
    rw [hv1, hend]
    exact ⟨v, rfl, hv3, hv2, by rw [hv5]; rfl⟩

end Sys2Proof.Machine
end

