-- ==== Sys2Proof/Laws/Huffman.lean ====
section
/-! SUPPORT. TB_BUILD against the abstract construction (R147, R170, R171): the tree in the arena is the one that merging
a sorted list gives. -/

namespace Sys2Proof.Machine

open Sys2Proof

theorem Sub.det {s : State} {k : Nat} {t t' : Tree} {m m' : List Nat} (h : Sub s k t m) (h' : Sub s k t' m') :
    t = t' := by
  induction h generalizing t' m' with
  | leaf k hk hl =>
    cases h' with
    | leaf _ _ _ => rfl
    | node _ _ hl' => rw [hl] at hl'; exact absurd hl' (by simp)
  | node k hk hl tl tr ml mr _ _ il ir =>
    cases h' with
    | leaf _ _ hl' => rw [hl] at hl'; exact absurd hl' (by simp)
    | node _ _ _ _ _ _ _ h1 h2 => rw [il h1, ir h2]

/-- Adding nodes leaves the trees that are there. -/
theorem Sub.append {s u : State} {l : List Node} (hu : u.node = s.node ++ l) {k : Nat} {t : Tree} {m : List Nat}
    (h : Sub s k t m) : Sub u k t m := by
  have get : ∀ j (hj : j < s.node.length), ∃ h2 : j < u.node.length, u.node[j] = s.node[j] := by
    intro j hj
    have hlt : j < u.node.length := by rw [hu, List.length_append]; omega
    exact ⟨hlt, by simp only [hu]; exact List.getElem_append_left hj⟩
  induction h with
  | leaf k hk hl =>
    obtain ⟨h2, e⟩ := get k hk
    rw [← e]
    exact .leaf k h2 (by rw [e]; exact hl)
  | node k hk hl tl tr ml mr _ _ il ir =>
    obtain ⟨h2, e⟩ := get k hk
    rw [← e]
    exact .node k h2 (by rw [e]; exact hl) tl tr ml mr (by rw [e]; exact il) (by rw [e]; exact ir)

/-- A queue entry and the abstract entry it stands for. -/
def Stands (s : State) (e : HeapEntry) (q : QueueTree) : Prop :=
  q.weight = e.weight ∧ q.seq = e.seq.toNat ∧ ∃ m, Sub s e.item.toNat q.tree m

/-- The queue holds what the sorted list `L` says. -/
def Shows (s : State) (L : List QueueTree) : Prop :=
  ∃ h : List HeapEntry, h.Perm s.heap ∧ h.Pairwise (fun a b => keyLt a b = true) ∧ List.Forall₂ (Stands s) h L

theorem Stands.before_iff {s : State} {e f : HeapEntry} {q r : QueueTree} (he : Stands s e q) (hf : Stands s f r) :
    q.before r = keyLt e f := by
  simp only [QueueTree.before, keyLt, he.1, he.2.1, hf.1, hf.2.1, BitVec.lt_def]

theorem insertTree_shows {s : State} {e : HeapEntry} {q : QueueTree} (he : Stands s e q) {h : List HeapEntry}
    {L : List QueueTree} (hs : h.Pairwise (fun a b => keyLt a b = true)) (hL : List.Forall₂ (Stands s) h L)
    (hne : ∀ f ∈ h, f.seq ≠ e.seq) :
    ∃ h' : List HeapEntry, h'.Perm (e :: h) ∧ h'.Pairwise (fun a b => keyLt a b = true) ∧
      List.Forall₂ (Stands s) h' (insertTree q L) := by
  induction hL with
  | nil => exact ⟨[e], List.Perm.refl _, by simp, .cons he .nil⟩
  | @cons f r h L hf hL ih =>
    rw [List.pairwise_cons] at hs
    rw [insertTree, he.before_iff hf]
    by_cases hlt : keyLt e f = true
    · rw [if_pos hlt]
      refine ⟨e :: f :: h, List.Perm.refl _, List.pairwise_cons.mpr ⟨?_, List.pairwise_cons.mpr hs⟩, .cons he (.cons hf hL)⟩
      intro g hg
      rcases List.mem_cons.mp hg with rfl | hg
      · exact hlt
      · have := hs.1 g hg
        rw [keyLt_iff] at hlt this ⊢
        omega
    · rw [if_neg hlt]
      obtain ⟨h', hp, hs', hL'⟩ := ih hs.2 (fun g hg => hne g (List.mem_cons_of_mem _ hg))
      refine ⟨f :: h', (hp.cons f).trans (List.Perm.swap e f h), List.pairwise_cons.mpr ⟨?_, hs'⟩, .cons hf hL'⟩
      intro g hg
      rcases List.mem_cons.mp (hp.mem_iff.mp hg) with rfl | hg
      · have := keyNat_ne (hne f List.mem_cons_self)
        rw [keyLt_iff] at hlt ⊢
        omega
      · exact hs.1 g hg

theorem Stands.append {s u : State} {l : List Node} (hu : u.node = s.node ++ l) {e : HeapEntry} {q : QueueTree}
    (h : Stands s e q) : Stands u e q := by
  obtain ⟨h1, h2, m, h3⟩ := h
  exact ⟨h1, h2, m, h3.append hu⟩

/-- The entry PQ_POP takes is the head of the sorted list. -/
theorem head_of_least {a : HeapEntry} {tl : List HeapEntry} (hl : ∀ e ∈ tl, keyLt a e = true) {b : HeapEntry}
    {h : List HeapEntry} (hs : (b :: h).Pairwise (fun a b => keyLt a b = true)) (hp : (b :: h).Perm (a :: tl)) :
    b = a ∧ h.Perm tl := by
  have hb : b = a := by
    rcases List.mem_cons.mp (hp.mem_iff.mp List.mem_cons_self) with hb | hb
    · exact hb
    · have h1 := hl b hb
      rcases List.mem_cons.mp (hp.mem_iff.mpr List.mem_cons_self) with ha | ha
      · exact ha.symm
      · have h2 := (List.pairwise_cons.mp hs).1 a ha
        rw [keyLt_iff] at h1 h2
        omega
  subst hb
  exact ⟨rfl, hp.cons_inv⟩

/-- One node added to the arena and pushed, seen on the sorted list. -/
theorem Shows.add {s t : State} {L : List QueueTree} {nd : Node} {q : QueueTree} (h : Shows s L)
    (hseq : ∀ e ∈ s.heap, e.seq ≠ s.seq) (hnode : t.node = s.node ++ [nd])
    (hheap : t.heap.Perm ({ item := s.k, weight := nd.weight, seq := s.seq } :: s.heap))
    (hq : Stands t { item := s.k, weight := nd.weight, seq := s.seq } q) : Shows t (insertTree q L) := by
  obtain ⟨h0, hp, hs, hL⟩ := h
  have hL' : List.Forall₂ (Stands t) h0 L := hL.imp (fun _ _ he => he.append hnode)
  obtain ⟨h1, hp1, hs1, hL1⟩ := insertTree_shows hq hs hL' (fun f hf => hseq f (hp.mem_iff.mp hf))
  exact ⟨h1, hp1.trans ((hp.cons _).trans hheap.symm), hs1, hL1⟩

theorem addNode_heap {s t : State} {nd : Node} (h : addNode nd s = (t, .ok)) :
    t.heap.Perm ({ item := s.k, weight := nd.weight, seq := s.seq } :: s.heap) ∧ t.node = s.node ++ [nd] := by
  unfold addNode at h
  rcases pqPush_cases s.k nd.weight (s.pushNode nd) with ⟨-, he⟩ | ⟨-, -, g, hp, he⟩
  · rw [he] at h; simp at h
  · rw [he] at h
    simp only [Prod.mk.injEq, and_true] at h
    subst h
    exact ⟨hp, rfl⟩

theorem Forest.seq_ne {n w : Nat} {s : State} (h : Forest n w s) : ∀ e ∈ s.heap, e.seq ≠ s.seq := by
  intro e he e1
  have := h.queue.stamped e he
  rw [e1] at this
  exact absurd this (by simp)

/-- The merging loop is the abstract one. -/
theorem mergeLoop_mergeTrees (f : Nat) {n w : Nat} {s : State} (h : Forest n w s) {L : List QueueTree}
    (hL : Shows s L) (h1 : 1 ≤ s.heap.length) (hf : s.heap.length ≤ f) :
    ∃ t T m, mergeLoop f s = .ok (t, .ok) ∧ mergeTrees f s.node.length L = some T ∧ Sub t t.root.toNat T m := by
  induction f generalizing s L with
  | zero => omega
  | succ f ih =>
    have hne : s.heap ≠ [] := by intro e; rw [e] at h1; simp at h1
    obtain ⟨a, tl, ha, hpop, hperm, hleast, hq⟩ := pqPop_spec h.queue hne
    obtain ⟨h0, hp0, hs0, hF⟩ := hL
    rw [ha] at hp0
    cases hF with
    | nil => exact absurd hp0.length_eq (by simp)
    | @cons b qa h1' L1 hqa hF1 =>
      obtain ⟨rfl, hp1⟩ := head_of_least hleast hs0 hp0
      simp only [mergeLoop, hpop, pqIsEmpty, State.queueEmpty]
      cases tl with
      | nil =>
        have hnil : heapAfterPop s.heap = [] := by simpa using hperm
        obtain rfl : h1' = [] := by simpa using hp1
        cases hF1
        obtain ⟨-, -, m, hsub⟩ := hqa
        refine ⟨{ s with heap := heapAfterPop s.heap, root := b.item }, qa.tree, m, by simp [hnil], rfl, ?_⟩
        exact Sub.append (s := s) (l := []) (by simp) hsub
      | cons c rest =>
        have hne2 : heapAfterPop s.heap ≠ [] := by
          intro e
          rw [e] at hperm
          exact absurd hperm.length_eq (by simp)
        have hemp : (heapAfterPop s.heap).isEmpty = false := by simpa using hne2
        simp only [hemp, Bool.false_eq_true, if_false]
        obtain ⟨b', tl', hb', hpop', hperm', hleast', hq'⟩ := pqPop_spec hq hne2
        simp only [hpop']
        change heapAfterPop s.heap = _ at hb'
        rw [hb'] at hperm
        cases hF1 with
        | nil => exact absurd hp1.length_eq (by simp)
        | @cons d qb h2 L2 hqb hF2 =>
          rw [List.pairwise_cons] at hs0
          obtain ⟨rfl, hp2⟩ := head_of_least hleast' hs0.2 (hp1.trans hperm.symm)
          have hpa : s.heap.Perm (b :: d :: tl') := by
            rw [ha]; exact (hperm.symm).cons b
          obtain ⟨t, ht, hft, hnt, hlt, hframe⟩ := h.merge
            (u := { s with heap := heapAfterPop (heapAfterPop s.heap) }) hpa rfl hperm' hq'
          rw [ht]
          have hheap := (addNode_heap ht).1
          change t.heap.Perm ({ item := s.k, weight := (mergeNode b d).weight, seq := s.seq } ::
            heapAfterPop (heapAfterPop s.heap)) at hheap
          obtain ⟨wa, sa, ma, hsa⟩ := hqa
          obtain ⟨wb, sb, mb, hsb⟩ := hqb
          have hkl : s.k.toNat < t.node.length := by rw [hnt, h.kLen]; simp
          have hget : t.node[s.k.toNat] = mergeNode b d := by
            simp only [hnt, h.kLen]; simp
          have hst : Stands t { item := s.k, weight := (mergeNode b d).weight, seq := s.seq }
              (mergedTree qa qb s.node.length) := by
            refine ⟨by simp [mergedTree, mergeNode, wa, wb], by simp [mergedTree, h.seqLen],
              s.k.toNat :: (ma ++ mb), ?_⟩
            have := Sub.node (s := t) s.k.toNat hkl (by rw [hget]; rfl) qa.tree qb.tree ma mb
              (by rw [hget]; exact hsa.append hnt) (by rw [hget]; exact hsb.append hnt)
            rw [hget] at this
            simpa [mergedTree, mergeNode, wa, wb] using this
          have hshow : Shows { s with heap := heapAfterPop (heapAfterPop s.heap) } L2 :=
            ⟨h2, hp2.trans hperm'.symm, (List.pairwise_cons.mp hs0.2).2,
              hF2.imp (fun _ _ he => Stands.append (s := s) (l := []) (by simp) he)⟩
          have hshow' := hshow.add (t := t) (nd := mergeNode b d)
            (by intro e he; exact h.seq_ne e (hpa.mem_iff.mpr (by
                  have := hperm'.mem_iff.mp he
                  simp [this]))) hnt hheap hst
          obtain ⟨u, T, m, hu, hT, hsub⟩ := ih hft hshow' (by
            have := hpa.length_eq
            simp only [List.length_cons] at this
            omega) (by omega)
          refine ⟨u, T, m, hu, ?_, hsub⟩
          rw [mergeTrees, ← hT, hnt]
          simp

/-- The abstract leaves of a list of symbols, numbered from `n`. -/
def leavesOf (s : State) (n : Nat) (xs : List Sym) : List QueueTree :=
  (xs.zipIdx n).map (fun p =>
    { weight := (s.count p.1).setWidth _, seq := p.2, tree := .leaf p.1 ((s.count p.1).setWidth _) })

theorem addLeaves_shows (xs : List Sym) {n w : Nat} {s t : State} (h : Forest n w s) (hn : s.node.length = n)
    (hlen : n + (recordedIn s xs).length ≤ Config.alphabet) (hw : w ≤ n * (2 ^ 32 - 1)) {L : List QueueTree}
    (hL : Shows s L) (ht : addLeaves xs s = (t, .ok)) :
    Shows t ((leavesOf s n (recordedIn s xs)).foldl (fun q e => insertTree e q) L) := by
  induction xs generalizing n w s L with
  | nil =>
    simp only [addLeaves, Prod.mk.injEq, and_true] at ht
    subst ht
    exact hL
  | cons x xs ih =>
    have hA : Config.alphabet = 256 := rfl
    by_cases hx : s.count x = 0#_
    · have hr : recordedIn s (x :: xs) = recordedIn s xs := by simp [recordedIn, hx]
      rw [hr] at hlen ⊢
      simp only [addLeaves, hx, if_pos] at ht
      exact ih h hn hlen hw hL ht
    · have hr : recordedIn s (x :: xs) = x :: recordedIn s xs := by simp [recordedIn, hx]
      rw [hr] at hlen ⊢
      simp only [List.length_cons] at hlen
      have hc := (s.count x).isLt
      obtain ⟨u, hu, hf, hnode, hframe⟩ := h.addLeaf hn (by omega) x (s.count x) hx (by (have := Config.widths; omega))
      have hcount : ∀ y, u.count y = s.count y := by intro y; rw [hframe]; rfl
      have hrec : recordedIn u xs = recordedIn s xs := by simp [recordedIn, hcount]
      simp only [addLeaves, hx, if_false, hu] at ht
      have hkl : s.k.toNat < u.node.length := by rw [hnode, h.kLen]; simp
      have hget : u.node[s.k.toNat] = leafNode x (s.count x) := by
        simp only [hnode, h.kLen]; simp
      have hst : Stands u { item := s.k, weight := (leafNode x (s.count x)).weight, seq := s.seq }
          { weight := (s.count x).setWidth _, seq := n, tree := .leaf x ((s.count x).setWidth _) } := by
        refine ⟨rfl, by simp [h.seqLen, hn], [s.k.toNat], ?_⟩
        have := Sub.leaf (s := u) s.k.toNat hkl (by rw [hget]; rfl)
        rw [hget] at this
        exact this
      have hstep := ih hf (by rw [hnode]; simp [hn]) (by rw [hrec]; omega) (by (have := Config.widths; omega))
        (hL.add h.seq_ne hnode (addNode_heap hu).1 hst) ht
      rw [hrec] at hstep
      have hl : leavesOf u (n + 1) (recordedIn s xs) = leavesOf s (n + 1) (recordedIn s xs) := by
        simp [leavesOf, hcount]
      rw [hl] at hstep
      simpa [leavesOf, List.zipIdx_cons] using hstep

/-- The tree TB_BUILD leaves is `tree(F)` (R18, R170, R171). -/
theorem tbBuild_tree {s t : State} (h : s.recorded ≠ []) (ht : tbBuild s = .ok (t, .ok)) :
    t.tree = huffmanTree s ∧ huffmanTree s ≠ none := by
  rcases tbBuild_spec s with ⟨he, -⟩ | ⟨-, u, hu, -, hwf, -⟩
  · exact absurd he h
  · rw [hu] at ht
    obtain rfl : u = t := by simpa using ht
    obtain ⟨T', m', hT', hsub', -⟩ := hwf.tree
    have hA : Config.alphabet = 256 := rfl
    have hN := recorded_length_le s
    have hNpos : 0 < s.recorded.length := List.length_pos_iff.mpr h
    have hr0 : recordedIn (startBuild s) allSymbols = s.recorded := rfl
    obtain ⟨v, hv, hfv, hnv, -⟩ := addLeaves_spec allSymbols (forest_start s) rfl (by rw [hr0]; omega) (by omega)
    have hshow := addLeaves_shows allSymbols (forest_start s) rfl (by rw [hr0]; omega) (by omega) (L := [])
      ⟨[], List.Perm.nil, List.Pairwise.nil, .nil⟩ hv
    rw [hr0] at hshow hfv hnv
    simp only [Nat.zero_add] at hfv
    have hnl : v.node.length = s.recorded.length := by
      rw [hnv, show (startBuild s).node = [] from rfl]; simp
    have hsz := hfv.size
    obtain ⟨x, T, m, hx, hmt, hsub⟩ := mergeLoop_mergeTrees (Config.alphabet + 1) hfv hshow (by omega) (by omega)
    have hux : u = { x with treeValid := true } := by
      unfold tbBuild at hu
      rw [if_neg (fun e => h ((alphabetEmpty_iff s).mp e)), hv] at hu
      simp only [hx] at hu
      simpa using hu.symm
    have hsubu : Sub u u.root.toNat T m := by
      rw [hux]
      exact Sub.append (s := x) (l := []) (by simp) hsub
    rw [hnl] at hmt
    have hh : huffmanTree s = some T := hmt
    rw [hT', hh, hsub'.det hsubu]
    simp

end Sys2Proof.Machine
end

