-- ==== Sys2Proof/Laws/Encoder.lean ====
section
/-! SUPPORT. Laws of ENC_RUN (R211 to R213): the loop against the concatenation of codewords. -/

namespace Sys2Proof.Machine

open Sys2Proof

theorem codewordOf_none {s : State} {x : Sym} : s.codewordOf x = none ↔ (s.code x).len = 0#_ := by
  unfold State.codewordOf; split <;> simp_all

theorem codewordOf_some {s : State} {x : Sym} {p : List Digit} (h : s.codewordOf x = some p) :
    (s.code x).len ≠ 0#_ ∧ codeword (s.code x) = p ∧ (s.code x).len.toNat = p.length := by
  unfold State.codewordOf at h
  split at h
  · exact absurd h (by simp)
  · rename_i hne
    have e : codeword (s.code x) = p := by simpa using h
    refine ⟨hne, e, ?_⟩
    rw [← e]; simp [codeword]

/-- The table entries decide `codewordOf` and nothing else does. -/
theorem codewordOf_congr {s t : State} (h : s.ct = t.ct) (x : Sym) : s.codewordOf x = t.codewordOf x := by
  unfold State.codewordOf State.code; rw [h]

theorem concatCodes_congr {s t : State} (h : s.ct = t.ct) (xs : List Sym) : s.concatCodes xs = t.concatCodes xs := by
  induction xs with
  | nil => rfl
  | cons x xs ih => simp only [State.concatCodes, codewordOf_congr h, ih]

theorem concatCodes_cons {s : State} {x : Sym} {xs : List Sym} {q : List Digit}
    (h : s.concatCodes (x :: xs) = some q) :
    ∃ p r, s.codewordOf x = some p ∧ s.concatCodes xs = some r ∧ q = p ++ r := by
  simp only [State.concatCodes] at h
  cases h1 : s.codewordOf x with
  | none => simp [h1] at h
  | some p =>
    cases h2 : s.concatCodes xs with
    | none => simp [h1, h2] at h
    | some r =>
      rw [h1, h2] at h
      have e : p ++ r = q := by simpa using h
      exact ⟨p, r, rfl, rfl, e.symm⟩

theorem concatCodes_isSome {s : State} {xs : List Sym} (h : ∀ x ∈ xs, s.codewordOf x ≠ none) :
    ∃ q, s.concatCodes xs = some q := by
  induction xs with
  | nil => exact ⟨[], rfl⟩
  | cons x xs ih =>
    obtain ⟨q, hq⟩ := ih (fun y hy => h y (List.mem_cons_of_mem _ hy))
    obtain ⟨p, hp⟩ := Option.ne_none_iff_exists'.mp (h x List.mem_cons_self)
    exact ⟨p ++ q, by simp [State.concatCodes, hp, hq]⟩

/-- One index of the loop whose symbol has a codeword that fits (R211). -/
theorem encodeLoop_append {cap : Config.Capacities} {s : State} (is js : List Nat) (out q : List Digit)
    (hq : s.concatCodes (is.map s.sbAt) = some q) (hfit : out.length + q.length ≤ cap.bb) :
    encodeLoop cap s (is ++ js) out = encodeLoop cap s js (out ++ q) := by
  induction is generalizing out q with
  | nil =>
    have : [] = q := by simpa [State.concatCodes] using hq
    subst this; simp
  | cons i is ih =>
    obtain ⟨p, r, hp, hr, rfl⟩ := concatCodes_cons hq
    obtain ⟨h1, h2, h3⟩ := codewordOf_some hp
    rw [List.length_append] at hfit
    rw [List.cons_append, encodeLoop]
    simp only [h1, if_false, h2, h3]
    rw [if_neg (by omega), ih _ _ hr (by rw [List.length_append]; omega), List.append_assoc]

theorem encodeLoop_ok {cap : Config.Capacities} {s : State} (is : List Nat) (out q : List Digit)
    (hq : s.concatCodes (is.map s.sbAt) = some q) (hfit : out.length + q.length ≤ cap.bb) :
    encodeLoop cap s is out = (out ++ q, .ok) := by
  have := encodeLoop_append is [] out q hq hfit
  rwa [List.append_nil] at this

/-- Everything the loop can do: it emits the whole concatenation, or stops at the lowest index that has no codeword or
whose codeword does not fit (R211, R290). -/
theorem encodeLoop_cases (cap : Config.Capacities) (s : State) (is : List Nat) (out : List Digit)
    (h0 : out.length ≤ cap.bb) :
    (∃ q, s.concatCodes (is.map s.sbAt) = some q ∧ out.length + q.length ≤ cap.bb ∧
      encodeLoop cap s is out = (out ++ q, .ok)) ∨
    (∃ pre i post q, is = pre ++ i :: post ∧ s.concatCodes (pre.map s.sbAt) = some q ∧
      out.length + q.length ≤ cap.bb ∧ s.codewordOf (s.sbAt i) = none ∧
      encodeLoop cap s is out = (out ++ q, .fail .unknownSymbol)) ∨
    (∃ pre i post q p, is = pre ++ i :: post ∧ s.concatCodes (pre.map s.sbAt) = some q ∧
      out.length + q.length ≤ cap.bb ∧ s.codewordOf (s.sbAt i) = some p ∧
      cap.bb < out.length + q.length + p.length ∧ encodeLoop cap s is out = (out ++ q, .fail .capacity)) := by
  induction is generalizing out with
  | nil => exact .inl ⟨[], rfl, by simpa using h0, by simp [encodeLoop]⟩
  | cons i is ih =>
    cases hp : s.codewordOf (s.sbAt i) with
    | none =>
      refine .inr (.inl ⟨[], i, is, [], rfl, rfl, by simpa using h0, hp, ?_⟩)
      simp [encodeLoop, codewordOf_none.mp hp]
    | some p =>
      obtain ⟨h1, h2, h3⟩ := codewordOf_some hp
      by_cases hfit : cap.bb < out.length + p.length
      · refine .inr (.inr ⟨[], i, is, [], p, rfl, rfl, by simpa using h0, hp, by simpa using hfit, ?_⟩)
        simp [encodeLoop, h1, h3, hfit]
      · have hstep : encodeLoop cap s (i :: is) out = encodeLoop cap s is (out ++ p) := by
          rw [encodeLoop]
          simp only [h1, if_false, h2, h3]
          rw [if_neg hfit]
        rcases ih (out ++ p) (by rw [List.length_append]; omega) with
          ⟨q, a, b, c⟩ | ⟨pre, k, post, q, rfl, a, b, c, d⟩ | ⟨pre, k, post, q, p', rfl, a, b, c, d, e⟩
        · rw [List.length_append] at b
          refine .inl ⟨p ++ q, by simp [State.concatCodes, hp, a], by rw [List.length_append]; omega, ?_⟩
          rw [hstep, c, List.append_assoc]
        · rw [List.length_append] at b
          refine .inr (.inl ⟨i :: pre, k, post, p ++ q, rfl, by simp [State.concatCodes, hp, a],
            by rw [List.length_append]; omega, c, ?_⟩)
          rw [hstep, d, List.append_assoc]
        · rw [List.length_append] at b d
          refine .inr (.inr ⟨i :: pre, k, post, p ++ q, p', rfl, by simp [State.concatCodes, hp, a],
            by rw [List.length_append]; omega, c, by rw [List.length_append]; omega, ?_⟩)
          rw [hstep, e, List.append_assoc]

/-- What ENC_RUN writes (R211, R212, R214): its output, and OUT. -/
theorem encRun_frame (cap : Config.Capacities) (s : State) :
    (encRun cap s).1 = { s with bb := (encRun cap s).1.bb, bbLen := (encRun cap s).1.bbLen, out := (encRun cap s).1.out } := by
  unfold encRun
  split
  · rfl
  · dsimp only
    cases (encodeLoop cap s (List.range s.sbLen.toNat) []).2 <;> rfl

/-- ENC_RUN on a sequence whose symbols all have codewords that fit together (R211, R213). -/
theorem encRun_ok {cap : Config.Capacities} {s : State} {q : List Digit} (hs : s.sbLen.toNat ≤ cap.sb)
    (hq : s.concatCodes s.symbols = some q) (hfit : q.length ≤ cap.bb) :
    encRun cap s = ({ s with bb := s.bb.holding q, bbLen := BitVec.ofNat _ q.length,
                             out := BitVec.ofNat _ q.length }, .ok) := by
  have hl : encodeLoop cap s (List.range s.sbLen.toNat) [] = (q, .ok) := by
    have := encodeLoop_ok (cap := cap) (List.range s.sbLen.toNat) [] q hq (by simpa using hfit)
    simpa using this
  unfold encRun
  rw [if_neg (by omega), hl]
  rfl

/-- The stream after a successful ENC_RUN (R213). -/
theorem stream_holding {s t : State} {q : List Digit} (hb : t.bb = s.bb.holding q)
    (hl : t.bbLen.toNat = q.length) : t.stream = q := by
  unfold State.stream
  rw [hl]
  refine List.ext_getElem (by simp) fun i h1 h2 => ?_
  simp only [List.getElem_map, List.getElem_range, State.bbAt, hb, Buffer.holding]
  rw [Store.find_ofListFrom]
  simp [h2]

end Sys2Proof.Machine
end

