-- ==== Sys2Proof/Laws/Memory.lean ====
section
/-! SUPPORT. Reading an element after writing one, and the canonical form of all the storage (`Memory.wf`): State.reset
has it, and every operation on the tables and buffers keeps it. -/

namespace Sys2Proof.Machine

open Sys2Proof

/-! ### Read after write -/

theorem code_setCode (s : State) (x y : Sym) (e : CodeEntry) :
    (s.setCode x e).code y = if y = x then e else s.code y := by
  unfold State.code State.setCode
  split
  · subst_vars; simp
  · rename_i h
    have : y.toNat ≠ x.toNat := fun e => h (BitVec.eq_of_toNat_eq e)
    simp [Store.find_write_other _ _ this]

theorem sbAt_setSb (s : State) (i j : Nat) (v : Sym) : (s.setSb i v).sbAt j = if j = i then v else s.sbAt j := by
  unfold State.sbAt State.setSb Buffer.put
  split
  · subst_vars; simp
  · rename_i h; simp [Store.find_put_other _ h]

theorem bbAt_setBb (s : State) (i j : Nat) (v : Digit) : (s.setBb i v).bbAt j = if j = i then v else s.bbAt j := by
  unfold State.bbAt State.setBb Buffer.put
  split
  · subst_vars; simp
  · rename_i h; simp [Store.find_put_other _ h]

/-! ### The canonical form -/

theorem State.reset_wf : Memory.wf State.reset := by decide

theorem Memory.wf_congr {s t : State} (h1 : t.ft = s.ft) (h2 : t.ct = s.ct) (h3 : t.sb.cells = s.sb.cells)
    (h4 : t.bb.cells = s.bb.cells) (h5 : t.db.cells = s.db.cells) (h : Memory.wf s) : Memory.wf t := by
  rw [Memory.wf, h1, h2, h3, h4, h5]; exact h

theorem Store.tableWf_nil {α : Type} (d : α) (n : Nat) : Store.tableWf d n [] :=
  ⟨⟨List.Pairwise.nil, by simp⟩, by simp⟩

theorem Memory.wf_setCount {s : State} (x : Sym) (v : Count) (h : Memory.wf s) : Memory.wf (s.setCount x v) :=
  ⟨Store.tableWf_write v h.1 x.isLt, h.2⟩

theorem Memory.wf_setCode {s : State} (x : Sym) (e : CodeEntry) (h : Memory.wf s) : Memory.wf (s.setCode x e) :=
  ⟨h.1, Store.tableWf_write e h.2.1 x.isLt, h.2.2⟩

theorem Memory.wf_setSb {s : State} {i : Nat} (v : Sym) (h : Memory.wf s) (hi : i < Config.depths.sb) :
    Memory.wf (s.setSb i v) := ⟨h.1, h.2.1, Store.wf_put v h.2.2.1 hi, h.2.2.2⟩

theorem Memory.wf_setBb {s : State} {i : Nat} (v : Digit) (h : Memory.wf s) (hi : i < Config.depths.bb) :
    Memory.wf (s.setBb i v) := ⟨h.1, h.2.1, h.2.2.1, Store.wf_put v h.2.2.2.1 hi, h.2.2.2.2⟩

theorem Memory.wf_faClear {s : State} (h : Memory.wf s) : Memory.wf (faClear s) :=
  ⟨Store.tableWf_nil _ _, h.2⟩

theorem Memory.wf_faAdd {s : State} (x : Sym) (h : Memory.wf s) : Memory.wf (faAdd x s) := by
  unfold faAdd
  split
  · exact Memory.wf_congr rfl rfl rfl rfl rfl (Memory.wf_setCount x _ h)
  · exact Memory.wf_setCount x _ h

theorem Memory.wf_addAll {s : State} (is : List Nat) (h : Memory.wf s) :
    Memory.wf (is.foldl (fun t i => faAdd (t.sbAt i) t) s) := by
  induction is generalizing s with
  | nil => exact h
  | cons i is ih => exact ih (Memory.wf_faAdd _ h)

theorem Memory.wf_assignAll {s : State} {ps : List (Sym × List Digit)} (h : Memory.wf s) :
    Memory.wf { s with ct := assignAll ps [] } := by
  suffices ∀ (ct : Store CodeEntry), Store.tableWf absentCode Config.alphabet ct →
      Store.tableWf absentCode Config.alphabet (assignAll ps ct) from
    ⟨h.1, this [] (Store.tableWf_nil _ _), h.2.2⟩
  induction ps with
  | nil => exact fun ct hc => hc
  | cons q ps ih => exact fun ct hc => ih _ (Store.tableWf_write _ hc q.1.isLt)

theorem Memory.wf_leaveStream {s : State} {r : Result} {o : List Digit} (h : Memory.wf s)
    (ho : o.length ≤ Config.depths.bb) : Memory.wf (s.leaveStream r o) := by
  cases r with
  | ok => exact ⟨h.1, h.2.1, h.2.2.1, Store.wf_ofListFrom o 0 (by omega), h.2.2.2.2⟩
  | fail k => exact ⟨h.1, h.2.1, h.2.2.1, Store.wf_ofListFrom [] 0 (by simp), h.2.2.2.2⟩

theorem Memory.wf_leaveDecoded {s : State} {r : Result} {o : List Sym} (h : Memory.wf s)
    (ho : o.length ≤ Config.depths.db) : Memory.wf (s.leaveDecoded r o) := by
  cases r with
  | ok => exact ⟨h.1, h.2.1, h.2.2.1, h.2.2.2.1, Store.wf_ofListFrom o 0 (by omega)⟩
  | fail k => exact ⟨h.1, h.2.1, h.2.2.1, h.2.2.2.1, Store.wf_ofListFrom [] 0 (by simp)⟩

theorem encodeLoop_length (cap : Config.Capacities) (s : State) (is : List Nat) (out : List Digit)
    (h : out.length ≤ cap.bb) : (encodeLoop cap s is out).1.length ≤ cap.bb := by
  rcases encodeLoop_cases cap s is out h with ⟨q, -, b, c⟩ | ⟨pre, i, post, q, -, -, b, -, d⟩ |
    ⟨pre, i, post, q, p, -, -, b, -, -, e⟩
  · rw [c]; simpa using b
  · rw [d]; simpa using b
  · rw [e]; simpa using b

theorem decodeLoop_length (cap : Config.Capacities) (s : State) (is : List Nat) (cur : Idx) (out : List Sym)
    (h : out.length ≤ cap.db) : (decodeLoop cap s is cur out).2.1.length ≤ cap.db := by
  induction is generalizing cur out with
  | nil => exact h
  | cons i is ih =>
    rw [decodeLoop]
    dsimp only
    generalize (if (s.nodeAt cur).leaf = true then cur else childOf (s.nodeAt cur) (s.bbAt i)) = nxt
    split
    · exact h
    · split
      · split
        · exact h
        · exact ih _ _ (by simp; omega)
      · exact ih _ _ h

theorem Memory.wf_encRun {s : State} (h : Memory.wf s) : Memory.wf (encRun Config.depths s).1 := by
  unfold encRun
  split
  · exact Memory.wf_leaveStream h (Nat.zero_le _)
  · refine Memory.wf_congr rfl rfl rfl rfl rfl (Memory.wf_leaveStream h ?_)
    exact encodeLoop_length _ _ _ _ (Nat.zero_le _)

theorem Memory.wf_decRun {s : State} (h : Memory.wf s) : Memory.wf (decRun Config.depths s).1 := by
  unfold decRun
  split
  · exact Memory.wf_leaveDecoded h (Nat.zero_le _)
  · split
    · exact Memory.wf_leaveDecoded h (Nat.zero_le _)
    · refine Memory.wf_congr rfl rfl rfl rfl rfl (Memory.wf_leaveDecoded h ?_)
      exact decodeLoop_length _ _ _ _ _ (Nat.zero_le _)

theorem Memory.wf_resetEvent (s : State) : Memory.wf s.resetEvent :=
  ⟨Store.tableWf_nil _ _, Store.tableWf_nil _ _, ⟨List.Pairwise.nil, by simp [State.resetEvent]⟩,
    ⟨List.Pairwise.nil, by simp [State.resetEvent]⟩, ⟨List.Pairwise.nil, by simp [State.resetEvent]⟩⟩

/-- The row an address falls in holds it. -/
theorem mapRow_holds {a : Addr} {m : RegionRow} (h : mapRow a = some m) :
    m.base ≤ a.toNat ∧ a.toNat - m.base < m.region.size := by
  have := List.find?_some h
  simp only [RegionRow.holds, decide_eq_true_eq] at this
  omega

theorem Memory.wf_writeLoc {s : State} {r : Region} {i : Nat} (v : HostWord) (h : Memory.wf s) (hi : i < r.size) :
    Memory.wf (writeLoc r i v s) := by
  cases r with
  | ft => exact Memory.wf_setCount _ _ h
  | sb => exact Memory.wf_setSb _ h hi
  | bb => exact Memory.wf_setBb _ h hi
  | cmd | status | sbLen | bbLen | dbLen | ctLen | ctBit | db => exact Memory.wf_congr rfl rfl rfl rfl rfl h

theorem Memory.wf_memWrite {s : State} (a : Addr) (v : HostWord) (h : Memory.wf s) : Memory.wf (memWrite a v s) := by
  unfold memWrite
  cases hm : mapRow a with
  | none => exact h
  | some m =>
    dsimp only
    split
    · exact Memory.wf_writeLoc v h (mapRow_holds hm).2
    · exact h

end Sys2Proof.Machine
end

