-- ==== Sys2Proof/Laws/Build.lean ====
section
/-! SUPPORT. BUILD as a whole (R252): what it leaves, that it depends on FT alone (R180), and that a well-formed arena is
seen through NODE and ROOT only. -/

namespace Sys2Proof.Machine

open Sys2Proof

/-! ### Seen through NODE and ROOT -/

theorem TreeWf.congr {s t : State} {n : Nat} (hn : t.node = s.node) (hr : t.root = s.root) (h : TreeWf s n) :
    TreeWf t n := by
  obtain ⟨a, b, c, d, e, f, g, i, j, k⟩ := h
  refine ⟨a, b, by rw [hn]; exact c, ?_, ?_, by rw [hr]; exact f, ?_, by rw [hn]; exact i, ?_, ?_⟩
  · simp only [hn]; exact d
  · simp only [hn]; exact e
  · simp only [hn]; exact g
  · intro q hq hl
    simp only [hn] at hq hl ⊢
    have hc := g q hq hl
    have hat : ∀ x : Idx, x.toNat < s.node.length → t.nodeAt x = s.nodeAt x := by
      intro x hx
      rw [nodeAt_eq hx, nodeAt_eq (by rw [hn]; exact hx)]
      simp only [hn]
    rw [hat _ (by omega), hat _ (by omega)]
    exact j q hq hl
  · simp only [hn]; exact k

theorem TreeWf.tree_congr {s t : State} {n : Nat} (hn : t.node = s.node) (hr : t.root = s.root) (h : TreeWf s n) :
    t.tree = s.tree := by
  obtain ⟨T, m, hT, hsub, -⟩ := h.tree
  obtain ⟨T', m', hT', hsub', -⟩ := (h.congr hn hr).tree
  have := hsub.append (u := t) (l := []) (by simp [hn])
  rw [hr] at hsub'
  rw [hT, hT', this.det hsub']

/-! ### TB_BUILD depends on FT only (R180) -/

/-- What TB_BUILD works on. -/
def SameWork (s t : State) : Prop := t.heap = s.heap ∧ t.seq = s.seq ∧ t.node = s.node ∧ t.k = s.k

theorem SameWork.addNode {s s' t : State} {nd : Node} (h : SameWork s s') (ht : addNode nd s = (t, .ok)) :
    ∃ t', Machine.addNode nd s' = (t', .ok) ∧ SameWork t t' := by
  obtain ⟨h1, h2, h3, h4⟩ := h
  by_cases hf : Config.heapDepth ≤ s.heap.length ∨ s.seq = BitVec.allOnes _
  · have e : pqPush s.k nd.weight (s.pushNode nd) = (s.pushNode nd, .fail .capacity) := if_pos hf
    rw [Machine.addNode, e] at ht
    simp at ht
  · have hf' : ¬ (Config.heapDepth ≤ s'.heap.length ∨ s'.seq = BitVec.allOnes _) := by rw [h1, h2]; exact hf
    have e : pqPush s.k nd.weight (s.pushNode nd) = _ := if_neg hf
    have e' : pqPush s'.k nd.weight (s'.pushNode nd) = _ := if_neg hf'
    rw [Machine.addNode, e] at ht
    rw [Machine.addNode, e']
    simp only [Prod.mk.injEq, and_true] at ht
    subst ht
    refine ⟨_, rfl, ?_, ?_, ?_, ?_⟩
    · simp only [State.pushNode, h1, h2, h4]
    · simp only [State.pushNode, h2]
    · simp only [State.pushNode, h3]
    · simp only [State.pushNode, h4]

theorem SameWork.addLeaves (xs : List Sym) {s s' t : State} (h : SameWork s s')
    (hc : ∀ x, s'.count x = s.count x) (ht : addLeaves xs s = (t, .ok)) :
    ∃ t', Machine.addLeaves xs s' = (t', .ok) ∧ SameWork t t' := by
  induction xs generalizing s s' with
  | nil =>
    simp only [Machine.addLeaves, Prod.mk.injEq, and_true] at ht
    subst ht
    exact ⟨s', rfl, h⟩
  | cons x xs ih =>
    rw [Machine.addLeaves] at ht ⊢
    rw [hc]
    by_cases hx : s.count x = 0#_
    · rw [if_pos hx] at ht ⊢
      exact ih h hc ht
    · rw [if_neg hx] at ht ⊢
      cases hu : Machine.addNode (leafNode x (s.count x)) s with
      | mk u r =>
        cases r with
        | fail k => rw [hu] at ht; simp at ht
        | ok =>
          rw [hu] at ht
          obtain ⟨u', hu', hw⟩ := h.addNode hu
          rw [hu']
          have cnt : ∀ (n : Node) (a b : State), Machine.addNode n a = (b, .ok) → ∀ y, b.count y = a.count y := by
            intro n a b hab y
            unfold Machine.addNode at hab
            rcases pqPush_cases a.k n.weight (a.pushNode n) with ⟨-, he⟩ | ⟨-, -, g, -, he⟩
            · rw [he] at hab; simp at hab
            · rw [he] at hab
              simp only [Prod.mk.injEq, and_true] at hab
              subst hab; rfl
          exact ih hw (fun y => by rw [cnt _ _ _ hu, cnt _ _ _ hu', hc]) ht

theorem SameWork.pop {s s' : State} (h : SameWork s s') :
    (pqPop s').2 = (pqPop s).2 ∧ SameWork (pqPop s).1 (pqPop s').1 := by
  obtain ⟨h1, h2, h3, h4⟩ := h
  unfold pqPop
  rw [h1]
  cases s.heap with
  | nil => exact ⟨rfl, h1, h2, h3, h4⟩
  | cons e tl => exact ⟨rfl, rfl, h2, h3, h4⟩

theorem SameWork.mergeLoop (f : Nat) {s s' t : State} (h : SameWork s s') (ht : mergeLoop f s = .ok (t, .ok)) :
    ∃ t', Machine.mergeLoop f s' = .ok (t', .ok) ∧ SameWork t t' ∧ t'.root = t.root := by
  induction f generalizing s s' with
  | zero => simp [Machine.mergeLoop] at ht
  | succ f ih =>
    rw [Machine.mergeLoop] at ht ⊢
    obtain ⟨e1, w1⟩ := h.pop
    cases hp : pqPop s with
    | mk u a =>
      cases hp' : pqPop s' with
      | mk u' a' =>
        rw [hp] at e1 w1 ht
        rw [hp'] at e1 w1
        simp only at e1 w1
        subst e1
        cases a' with
        | none => simp at ht
        | some a =>
          simp only at ht ⊢
          have hemp : pqIsEmpty u' = pqIsEmpty u := by simp [pqIsEmpty, State.queueEmpty, w1.1]
          rw [hemp]
          by_cases hem : pqIsEmpty u = true
          · rw [if_pos hem] at ht ⊢
            simp only [Except.ok.injEq, Prod.mk.injEq, and_true] at ht
            subst ht
            exact ⟨_, rfl, ⟨w1.1, w1.2.1, w1.2.2.1, w1.2.2.2⟩, rfl⟩
          · rw [if_neg hem] at ht ⊢
            obtain ⟨e2, w2⟩ := w1.pop
            cases hq : pqPop u with
            | mk v b =>
              cases hq' : pqPop u' with
              | mk v' b' =>
                rw [hq] at e2 w2 ht
                rw [hq'] at e2 w2
                simp only at e2 w2
                subst e2
                cases b' with
                | none => simp at ht
                | some b =>
                  simp only at ht ⊢
                  cases hx : Machine.addNode (mergeNode a b) v with
                  | mk x r =>
                    cases r with
                    | fail k => rw [hx] at ht; simp at ht
                    | ok =>
                      rw [hx] at ht
                      obtain ⟨x', hx', w3⟩ := w2.addNode hx
                      rw [hx']
                      exact ih w3 ht

/-- Two builds from the same frequencies leave the same tree, in the same slots (R180). -/
theorem tbBuild_determined {s s' t : State} (hc : ∀ x, s'.count x = s.count x) (ht : tbBuild s = .ok (t, .ok)) :
    ∃ t', tbBuild s' = .ok (t', .ok) ∧ SameWork t t' ∧ t'.root = t.root := by
  unfold tbBuild at ht ⊢
  have ha : s'.alphabetEmpty = s.alphabetEmpty := by simp [State.alphabetEmpty, hc]
  rw [ha]
  by_cases he : s.alphabetEmpty = true
  · rw [if_pos he] at ht; simp at ht
  · rw [if_neg he] at ht ⊢
    cases hu : addLeaves allSymbols (startBuild s) with
    | mk u r =>
      cases r with
      | fail k => rw [hu] at ht; simp at ht
      | ok =>
        rw [hu] at ht
        obtain ⟨u', hu', w1⟩ := SameWork.addLeaves allSymbols (s := startBuild s) (s' := startBuild s')
          ⟨rfl, rfl, rfl, rfl⟩ (fun x => hc x) hu
        rw [hu']
        simp only at ht ⊢
        cases hm : mergeLoop (Config.alphabet + 1) u with
        | error f => rw [hm] at ht; simp at ht
        | ok p =>
          obtain ⟨v, r⟩ := p
          rw [hm] at ht
          cases r with
          | fail k => simp at ht
          | ok =>
            simp only [Except.ok.injEq, Prod.mk.injEq, and_true] at ht
            subst ht
            obtain ⟨v', hv', w2, hr⟩ := w1.mergeLoop _ hm
            rw [hv']
            exact ⟨_, rfl, ⟨w2.1, w2.2.1, w2.2.2.1, w2.2.2.2⟩, hr⟩

/-! ### BUILD -/

/-- Everything BUILD's two micro-operations can do, from every state (R252). -/
theorem runBuild_spec (s : State) :
    (s.recorded = [] ∧ runBuild s = .ok (s, .fail .emptyAlphabet)) ∨
    (s.recorded ≠ [] ∧ ∃ t T, runBuild s = .ok (t, .ok) ∧ t.treeValid = true ∧ TreeWf t s.recorded.length ∧
      t.node.take s.recorded.length = s.recorded.map (fun x => leafNode x (s.count x)) ∧
      t.tree = some T ∧ huffmanTree s = some T ∧ (∀ x, t.codewordOf x = T.codes.lookup x) ∧ CodesPadded t ∧
      t.ct = assignAll T.codes [] ∧ T.symbols.Nodup ∧ T.symbols.Perm s.recorded ∧ T.depth < s.recorded.length ∧
      t.heap = [] ∧ t.seq.toNat = 2 * s.recorded.length - 1 ∧ t.k.toNat = 2 * s.recorded.length - 1 ∧
      (t.nodeAt t.root).weight.toNat = countSum s s.recorded ∧ t.dstack = [] ∧
      t = { s with node := t.node, root := t.root, treeValid := t.treeValid, heap := t.heap, seq := t.seq, k := t.k,
                   ct := t.ct, path := t.path, depth := t.depth, dstack := t.dstack }) := by
  rcases tbBuild_spec s with ⟨he, hb⟩ | ⟨hne, u, hu, hv, hwf, hleaves, hheap, hseq, hk, hw, hframe⟩
  · exact .inl ⟨he, by rw [runBuild, hb]⟩
  · refine .inr ⟨hne, ?_⟩
    obtain ⟨t, T, ht, hT, hct, hcodes, hpad, hds, hf⟩ := cgGen_spec hv hwf
    obtain ⟨htree, -⟩ := tbBuild_tree hne hu
    obtain ⟨T', m, hT', -, -, hdepth, hnd, hperm⟩ := hwf.tree
    obtain rfl : T = T' := by rw [hT] at hT'; exact Option.some.inj hT'
    rw [hleaves] at hperm
    have hnode : t.node = u.node := by rw [hf]
    have hroot : t.root = u.root := by rw [hf]
    refine ⟨t, T, by rw [runBuild, hu]; exact ht, by rw [hf]; exact hv, hwf.congr hnode hroot, by rw [hnode]; exact hleaves,
      by rw [hwf.tree_congr hnode hroot]; exact hT, by rw [← htree]; exact hT, hcodes, hpad, hct, hnd, ?_, hdepth,
      by rw [hf]; exact hheap, by rw [hf]; exact hseq, by rw [hf]; exact hk, ?_, hds, ?_⟩
    · have e : (s.recorded.map (fun x => leafNode x (s.count x))).map Node.sym = s.recorded := by
        rw [List.map_map]; exact List.map_id _
      rw [e] at hperm; exact hperm
    · have : t.nodeAt t.root = u.nodeAt u.root := by rw [hf]; rfl
      rw [this]; exact hw
    · rw [hf, hframe]

end Sys2Proof.Machine
end

