-- ==== Sys2Proof/Laws/Decoder.lean ====
section
/-! SUPPORT. Laws of DEC_RUN (R231 to R238): the loop against the walk of the abstract tree, and the round trip (R235). -/

namespace Sys2Proof.Machine

open Sys2Proof

/-- Where the walk of the arena stands, as a place in the abstract tree `T`: at the root, or at an internal node below
it. -/
structure WalkAt (s : State) (T : Tree) (cur : Idx) (c : Tree) : Prop where
  sub : ∃ m, Sub s cur.toNat c m
  place : (cur = s.root ∧ c = T) ∨ (cur ≠ s.root ∧ c.size < T.size ∧ ∃ w l r, c = .node w l r)

theorem WalkAt.root_iff {s : State} {T c : Tree} {cur : Idx} (h : WalkAt s T cur c) : cur = s.root ↔ c = T := by
  rcases h.place with ⟨h1, h2⟩ | ⟨h1, h2, -⟩
  · exact ⟨fun _ => h2, fun _ => h1⟩
  · exact ⟨fun e => absurd e h1, fun e => by rw [e] at h2; omega⟩

/-- The child a digit leads to (R231): an emitted leaf, or an internal node where the walk goes on. -/
theorem WalkAt.child {s : State} {n : Nat} (hw : TreeWf s n) {T : Tree} {cur : Idx} {w : Weight} {l r : Tree}
    (h : WalkAt s T cur (.node w l r)) (b : Digit) :
    (s.nodeAt cur).leaf = false ∧
    ((∃ x v, (if b then r else l) = .leaf x v ∧ (s.nodeAt (childOf (s.nodeAt cur) b)).leaf = true ∧
        (s.nodeAt (childOf (s.nodeAt cur) b)).sym = x) ∨
     (∃ v l' r', (if b then r else l) = .node v l' r' ∧ (s.nodeAt (childOf (s.nodeAt cur) b)).leaf = false ∧
        WalkAt s T (childOf (s.nodeAt cur) b) (.node v l' r'))) := by
  obtain ⟨m, hs⟩ := h.sub
  have hsize : (Tree.node w l r).size ≤ T.size := by
    rcases h.place with ⟨-, h2⟩ | ⟨-, h2, -⟩
    · rw [h2]
    · omega
  have hslots := hw.slots
  have hroot := hw.root_eq
  cases hs with
  | node _ hk hl _ _ ml mr hsl hsr =>
    have hnd : s.nodeAt cur = s.node[cur.toNat] := nodeAt_eq hk
    have hc := hw.children _ hk hl
    have hsub : ∃ m', Sub s (childOf (s.nodeAt cur) b).toNat (if b then r else l) m' := by
      rw [hnd]; cases b
      · exact ⟨ml, hsl⟩
      · exact ⟨mr, hsr⟩
    have hne : childOf (s.nodeAt cur) b ≠ s.root := by
      intro e
      have e := congrArg BitVec.toNat e
      rw [hnd] at e
      cases b <;> simp only [childOf, Bool.false_eq_true, if_false, if_true] at e <;> omega
    have hlt : (if b then r else l : Tree).size < T.size := by
      simp only [Tree.size] at hsize
      cases b <;> simp <;> omega
    refine ⟨by rw [hnd, hl], ?_⟩
    obtain ⟨m', hs'⟩ := hsub
    have hk' := hs'.lt
    have hnd' : s.nodeAt (childOf (s.nodeAt cur) b) = s.node[(childOf (s.nodeAt cur) b).toNat] := nodeAt_eq hk'
    generalize (if b then r else l : Tree) = c at hs' hlt
    cases hs' with
    | leaf _ hk2 hl2 => exact .inl ⟨_, _, rfl, by rw [hnd', hl2], by rw [hnd']⟩
    | node _ hk2 hl2 tl tr ml2 mr2 h1 h2 =>
      exact .inr ⟨_, _, _, rfl, by rw [hnd', hl2], ⟨⟨_, .node _ hk2 hl2 tl tr ml2 mr2 h1 h2⟩,
        .inr ⟨hne, hlt, _, _, _, rfl⟩⟩⟩

/-- Everything DEC_RUN's loop can do on a well-formed arena: it emits what the walk of the abstract tree emits, unless
that is more than fits (R231, R232, R233, R290). -/
theorem decodeLoop_walk {s : State} {n : Nat} (hw : TreeWf s n) {T : Tree} {mT : List Nat}
    (hT : Sub s s.root.toNat T mT) (cap : Config.Capacities) (is : List Nat) (cur : Idx) (c : Tree)
    (h : WalkAt s T cur c) (out : List Sym) (hout : out.length ≤ cap.db) :
    if cap.db < out.length + (T.decodeWalk c (is.map s.bbAt)).1.length then
      ∃ e o, decodeLoop cap s is cur out = (e, o, .fail .capacity)
    else
      ∃ e, ((T.decodeWalk c (is.map s.bbAt)).2 = true → e = s.root) ∧
        decodeLoop cap s is cur out = (e, out ++ (T.decodeWalk c (is.map s.bbAt)).1,
          if (T.decodeWalk c (is.map s.bbAt)).2 then .ok else .fail .malformedStream) := by
  have hat : WalkAt s T s.root T := ⟨⟨mT, hT⟩, .inl ⟨rfl, rfl⟩⟩
  induction is generalizing cur c out with
  | nil =>
    rw [List.map_nil, Tree.decodeWalk]
    rw [if_neg (by simp; omega)]
    refine ⟨cur, fun e => h.root_iff.mpr (of_decide_eq_true e), ?_⟩
    rw [decodeLoop, List.append_nil]
    by_cases hc : c = T
    · simp [hc, h.root_iff.mpr hc]
    · have : cur ≠ s.root := fun e => hc (h.root_iff.mp e)
      simp [hc, this]
  | cons i is ih =>
    rw [List.map_cons]
    have emit : ∀ x, (hx : out.length = cap.db →
          decodeLoop cap s (i :: is) cur out = (cur, out, .fail .capacity)) →
        (out.length ≠ cap.db → decodeLoop cap s (i :: is) cur out = decodeLoop cap s is s.root (out ++ [x])) →
        T.decodeWalk c (s.bbAt i :: is.map s.bbAt) =
          (x :: (T.decodeWalk T (is.map s.bbAt)).1, (T.decodeWalk T (is.map s.bbAt)).2) →
        if cap.db < out.length + (T.decodeWalk c (s.bbAt i :: is.map s.bbAt)).1.length then
          ∃ e o, decodeLoop cap s (i :: is) cur out = (e, o, .fail .capacity)
        else
          ∃ e, ((T.decodeWalk c (s.bbAt i :: is.map s.bbAt)).2 = true → e = s.root) ∧
            decodeLoop cap s (i :: is) cur out = (e, out ++ (T.decodeWalk c (s.bbAt i :: is.map s.bbAt)).1,
              if (T.decodeWalk c (s.bbAt i :: is.map s.bbAt)).2 then .ok else .fail .malformedStream) := by
      intro x hfull hroom hwalk
      rw [hwalk]
      dsimp only
      by_cases hf : out.length = cap.db
      · rw [if_pos (by simp; omega)]
        exact ⟨_, _, hfull hf⟩
      · have := ih s.root T hat (out ++ [x]) (by simp; omega)
        rw [hroom hf]
        simp only [List.length_append, List.length_cons, List.length_nil, List.append_assoc,
          List.singleton_append, Nat.zero_add] at this ⊢
        by_cases hc : cap.db < out.length + 1 + (T.decodeWalk T (is.map s.bbAt)).1.length
        · rw [if_pos hc] at this
          rw [if_pos (by omega)]
          exact this
        · rw [if_neg hc] at this
          rw [if_neg (by omega)]
          exact this
    cases c with
    | leaf x v =>
      rcases h.place with ⟨hr, hcT⟩ | ⟨-, -, w, l, r, hno⟩
      · obtain ⟨m, hs⟩ := h.sub
        cases hs with
        | leaf _ hk hl =>
          have hnd : s.nodeAt cur = s.node[cur.toNat] := nodeAt_eq hk
          cases hb : s.bbAt i with
          | true =>
            rw [Tree.decodeWalk, if_pos rfl, if_neg (by simp; omega)]
            refine ⟨cur, by simp, ?_⟩
            rw [decodeLoop]
            simp [hnd, hl, hb]
          | false =>
            have hstep : decodeLoop cap s (i :: is) cur out =
                if out.length = cap.db then (cur, out, .fail .capacity)
                else decodeLoop cap s is s.root (out ++ [s.node[cur.toNat].sym]) := by
              rw [decodeLoop]
              simp [hnd, hl, hb]
            have := emit s.node[cur.toNat].sym (fun hf => by rw [hstep, if_pos hf])
              (fun hf => by rw [hstep, if_neg hf]) (by rw [hb, Tree.decodeWalk, if_neg (by simp)])
            rw [hb] at this
            exact this
      · exact absurd hno (by simp)
    | node w l r =>
      obtain ⟨hl, hch⟩ := h.child hw (s.bbAt i)
      have hstep : decodeLoop cap s (i :: is) cur out =
          if (s.nodeAt (childOf (s.nodeAt cur) (s.bbAt i))).leaf then
            if out.length = cap.db then (cur, out, .fail .capacity)
            else decodeLoop cap s is s.root (out ++ [(s.nodeAt (childOf (s.nodeAt cur) (s.bbAt i))).sym])
          else decodeLoop cap s is (childOf (s.nodeAt cur) (s.bbAt i)) out := by
        rw [decodeLoop]
        simp [hl]
      rcases hch with ⟨x, v, h1, h2, h3⟩ | ⟨v, l', r', h1, h2, h3⟩
      · rw [h2, if_pos rfl, h3] at hstep
        exact emit x (fun hf => by rw [hstep, if_pos hf]) (fun hf => by rw [hstep, if_neg hf])
          (by rw [Tree.decodeWalk, h1])
      · rw [h2, if_neg (by simp)] at hstep
        have hwalk : T.decodeWalk (.node w l r) (s.bbAt i :: is.map s.bbAt) =
            T.decodeWalk (.node v l' r') (is.map s.bbAt) := by rw [Tree.decodeWalk, h1]
        rw [hwalk, hstep]
        exact ih _ _ h3 out hout

/-- What DEC_RUN writes (R231, R234): its output, CUR and OUT. -/
theorem decRun_frame (cap : Config.Capacities) (s : State) :
    (decRun cap s).1 = { s with db := (decRun cap s).1.db, dbLen := (decRun cap s).1.dbLen,
                                cur := (decRun cap s).1.cur, out := (decRun cap s).1.out } := by
  unfold decRun
  split
  · rfl
  · split
    · rfl
    · dsimp only
      cases (decodeLoop cap s (List.range s.bbLen.toNat) s.root []).2.2 <;> rfl

/-- Everything DEC_RUN can do on a valid tree and a stream that fits its buffer (R231). -/
theorem decRun_spec {cap : Config.Capacities} {s : State} {n : Nat} (hv : s.treeValid = true) (hw : TreeWf s n)
    (hl : s.bbLen.toNat ≤ cap.bb) :
    ∃ T, s.tree = some T ∧
      (cap.db < (T.decodeWalk T s.stream).1.length → (decRun cap s).2 = .fail .capacity) ∧
      ((T.decodeWalk T s.stream).1.length ≤ cap.db → (T.decodeWalk T s.stream).2 = false →
        (decRun cap s).2 = .fail .malformedStream) ∧
      ((T.decodeWalk T s.stream).1.length ≤ cap.db → (T.decodeWalk T s.stream).2 = true →
        decRun cap s = ({ s with db := s.db.holding (T.decodeWalk T s.stream).1,
                                 dbLen := BitVec.ofNat _ (T.decodeWalk T s.stream).1.length, cur := s.root,
                                 out := BitVec.ofNat _ (T.decodeWalk T s.stream).1.length }, .ok)) := by
  obtain ⟨T, m, hT, hsub, -⟩ := hw.tree
  have hrun : decRun cap s = ({ s.leaveDecoded (decodeLoop cap s (List.range s.bbLen.toNat) s.root []).2.2
        (decodeLoop cap s (List.range s.bbLen.toNat) s.root []).2.1 with
      cur := (decodeLoop cap s (List.range s.bbLen.toNat) s.root []).1
      out := BitVec.ofNat _ (decodeLoop cap s (List.range s.bbLen.toNat) s.root []).2.1.length },
      (decodeLoop cap s (List.range s.bbLen.toNat) s.root []).2.2) := by
    unfold decRun
    rw [if_neg (by simp [hv]), if_neg (by omega)]
  have key := decodeLoop_walk hw hsub cap (List.range s.bbLen.toNat) s.root T ⟨⟨m, hsub⟩, .inl ⟨rfl, rfl⟩⟩ []
    (Nat.zero_le _)
  change if cap.db < _ + (T.decodeWalk T s.stream).1.length then _ else ∃ e, ((T.decodeWalk T s.stream).2 = true → _) ∧
    _ = (e, [] ++ (T.decodeWalk T s.stream).1, if (T.decodeWalk T s.stream).2 then _ else _) at key
  simp only [List.length_nil, Nat.zero_add, List.nil_append] at key
  refine ⟨T, hT, ?_, ?_, ?_⟩
  · intro hc
    rw [if_pos hc] at key
    obtain ⟨e, o, h⟩ := key
    rw [hrun, h]
  · intro hc hf
    rw [if_neg (by omega)] at key
    obtain ⟨e, -, h⟩ := key
    rw [hrun, h, hf]
    rfl
  · intro hc hf
    rw [if_neg (by omega)] at key
    obtain ⟨e, he, h⟩ := key
    rw [hrun, h, hf, he hf]
    rfl

/-- The decoded sequence after a successful DEC_RUN (R231). -/
theorem decoded_holding {s t : State} {xs : List Sym} (hb : t.db = s.db.holding xs)
    (hl : t.dbLen.toNat = xs.length) : t.decoded = xs := by
  unfold State.decoded
  rw [hl]
  refine List.ext_getElem (by simp) fun i h1 h2 => ?_
  simp only [List.getElem_map, List.getElem_range, State.dbAt, hb, Buffer.holding]
  rw [Store.find_ofListFrom]
  simp [h2]

/-! ### Round trip -/

/-- A root path leads the walk to its own leaf and back to the root (R235). -/
theorem Tree.decodeWalk_path (T : Tree) (w : Weight) (l r : Tree) (p q : List Digit) (x : Sym)
    (h : (x, p ++ q) ∈ (Tree.node w l r).paths p) (bs : List Digit) :
    T.decodeWalk (.node w l r) (q ++ bs) = (x :: (T.decodeWalk T bs).1, (T.decodeWalk T bs).2) := by
  generalize ht : Tree.node w l r = t at h
  induction t generalizing w l r p q with
  | leaf => exact absurd ht (by simp)
  | node w' l' r' il ir =>
    obtain ⟨rfl, rfl, rfl⟩ := Tree.node.inj ht
    simp only [Tree.paths, List.mem_append] at h
    have side : ∀ (b : Digit) (c : Tree), (if b then r else l) = c →
        (∀ (w : Weight) (l r : Tree) (p q : List Digit), Tree.node w l r = c → (x, p ++ q) ∈ c.paths p →
          T.decodeWalk (.node w l r) (q ++ bs) = (x :: (T.decodeWalk T bs).1, (T.decodeWalk T bs).2)) →
        (x, p ++ q) ∈ c.paths (p ++ [b]) →
        T.decodeWalk (.node w l r) (q ++ bs) = (x :: (T.decodeWalk T bs).1, (T.decodeWalk T bs).2) := by
      intro b c hc hind hmem
      obtain ⟨z, hz, -⟩ := c.paths_prefix _ _ hmem
      simp only [List.append_assoc, List.append_cancel_left_eq] at hz
      subst hz
      rw [List.singleton_append, List.cons_append, Tree.decodeWalk, hc]
      cases c with
      | leaf y v =>
        simp only [Tree.paths, List.mem_singleton, Prod.mk.injEq] at hmem
        obtain ⟨rfl, hz⟩ := hmem
        simp only [List.append_cancel_left_eq, List.singleton_append, List.cons.injEq, true_and] at hz
        subst hz
        rfl
      | node w2 l2 r2 =>
        refine hind w2 l2 r2 (p ++ [b]) z rfl ?_
        rw [List.append_assoc]
        exact hmem
    rcases h with h | h
    · exact side false l rfl (fun w2 l2 r2 p2 q2 e h2 => by subst e; exact il w2 l2 r2 p2 q2 rfl h2) h
    · exact side true r rfl (fun w2 l2 r2 p2 q2 e h2 => by subst e; exact ir w2 l2 r2 p2 q2 rfl h2) h

/-- One codeword at the root emits its symbol (R233, R235). -/
theorem Tree.decodeWalk_code (T : Tree) {x : Sym} {p : List Digit} (h : T.codes.lookup x = some p) (bs : List Digit) :
    T.decodeWalk T (p ++ bs) = (x :: (T.decodeWalk T bs).1, (T.decodeWalk T bs).2) := by
  have hm := lookup_mem h
  cases T with
  | leaf y v =>
    simp only [Tree.codes, List.mem_singleton, Prod.mk.injEq] at hm
    obtain ⟨rfl, rfl⟩ := hm
    rw [List.singleton_append, Tree.decodeWalk, if_neg (by simp)]
  | node w l r => exact Tree.decodeWalk_path _ w l r [] p x hm bs

/-- R235 on the abstract tree: decoding the concatenation of the codewords of `xs` gives `xs`. -/
theorem decodeWalk_concatCodes {s : State} {T : Tree} (hct : ∀ x, s.codewordOf x = T.codes.lookup x) (xs : List Sym)
    (q : List Digit) (hq : s.concatCodes xs = some q) : T.decodeWalk T q = (xs, true) := by
  induction xs generalizing q with
  | nil =>
    have : [] = q := by simpa [State.concatCodes] using hq
    subst this; simp [Tree.decodeWalk]
  | cons x xs ih =>
    obtain ⟨p, r, hp, hr, rfl⟩ := concatCodes_cons hq
    rw [hct] at hp
    rw [T.decodeWalk_code hp, ih r hr]

end Sys2Proof.Machine
end

