-- ==== Sys2Proof/Laws/FrequencyAccumulator.lean ====
section
/-! SUPPORT. Laws of the frequency_accumulator (R121, R122, R126) and of COUNT (R251). -/

namespace Sys2Proof.Machine

open Sys2Proof

theorem count_setCount (s : State) (x y : Sym) (v : Count) :
    (s.setCount x v).count y = if y = x then v else s.count y := by
  unfold State.count State.setCount
  split
  · subst_vars; simp
  · rename_i h
    have : y.toNat ≠ x.toNat := fun e => h (BitVec.eq_of_toNat_eq e)
    simp [Store.find_write_other _ _ this]

@[simp] theorem count_faClear (s : State) (y : Sym) : (faClear s).count y = 0#_ := rfl

/-- FA_ADD short of the largest count (R122). -/
theorem faAdd_eq {s : State} {x : Sym} (h : s.count x ≠ BitVec.allOnes _) :
    faAdd x s = s.setCount x (s.count x + 1#_) := if_neg h

/-- FA_ADD writes FT only; the model's own counter moves in the case R125 leaves open. -/
theorem faAdd_frame (x : Sym) (s : State) :
    faAdd x s = { s with ft := (faAdd x s).ft, free := (faAdd x s).free } := by
  unfold faAdd; split <;> rfl

/-- Adding a sequence of symbols that no count overflows on (R126 a). -/
theorem addAll_spec (xs : List Sym) (s : State) (h : ∀ y, (s.count y).toNat + xs.count y < 2 ^ 32) :
    (∀ y, ((xs.foldl (fun t x => faAdd x t) s).count y).toNat = (s.count y).toNat + xs.count y) ∧
    xs.foldl (fun t x => faAdd x t) s = { s with ft := (xs.foldl (fun t x => faAdd x t) s).ft } := by
  induction xs generalizing s with
  | nil => exact ⟨fun y => rfl, rfl⟩
  | cons x xs ih =>
    have hx := h x
    rw [List.count_cons_self] at hx
    have hne : s.count x ≠ BitVec.allOnes _ := by
      intro e
      rw [e, BitVec.toNat_allOnes] at hx
      have := Config.widths
      omega
    have hstep : ∀ y, ((faAdd x s).count y).toNat = (s.count y).toNat + if y = x then 1 else 0 := by
      intro y
      rw [faAdd_eq hne, count_setCount]
      split
      · subst_vars
        rw [BitVec.toNat_add]
        simp only [BitVec.toNat_ofNat, Config.two_pow_cntW]
        omega
      · rfl
    have hcount : ∀ y, (x :: xs).count y = xs.count y + if y = x then 1 else 0 := by
      intro y
      rw [List.count_cons]
      by_cases hy : y = x
      · simp [hy]
      · simp [hy, Ne.symm hy]
    obtain ⟨h1, h2⟩ := ih (faAdd x s) (by
      intro y
      rw [hstep]
      have := h y
      rw [hcount] at this
      omega)
    rw [List.foldl_cons]
    refine ⟨fun y => ?_, ?_⟩
    · rw [h1, hstep, hcount]; omega
    · rw [h2, faAdd_eq hne]; rfl

theorem foldl_faAdd_sbAt (is : List Nat) (s t : State) (h : t.sb = s.sb) :
    is.foldl (fun u i => faAdd (u.sbAt i) u) t = (is.map s.sbAt).foldl (fun u x => faAdd x u) t := by
  induction is generalizing t with
  | nil => rfl
  | cons i is ih =>
    have hi : t.sbAt i = s.sbAt i := by unfold State.sbAt; rw [h]
    rw [List.foldl_cons, List.map_cons, List.foldl_cons, hi]
    exact ih _ (by rw [faAdd_frame]; exact h)

@[simp] theorem symbols_length (s : State) : s.symbols.length = s.sbLen.toNat := by simp [State.symbols]

/-- Everything COUNT's micro-operations can do (R251). -/
theorem runCount_spec (cap : Config.Capacities) (s : State) :
    (cap.sb < s.sbLen.toNat ∧ runCount cap s = (s, .fail .capacity)) ∨
    (s.sbLen.toNat ≤ cap.sb ∧ ∃ t, runCount cap s = (t, .ok) ∧ (∀ y, (t.count y).toNat = s.symbols.count y) ∧
      t = { s with ft := t.ft }) := by
  unfold runCount
  by_cases hl : cap.sb < s.sbLen.toNat
  · exact .inl ⟨hl, by rw [if_pos hl]⟩
  · refine .inr ⟨by omega, _, by rw [if_neg hl], ?_, ?_⟩
    all_goals
      rw [foldl_faAdd_sbAt _ s (faClear s) rfl]
      obtain ⟨h1, h2⟩ := addAll_spec s.symbols (faClear s) (by
        intro y
        have := List.count_le_length (a := y) (l := s.symbols)
        rw [symbols_length] at this
        simp
        (have := Config.widths; omega))
    · intro y
      exact (h1 y).trans (by simp)
    · exact h2

end Sys2Proof.Machine
end

