-- ==== Sys2Proof/Laws/HostAccess.lean ====
section
/-! SUPPORT. Laws of the host address space (R61, R65): which region an address falls in, and where a location lies. -/

namespace Sys2Proof.Machine

open Sys2Proof

/-- The row of the map that a region has (R61). -/
def rowOf : Region → RegionRow
  | .cmd => { region := .cmd, base := 0x000000, readable := false, writable := true }
  | .status => { region := .status, base := 0x000001, readable := true, writable := false }
  | .sbLen => { region := .sbLen, base := 0x000002, readable := true, writable := true }
  | .bbLen => { region := .bbLen, base := 0x000003, readable := true, writable := true }
  | .dbLen => { region := .dbLen, base := 0x000004, readable := true, writable := false }
  | .ft => { region := .ft, base := 0x000100, readable := true, writable := true }
  | .ctLen => { region := .ctLen, base := 0x000200, readable := true, writable := false }
  | .ctBit => { region := .ctBit, base := 0x010000, readable := true, writable := false }
  | .sb => { region := .sb, base := 0x100000, readable := true, writable := true }
  | .bb => { region := .bb, base := 0x200000, readable := true, writable := true }
  | .db => { region := .db, base := 0x300000, readable := true, writable := false }

/-- The numbers of locations of R61. -/
theorem Region.size_eq (r : Region) : r.size =
    match r with
    | .cmd | .status | .sbLen | .bbLen | .dbLen => 1
    | .ft | .ctLen => 256
    | .ctBit => 65536
    | .sb | .db => 4096
    | .bb => 32768 := by cases r <;> rfl

theorem regionBase_eq (r : Region) : regionBase r = (rowOf r).base := by cases r <;> rfl

theorem rowOf_region (r : Region) : (rowOf r).region = r := by cases r <;> rfl

theorem memoryMap_mem {m : RegionRow} (h : m ∈ memoryMap) : m = rowOf m.region := by
  revert m; decide

/-- Where a location lies (R61). -/
theorem regionAddress_toNat {r : Region} {i : Nat} (h : i < r.size) :
    (regionAddress r i).toNat = (rowOf r).base + i := by
  rw [regionAddress, regionBase_eq, BitVec.toNat_ofNat]
  refine Nat.mod_eq_of_lt ?_
  cases r <;> simp only [Region.size_eq, rowOf] at h ⊢ <;> omega

/-- An address lies in the region of one row at most. -/
theorem rowOf_unique {r r' : Region} {a : Nat} (h : (rowOf r).base ≤ a) (h' : a < (rowOf r).base + r.size)
    (g : (rowOf r').base ≤ a) (g' : a < (rowOf r').base + r'.size) : r = r' := by
  cases r <;> cases r' <;> first
    | rfl
    | (simp only [Region.size_eq, rowOf] at h h' g g'; omega)

/-- The row that a location's address falls in (R61). -/
theorem mapRow_regionAddress {r : Region} {i : Nat} (h : i < r.size) : mapRow (regionAddress r i) = some (rowOf r) := by
  have ha := regionAddress_toNat h
  cases hm : mapRow (regionAddress r i) with
  | none =>
    have := List.find?_eq_none.mp hm (rowOf r) (by cases r <;> decide)
    simp only [RegionRow.holds, rowOf_region, decide_eq_true_eq] at this
    omega
  | some m =>
    have hmem := memoryMap_mem (List.mem_of_find?_eq_some hm)
    have hh := mapRow_holds hm
    have : r = m.region := rowOf_unique (a := (regionAddress r i).toNat) (by omega) (by omega)
      (by rw [← hmem]; exact hh.1) (by rw [← hmem]; omega)
    rw [hmem, this]

/-- An address with a row is the address of a location (R61). -/
theorem mapRow_some {a : Addr} {m : RegionRow} (h : mapRow a = some m) :
    m = rowOf m.region ∧ a.toNat - m.base < m.region.size ∧ regionAddress m.region (a.toNat - m.base) = a := by
  have hmem := memoryMap_mem (List.mem_of_find?_eq_some h)
  have hh := mapRow_holds h
  refine ⟨hmem, hh.2, BitVec.eq_of_toNat_eq ?_⟩
  rw [regionAddress_toNat hh.2, ← hmem]
  omega

theorem mapRow_none {a : Addr} (h : ∀ r i, i < Region.size r → regionAddress r i ≠ a) : mapRow a = none := by
  cases hm : mapRow a with
  | none => rfl
  | some m =>
    have := mapRow_some hm
    exact absurd this.2.2 (h _ _ this.2.1)

/-- Different locations have different addresses (R61). -/
theorem regionAddress_inj {r r' : Region} {i i' : Nat} (h : i < r.size) (h' : i' < r'.size)
    (e : regionAddress r i = regionAddress r' i') : r = r' ∧ i = i' := by
  have e := congrArg BitVec.toNat e
  rw [regionAddress_toNat h, regionAddress_toNat h'] at e
  have hr : r = r' := rowOf_unique (a := (rowOf r).base + i) (by omega) (by omega) (by omega) (by omega)
  subst hr
  exact ⟨rfl, by omega⟩

theorem memRead_regionAddress {r : Region} {i : Nat} (h : i < r.size) (s : State) :
    memRead (regionAddress r i) s = readLoc r i s := by
  have ha := regionAddress_toNat h
  rw [memRead, mapRow_regionAddress h]
  dsimp only
  rw [ha, rowOf_region, Nat.add_sub_cancel_left]
  cases r <;> rfl

theorem memWrite_regionAddress {r : Region} {i : Nat} (h : i < r.size) (v : HostWord) (s : State) :
    memWrite (regionAddress r i) v s = writeLoc r i v s := by
  have ha := regionAddress_toNat h
  rw [memWrite, mapRow_regionAddress h]
  dsimp only
  rw [ha, rowOf_region, Nat.add_sub_cancel_left]
  cases r <;> rfl

theorem memRead_unmapped {a : Addr} (h : ∀ r i, i < Region.size r → regionAddress r i ≠ a) (s : State) :
    memRead a s = 0#_ := by rw [memRead, mapRow_none h]

theorem memWrite_unmapped {a : Addr} (h : ∀ r i, i < Region.size r → regionAddress r i ≠ a) (v : HostWord)
    (s : State) : memWrite a v s = s := by rw [memWrite, mapRow_none h]

theorem cmdAddr_eq : regionAddress .cmd 0 = cmdAddr := by decide

/-- No location but CMD has CMD's address. -/
theorem regionAddress_ne_cmd {r : Region} {i : Nat} (h : i < r.size) (hr : r ≠ .cmd) : regionAddress r i ≠ cmdAddr := by
  intro e
  rw [← cmdAddr_eq] at e
  exact hr (regionAddress_inj h (by decide) e).1

end Sys2Proof.Machine
end

