-- ==== Sys2Proof/Laws/PerInstr.lean ====
section
/-! SUPPORT. What holds of every instruction as syntax: the word it encodes to is well formed, decodes to it, and is of
the format that its row of the opcode table has (R91 to R96). -/

namespace Sys2Proof.Laws.WordOfInstr

open Sys2Proof

/-- The word of `i` is well formed and decodes to `i`; it is a command word for the four host commands and a code on the
operation bus for the ten micro-operations. -/
def Statement (i : Instr) : Prop :=
  (encode i).wf = true ∧ decode (encode i) = .instr i ∧
    ((∃ c, encode i = .host c) ↔ i = .cmdCount ∨ i = .cmdBuild ∨ i = .cmdEncode ∨ i = .cmdDecode)

theorem cmdCount : Statement .cmdCount := by simp [Statement, encode]; decide
theorem cmdBuild : Statement .cmdBuild := by simp [Statement, encode]; decide
theorem cmdEncode : Statement .cmdEncode := by simp [Statement, encode]; decide
theorem cmdDecode : Statement .cmdDecode := by simp [Statement, encode]; decide
theorem faClear : Statement .faClear := by simp [Statement, encode]; decide
theorem faAdd (sym : Sym) : Statement (.faAdd sym) := by
  simp [Statement, encode, OpWord.wf, microCodeWf, portsWf, decode, decodeMicro, noPorts]
theorem pqClear : Statement .pqClear := by simp [Statement, encode]; decide
theorem pqPush (item : Idx) (weight : Weight) : Statement (.pqPush item weight) := by
  simp [Statement, encode, OpWord.wf, microCodeWf, portsWf, decode, decodeMicro, noPorts]
theorem pqPop : Statement .pqPop := by simp [Statement, encode]; decide
theorem pqIsEmpty : Statement .pqIsEmpty := by simp [Statement, encode]; decide
theorem tbBuild : Statement .tbBuild := by simp [Statement, encode]; decide
theorem cgGen : Statement .cgGen := by simp [Statement, encode]; decide
theorem encRun : Statement .encRun := by simp [Statement, encode]; decide
theorem decRun : Statement .decRun := by simp [Statement, encode]; decide

end Sys2Proof.Laws.WordOfInstr
end

