-- ==== Sys2Proof/Laws/State.lean ====
section
/-! SUPPORT. What each update of the state changes and leaves, field by field: every theorem here is true by unfolding
one record update, and each part of a conjunction is a rewrite rule of its own. -/

namespace Sys2Proof.Machine

open Sys2Proof

/-- `FT[x].count <- v`. -/
@[simp] theorem State.setCount_fields (s : State) (x : Sym) (v : Count) :
    (s.setCount x v).ft = Store.write 0#_ s.ft x.toNat v ∧ (s.setCount x v).heap = s.heap ∧
    (s.setCount x v).seq = s.seq ∧ (s.setCount x v).node = s.node ∧ (s.setCount x v).root = s.root ∧
    (s.setCount x v).treeValid = s.treeValid ∧ (s.setCount x v).ct = s.ct ∧ (s.setCount x v).sb = s.sb ∧
    (s.setCount x v).sbLen = s.sbLen ∧ (s.setCount x v).bb = s.bb ∧ (s.setCount x v).bbLen = s.bbLen ∧
    (s.setCount x v).db = s.db ∧ (s.setCount x v).dbLen = s.dbLen ∧ (s.setCount x v).err = s.err ∧
    (s.setCount x v).busy = s.busy ∧ (s.setCount x v).k = s.k ∧ (s.setCount x v).cur = s.cur ∧
    (s.setCount x v).out = s.out ∧ (s.setCount x v).path = s.path ∧ (s.setCount x v).depth = s.depth ∧
    (s.setCount x v).dstack = s.dstack ∧ (s.setCount x v).pending = s.pending ∧
    (s.setCount x v).hostData = s.hostData ∧ (s.setCount x v).reply = s.reply ∧ (s.setCount x v).free = s.free :=
  ⟨rfl, rfl, rfl, rfl, rfl, rfl, rfl, rfl, rfl, rfl, rfl, rfl, rfl, rfl, rfl, rfl, rfl, rfl, rfl, rfl, rfl, rfl, rfl, rfl, rfl⟩

/-- `CT[x] <- e`. -/
@[simp] theorem State.setCode_fields (s : State) (x : Sym) (e : CodeEntry) :
    (s.setCode x e).ft = s.ft ∧ (s.setCode x e).heap = s.heap ∧ (s.setCode x e).seq = s.seq ∧
    (s.setCode x e).node = s.node ∧ (s.setCode x e).root = s.root ∧ (s.setCode x e).treeValid = s.treeValid ∧
    (s.setCode x e).ct = Store.write absentCode s.ct x.toNat e ∧ (s.setCode x e).sb = s.sb ∧
    (s.setCode x e).sbLen = s.sbLen ∧ (s.setCode x e).bb = s.bb ∧ (s.setCode x e).bbLen = s.bbLen ∧
    (s.setCode x e).db = s.db ∧ (s.setCode x e).dbLen = s.dbLen ∧ (s.setCode x e).err = s.err ∧
    (s.setCode x e).busy = s.busy ∧ (s.setCode x e).k = s.k ∧ (s.setCode x e).cur = s.cur ∧
    (s.setCode x e).out = s.out ∧ (s.setCode x e).path = s.path ∧ (s.setCode x e).depth = s.depth ∧
    (s.setCode x e).dstack = s.dstack ∧ (s.setCode x e).pending = s.pending ∧
    (s.setCode x e).hostData = s.hostData ∧ (s.setCode x e).reply = s.reply ∧ (s.setCode x e).free = s.free :=
  ⟨rfl, rfl, rfl, rfl, rfl, rfl, rfl, rfl, rfl, rfl, rfl, rfl, rfl, rfl, rfl, rfl, rfl, rfl, rfl, rfl, rfl, rfl, rfl, rfl, rfl⟩

/-- `SB[i] <- v`. -/
@[simp] theorem State.setSb_fields (s : State) (i : Nat) (v : Sym) :
    (s.setSb i v).ft = s.ft ∧ (s.setSb i v).heap = s.heap ∧ (s.setSb i v).seq = s.seq ∧
    (s.setSb i v).node = s.node ∧ (s.setSb i v).root = s.root ∧ (s.setSb i v).treeValid = s.treeValid ∧
    (s.setSb i v).ct = s.ct ∧ (s.setSb i v).sb = s.sb.put i v ∧ (s.setSb i v).sbLen = s.sbLen ∧
    (s.setSb i v).bb = s.bb ∧ (s.setSb i v).bbLen = s.bbLen ∧ (s.setSb i v).db = s.db ∧
    (s.setSb i v).dbLen = s.dbLen ∧ (s.setSb i v).err = s.err ∧ (s.setSb i v).busy = s.busy ∧
    (s.setSb i v).k = s.k ∧ (s.setSb i v).cur = s.cur ∧ (s.setSb i v).out = s.out ∧ (s.setSb i v).path = s.path ∧
    (s.setSb i v).depth = s.depth ∧ (s.setSb i v).dstack = s.dstack ∧ (s.setSb i v).pending = s.pending ∧
    (s.setSb i v).hostData = s.hostData ∧ (s.setSb i v).reply = s.reply ∧ (s.setSb i v).free = s.free :=
  ⟨rfl, rfl, rfl, rfl, rfl, rfl, rfl, rfl, rfl, rfl, rfl, rfl, rfl, rfl, rfl, rfl, rfl, rfl, rfl, rfl, rfl, rfl, rfl, rfl, rfl⟩

/-- `BB[i] <- v`. -/
@[simp] theorem State.setBb_fields (s : State) (i : Nat) (v : Digit) :
    (s.setBb i v).ft = s.ft ∧ (s.setBb i v).heap = s.heap ∧ (s.setBb i v).seq = s.seq ∧
    (s.setBb i v).node = s.node ∧ (s.setBb i v).root = s.root ∧ (s.setBb i v).treeValid = s.treeValid ∧
    (s.setBb i v).ct = s.ct ∧ (s.setBb i v).sb = s.sb ∧ (s.setBb i v).sbLen = s.sbLen ∧
    (s.setBb i v).bb = s.bb.put i v ∧ (s.setBb i v).bbLen = s.bbLen ∧ (s.setBb i v).db = s.db ∧
    (s.setBb i v).dbLen = s.dbLen ∧ (s.setBb i v).err = s.err ∧ (s.setBb i v).busy = s.busy ∧
    (s.setBb i v).k = s.k ∧ (s.setBb i v).cur = s.cur ∧ (s.setBb i v).out = s.out ∧ (s.setBb i v).path = s.path ∧
    (s.setBb i v).depth = s.depth ∧ (s.setBb i v).dstack = s.dstack ∧ (s.setBb i v).pending = s.pending ∧
    (s.setBb i v).hostData = s.hostData ∧ (s.setBb i v).reply = s.reply ∧ (s.setBb i v).free = s.free :=
  ⟨rfl, rfl, rfl, rfl, rfl, rfl, rfl, rfl, rfl, rfl, rfl, rfl, rfl, rfl, rfl, rfl, rfl, rfl, rfl, rfl, rfl, rfl, rfl, rfl, rfl⟩

/-- `NODE[K] <- n`. -/
@[simp] theorem State.pushNode_fields (s : State) (n : Node) :
    (s.pushNode n).ft = s.ft ∧ (s.pushNode n).heap = s.heap ∧ (s.pushNode n).seq = s.seq ∧
    (s.pushNode n).node = s.node ++ [n] ∧ (s.pushNode n).root = s.root ∧ (s.pushNode n).treeValid = s.treeValid ∧
    (s.pushNode n).ct = s.ct ∧ (s.pushNode n).sb = s.sb ∧ (s.pushNode n).sbLen = s.sbLen ∧
    (s.pushNode n).bb = s.bb ∧ (s.pushNode n).bbLen = s.bbLen ∧ (s.pushNode n).db = s.db ∧
    (s.pushNode n).dbLen = s.dbLen ∧ (s.pushNode n).err = s.err ∧ (s.pushNode n).busy = s.busy ∧
    (s.pushNode n).k = s.k ∧ (s.pushNode n).cur = s.cur ∧ (s.pushNode n).out = s.out ∧
    (s.pushNode n).path = s.path ∧ (s.pushNode n).depth = s.depth ∧ (s.pushNode n).dstack = s.dstack ∧
    (s.pushNode n).pending = s.pending ∧ (s.pushNode n).hostData = s.hostData ∧ (s.pushNode n).reply = s.reply ∧
    (s.pushNode n).free = s.free :=
  ⟨rfl, rfl, rfl, rfl, rfl, rfl, rfl, rfl, rfl, rfl, rfl, rfl, rfl, rfl, rfl, rfl, rfl, rfl, rfl, rfl, rfl, rfl, rfl, rfl, rfl⟩

/-- The acceptance of a command. -/
@[simp] theorem State.accept_fields (s : State) :
    (s.accept).ft = s.ft ∧ (s.accept).heap = s.heap ∧ (s.accept).seq = s.seq ∧ (s.accept).node = s.node ∧
    (s.accept).root = s.root ∧ (s.accept).treeValid = s.treeValid ∧ (s.accept).ct = s.ct ∧ (s.accept).sb = s.sb ∧
    (s.accept).sbLen = s.sbLen ∧ (s.accept).bb = s.bb ∧ (s.accept).bbLen = s.bbLen ∧ (s.accept).db = s.db ∧
    (s.accept).dbLen = s.dbLen ∧ (s.accept).err = s.err ∧ (s.accept).busy = true ∧ (s.accept).k = s.k ∧
    (s.accept).cur = s.cur ∧ (s.accept).out = s.out ∧ (s.accept).path = s.path ∧ (s.accept).depth = s.depth ∧
    (s.accept).dstack = s.dstack ∧ (s.accept).pending = s.pending ∧ (s.accept).hostData = s.hostData ∧
    (s.accept).reply = s.reply ∧ (s.accept).free = s.free :=
  ⟨rfl, rfl, rfl, rfl, rfl, rfl, rfl, rfl, rfl, rfl, rfl, rfl, rfl, rfl, rfl, rfl, rfl, rfl, rfl, rfl, rfl, rfl, rfl, rfl, rfl⟩

/-- The completion of a command. -/
@[simp] theorem State.complete_fields (s : State) (r : Result) :
    (s.complete r).ft = s.ft ∧ (s.complete r).heap = s.heap ∧ (s.complete r).seq = s.seq ∧
    (s.complete r).node = s.node ∧ (s.complete r).root = s.root ∧ (s.complete r).treeValid = s.treeValid ∧
    (s.complete r).ct = s.ct ∧ (s.complete r).sb = s.sb ∧ (s.complete r).sbLen = s.sbLen ∧
    (s.complete r).bb = s.bb ∧ (s.complete r).bbLen = s.bbLen ∧ (s.complete r).db = s.db ∧
    (s.complete r).dbLen = s.dbLen ∧ (s.complete r).err = r.code ∧ (s.complete r).busy = false ∧
    (s.complete r).k = s.k ∧ (s.complete r).cur = s.cur ∧ (s.complete r).out = s.out ∧
    (s.complete r).path = s.path ∧ (s.complete r).depth = s.depth ∧ (s.complete r).dstack = s.dstack ∧
    (s.complete r).pending = s.pending ∧ (s.complete r).hostData = s.hostData ∧ (s.complete r).reply = s.reply ∧
    (s.complete r).free = s.free :=
  ⟨rfl, rfl, rfl, rfl, rfl, rfl, rfl, rfl, rfl, rfl, rfl, rfl, rfl, rfl, rfl, rfl, rfl, rfl, rfl, rfl, rfl, rfl, rfl, rfl, rfl⟩

/-- What a micro-operation presents. -/
@[simp] theorem State.present_fields (s : State) (r : Reply) :
    (s.present r).ft = s.ft ∧ (s.present r).heap = s.heap ∧ (s.present r).seq = s.seq ∧
    (s.present r).node = s.node ∧ (s.present r).root = s.root ∧ (s.present r).treeValid = s.treeValid ∧
    (s.present r).ct = s.ct ∧ (s.present r).sb = s.sb ∧ (s.present r).sbLen = s.sbLen ∧ (s.present r).bb = s.bb ∧
    (s.present r).bbLen = s.bbLen ∧ (s.present r).db = s.db ∧ (s.present r).dbLen = s.dbLen ∧
    (s.present r).err = s.err ∧ (s.present r).busy = s.busy ∧ (s.present r).k = s.k ∧ (s.present r).cur = s.cur ∧
    (s.present r).out = s.out ∧ (s.present r).path = s.path ∧ (s.present r).depth = s.depth ∧
    (s.present r).dstack = s.dstack ∧ (s.present r).pending = s.pending ∧ (s.present r).hostData = s.hostData ∧
    (s.present r).reply = r ∧ (s.present r).free = s.free :=
  ⟨rfl, rfl, rfl, rfl, rfl, rfl, rfl, rfl, rfl, rfl, rfl, rfl, rfl, rfl, rfl, rfl, rfl, rfl, rfl, rfl, rfl, rfl, rfl, rfl, rfl⟩

/-- ENC_RUN's output on success. -/
@[simp] theorem State.leaveStream_ok_fields (s : State) (o : List Digit) :
    (s.leaveStream .ok o).ft = s.ft ∧ (s.leaveStream .ok o).heap = s.heap ∧ (s.leaveStream .ok o).seq = s.seq ∧
    (s.leaveStream .ok o).node = s.node ∧ (s.leaveStream .ok o).root = s.root ∧
    (s.leaveStream .ok o).treeValid = s.treeValid ∧ (s.leaveStream .ok o).ct = s.ct ∧
    (s.leaveStream .ok o).sb = s.sb ∧ (s.leaveStream .ok o).sbLen = s.sbLen ∧
    (s.leaveStream .ok o).bb = s.bb.holding o ∧ (s.leaveStream .ok o).bbLen = BitVec.ofNat _ o.length ∧
    (s.leaveStream .ok o).db = s.db ∧ (s.leaveStream .ok o).dbLen = s.dbLen ∧ (s.leaveStream .ok o).err = s.err ∧
    (s.leaveStream .ok o).busy = s.busy ∧ (s.leaveStream .ok o).k = s.k ∧ (s.leaveStream .ok o).cur = s.cur ∧
    (s.leaveStream .ok o).out = s.out ∧ (s.leaveStream .ok o).path = s.path ∧
    (s.leaveStream .ok o).depth = s.depth ∧ (s.leaveStream .ok o).dstack = s.dstack ∧
    (s.leaveStream .ok o).pending = s.pending ∧ (s.leaveStream .ok o).hostData = s.hostData ∧
    (s.leaveStream .ok o).reply = s.reply ∧ (s.leaveStream .ok o).free = s.free :=
  ⟨rfl, rfl, rfl, rfl, rfl, rfl, rfl, rfl, rfl, rfl, rfl, rfl, rfl, rfl, rfl, rfl, rfl, rfl, rfl, rfl, rfl, rfl, rfl, rfl, rfl⟩

/-- ENC_RUN's output on failure. -/
@[simp] theorem State.leaveStream_fail_fields (s : State) (k : ErrKind) (o : List Digit) :
    (s.leaveStream (.fail k) o).ft = s.ft ∧ (s.leaveStream (.fail k) o).heap = s.heap ∧
    (s.leaveStream (.fail k) o).seq = s.seq ∧ (s.leaveStream (.fail k) o).node = s.node ∧
    (s.leaveStream (.fail k) o).root = s.root ∧ (s.leaveStream (.fail k) o).treeValid = s.treeValid ∧
    (s.leaveStream (.fail k) o).ct = s.ct ∧ (s.leaveStream (.fail k) o).sb = s.sb ∧
    (s.leaveStream (.fail k) o).sbLen = s.sbLen ∧ (s.leaveStream (.fail k) o).bb = s.bb.holding [] ∧
    (s.leaveStream (.fail k) o).bbLen = 0#_ ∧ (s.leaveStream (.fail k) o).db = s.db ∧
    (s.leaveStream (.fail k) o).dbLen = s.dbLen ∧ (s.leaveStream (.fail k) o).err = s.err ∧
    (s.leaveStream (.fail k) o).busy = s.busy ∧ (s.leaveStream (.fail k) o).k = s.k ∧
    (s.leaveStream (.fail k) o).cur = s.cur ∧ (s.leaveStream (.fail k) o).out = s.out ∧
    (s.leaveStream (.fail k) o).path = s.path ∧ (s.leaveStream (.fail k) o).depth = s.depth ∧
    (s.leaveStream (.fail k) o).dstack = s.dstack ∧ (s.leaveStream (.fail k) o).pending = s.pending ∧
    (s.leaveStream (.fail k) o).hostData = s.hostData ∧ (s.leaveStream (.fail k) o).reply = s.reply ∧
    (s.leaveStream (.fail k) o).free = s.free :=
  ⟨rfl, rfl, rfl, rfl, rfl, rfl, rfl, rfl, rfl, rfl, rfl, rfl, rfl, rfl, rfl, rfl, rfl, rfl, rfl, rfl, rfl, rfl, rfl, rfl, rfl⟩

/-- What ENC_RUN's output leaves alone. -/
@[simp] theorem State.leaveStream_fields (s : State) (r : Result) (o : List Digit) :
    (s.leaveStream r o).ft = s.ft ∧ (s.leaveStream r o).heap = s.heap ∧ (s.leaveStream r o).seq = s.seq ∧
    (s.leaveStream r o).node = s.node ∧ (s.leaveStream r o).root = s.root ∧
    (s.leaveStream r o).treeValid = s.treeValid ∧ (s.leaveStream r o).ct = s.ct ∧ (s.leaveStream r o).sb = s.sb ∧
    (s.leaveStream r o).sbLen = s.sbLen ∧ (s.leaveStream r o).db = s.db ∧ (s.leaveStream r o).dbLen = s.dbLen ∧
    (s.leaveStream r o).err = s.err ∧ (s.leaveStream r o).busy = s.busy ∧ (s.leaveStream r o).k = s.k ∧
    (s.leaveStream r o).cur = s.cur ∧ (s.leaveStream r o).out = s.out ∧ (s.leaveStream r o).path = s.path ∧
    (s.leaveStream r o).depth = s.depth ∧ (s.leaveStream r o).dstack = s.dstack ∧
    (s.leaveStream r o).pending = s.pending ∧ (s.leaveStream r o).hostData = s.hostData ∧
    (s.leaveStream r o).reply = s.reply ∧ (s.leaveStream r o).free = s.free :=
  by cases r <;> exact ⟨rfl, rfl, rfl, rfl, rfl, rfl, rfl, rfl, rfl, rfl, rfl, rfl, rfl, rfl, rfl, rfl, rfl, rfl, rfl, rfl, rfl, rfl, rfl⟩

/-- DEC_RUN's output on success. -/
@[simp] theorem State.leaveDecoded_ok_fields (s : State) (o : List Sym) :
    (s.leaveDecoded .ok o).ft = s.ft ∧ (s.leaveDecoded .ok o).heap = s.heap ∧ (s.leaveDecoded .ok o).seq = s.seq ∧
    (s.leaveDecoded .ok o).node = s.node ∧ (s.leaveDecoded .ok o).root = s.root ∧
    (s.leaveDecoded .ok o).treeValid = s.treeValid ∧ (s.leaveDecoded .ok o).ct = s.ct ∧
    (s.leaveDecoded .ok o).sb = s.sb ∧ (s.leaveDecoded .ok o).sbLen = s.sbLen ∧ (s.leaveDecoded .ok o).bb = s.bb ∧
    (s.leaveDecoded .ok o).bbLen = s.bbLen ∧ (s.leaveDecoded .ok o).db = s.db.holding o ∧
    (s.leaveDecoded .ok o).dbLen = BitVec.ofNat _ o.length ∧ (s.leaveDecoded .ok o).err = s.err ∧
    (s.leaveDecoded .ok o).busy = s.busy ∧ (s.leaveDecoded .ok o).k = s.k ∧ (s.leaveDecoded .ok o).cur = s.cur ∧
    (s.leaveDecoded .ok o).out = s.out ∧ (s.leaveDecoded .ok o).path = s.path ∧
    (s.leaveDecoded .ok o).depth = s.depth ∧ (s.leaveDecoded .ok o).dstack = s.dstack ∧
    (s.leaveDecoded .ok o).pending = s.pending ∧ (s.leaveDecoded .ok o).hostData = s.hostData ∧
    (s.leaveDecoded .ok o).reply = s.reply ∧ (s.leaveDecoded .ok o).free = s.free :=
  ⟨rfl, rfl, rfl, rfl, rfl, rfl, rfl, rfl, rfl, rfl, rfl, rfl, rfl, rfl, rfl, rfl, rfl, rfl, rfl, rfl, rfl, rfl, rfl, rfl, rfl⟩

/-- DEC_RUN's output on failure. -/
@[simp] theorem State.leaveDecoded_fail_fields (s : State) (k : ErrKind) (o : List Sym) :
    (s.leaveDecoded (.fail k) o).ft = s.ft ∧ (s.leaveDecoded (.fail k) o).heap = s.heap ∧
    (s.leaveDecoded (.fail k) o).seq = s.seq ∧ (s.leaveDecoded (.fail k) o).node = s.node ∧
    (s.leaveDecoded (.fail k) o).root = s.root ∧ (s.leaveDecoded (.fail k) o).treeValid = s.treeValid ∧
    (s.leaveDecoded (.fail k) o).ct = s.ct ∧ (s.leaveDecoded (.fail k) o).sb = s.sb ∧
    (s.leaveDecoded (.fail k) o).sbLen = s.sbLen ∧ (s.leaveDecoded (.fail k) o).bb = s.bb ∧
    (s.leaveDecoded (.fail k) o).bbLen = s.bbLen ∧ (s.leaveDecoded (.fail k) o).db = s.db.holding [] ∧
    (s.leaveDecoded (.fail k) o).dbLen = 0#_ ∧ (s.leaveDecoded (.fail k) o).err = s.err ∧
    (s.leaveDecoded (.fail k) o).busy = s.busy ∧ (s.leaveDecoded (.fail k) o).k = s.k ∧
    (s.leaveDecoded (.fail k) o).cur = s.cur ∧ (s.leaveDecoded (.fail k) o).out = s.out ∧
    (s.leaveDecoded (.fail k) o).path = s.path ∧ (s.leaveDecoded (.fail k) o).depth = s.depth ∧
    (s.leaveDecoded (.fail k) o).dstack = s.dstack ∧ (s.leaveDecoded (.fail k) o).pending = s.pending ∧
    (s.leaveDecoded (.fail k) o).hostData = s.hostData ∧ (s.leaveDecoded (.fail k) o).reply = s.reply ∧
    (s.leaveDecoded (.fail k) o).free = s.free :=
  ⟨rfl, rfl, rfl, rfl, rfl, rfl, rfl, rfl, rfl, rfl, rfl, rfl, rfl, rfl, rfl, rfl, rfl, rfl, rfl, rfl, rfl, rfl, rfl, rfl, rfl⟩

/-- What DEC_RUN's output leaves alone. -/
@[simp] theorem State.leaveDecoded_fields (s : State) (r : Result) (o : List Sym) :
    (s.leaveDecoded r o).ft = s.ft ∧ (s.leaveDecoded r o).heap = s.heap ∧ (s.leaveDecoded r o).seq = s.seq ∧
    (s.leaveDecoded r o).node = s.node ∧ (s.leaveDecoded r o).root = s.root ∧
    (s.leaveDecoded r o).treeValid = s.treeValid ∧ (s.leaveDecoded r o).ct = s.ct ∧
    (s.leaveDecoded r o).sb = s.sb ∧ (s.leaveDecoded r o).sbLen = s.sbLen ∧ (s.leaveDecoded r o).bb = s.bb ∧
    (s.leaveDecoded r o).bbLen = s.bbLen ∧ (s.leaveDecoded r o).err = s.err ∧ (s.leaveDecoded r o).busy = s.busy ∧
    (s.leaveDecoded r o).k = s.k ∧ (s.leaveDecoded r o).cur = s.cur ∧ (s.leaveDecoded r o).out = s.out ∧
    (s.leaveDecoded r o).path = s.path ∧ (s.leaveDecoded r o).depth = s.depth ∧
    (s.leaveDecoded r o).dstack = s.dstack ∧ (s.leaveDecoded r o).pending = s.pending ∧
    (s.leaveDecoded r o).hostData = s.hostData ∧ (s.leaveDecoded r o).reply = s.reply ∧
    (s.leaveDecoded r o).free = s.free :=
  by cases r <;> exact ⟨rfl, rfl, rfl, rfl, rfl, rfl, rfl, rfl, rfl, rfl, rfl, rfl, rfl, rfl, rfl, rfl, rfl, rfl, rfl, rfl, rfl, rfl, rfl⟩

/-- FA_CLEAR. -/
@[simp] theorem faClear_fields (s : State) :
    (faClear s).ft = [] ∧ (faClear s).heap = s.heap ∧ (faClear s).seq = s.seq ∧ (faClear s).node = s.node ∧
    (faClear s).root = s.root ∧ (faClear s).treeValid = s.treeValid ∧ (faClear s).ct = s.ct ∧
    (faClear s).sb = s.sb ∧ (faClear s).sbLen = s.sbLen ∧ (faClear s).bb = s.bb ∧ (faClear s).bbLen = s.bbLen ∧
    (faClear s).db = s.db ∧ (faClear s).dbLen = s.dbLen ∧ (faClear s).err = s.err ∧ (faClear s).busy = s.busy ∧
    (faClear s).k = s.k ∧ (faClear s).cur = s.cur ∧ (faClear s).out = s.out ∧ (faClear s).path = s.path ∧
    (faClear s).depth = s.depth ∧ (faClear s).dstack = s.dstack ∧ (faClear s).pending = s.pending ∧
    (faClear s).hostData = s.hostData ∧ (faClear s).reply = s.reply ∧ (faClear s).free = s.free :=
  ⟨rfl, rfl, rfl, rfl, rfl, rfl, rfl, rfl, rfl, rfl, rfl, rfl, rfl, rfl, rfl, rfl, rfl, rfl, rfl, rfl, rfl, rfl, rfl, rfl, rfl⟩

/-- PQ_CLEAR. -/
@[simp] theorem pqClear_fields (s : State) :
    (pqClear s).ft = s.ft ∧ (pqClear s).heap = [] ∧ (pqClear s).seq = 0#_ ∧ (pqClear s).node = s.node ∧
    (pqClear s).root = s.root ∧ (pqClear s).treeValid = s.treeValid ∧ (pqClear s).ct = s.ct ∧
    (pqClear s).sb = s.sb ∧ (pqClear s).sbLen = s.sbLen ∧ (pqClear s).bb = s.bb ∧ (pqClear s).bbLen = s.bbLen ∧
    (pqClear s).db = s.db ∧ (pqClear s).dbLen = s.dbLen ∧ (pqClear s).err = s.err ∧ (pqClear s).busy = s.busy ∧
    (pqClear s).k = s.k ∧ (pqClear s).cur = s.cur ∧ (pqClear s).out = s.out ∧ (pqClear s).path = s.path ∧
    (pqClear s).depth = s.depth ∧ (pqClear s).dstack = s.dstack ∧ (pqClear s).pending = s.pending ∧
    (pqClear s).hostData = s.hostData ∧ (pqClear s).reply = s.reply ∧ (pqClear s).free = s.free :=
  ⟨rfl, rfl, rfl, rfl, rfl, rfl, rfl, rfl, rfl, rfl, rfl, rfl, rfl, rfl, rfl, rfl, rfl, rfl, rfl, rfl, rfl, rfl, rfl, rfl, rfl⟩

/-- The start of TB_BUILD. -/
@[simp] theorem startBuild_fields (s : State) :
    (startBuild s).ft = s.ft ∧ (startBuild s).heap = [] ∧ (startBuild s).seq = 0#_ ∧ (startBuild s).node = [] ∧
    (startBuild s).root = s.root ∧ (startBuild s).treeValid = false ∧ (startBuild s).ct = s.ct ∧
    (startBuild s).sb = s.sb ∧ (startBuild s).sbLen = s.sbLen ∧ (startBuild s).bb = s.bb ∧
    (startBuild s).bbLen = s.bbLen ∧ (startBuild s).db = s.db ∧ (startBuild s).dbLen = s.dbLen ∧
    (startBuild s).err = s.err ∧ (startBuild s).busy = s.busy ∧ (startBuild s).k = 0#_ ∧
    (startBuild s).cur = s.cur ∧ (startBuild s).out = s.out ∧ (startBuild s).path = s.path ∧
    (startBuild s).depth = s.depth ∧ (startBuild s).dstack = s.dstack ∧ (startBuild s).pending = s.pending ∧
    (startBuild s).hostData = s.hostData ∧ (startBuild s).reply = s.reply ∧ (startBuild s).free = s.free :=
  ⟨rfl, rfl, rfl, rfl, rfl, rfl, rfl, rfl, rfl, rfl, rfl, rfl, rfl, rfl, rfl, rfl, rfl, rfl, rfl, rfl, rfl, rfl, rfl, rfl, rfl⟩

/-- The start of CG_GEN. -/
@[simp] theorem startWalk_fields (s : State) :
    (startWalk s).ft = s.ft ∧ (startWalk s).heap = s.heap ∧ (startWalk s).seq = s.seq ∧
    (startWalk s).node = s.node ∧ (startWalk s).root = s.root ∧ (startWalk s).treeValid = s.treeValid ∧
    (startWalk s).ct = [] ∧ (startWalk s).sb = s.sb ∧ (startWalk s).sbLen = s.sbLen ∧ (startWalk s).bb = s.bb ∧
    (startWalk s).bbLen = s.bbLen ∧ (startWalk s).db = s.db ∧ (startWalk s).dbLen = s.dbLen ∧
    (startWalk s).err = s.err ∧ (startWalk s).busy = s.busy ∧ (startWalk s).k = s.k ∧ (startWalk s).cur = s.cur ∧
    (startWalk s).out = s.out ∧ (startWalk s).path = 0#_ ∧ (startWalk s).depth = 0#_ ∧
    (startWalk s).dstack = [{ node := s.root, depth := 0#_, digit := false }] ∧ (startWalk s).pending = s.pending ∧
    (startWalk s).hostData = s.hostData ∧ (startWalk s).reply = s.reply ∧ (startWalk s).free = s.free :=
  ⟨rfl, rfl, rfl, rfl, rfl, rfl, rfl, rfl, rfl, rfl, rfl, rfl, rfl, rfl, rfl, rfl, rfl, rfl, rfl, rfl, rfl, rfl, rfl, rfl, rfl⟩

/-- The traversal takes an entry off DSTACK. -/
@[simp] theorem enterNode_fields (s : State) (e : StackEntry) (rest : List StackEntry) :
    (enterNode e rest s).ft = s.ft ∧ (enterNode e rest s).heap = s.heap ∧ (enterNode e rest s).seq = s.seq ∧
    (enterNode e rest s).node = s.node ∧ (enterNode e rest s).root = s.root ∧
    (enterNode e rest s).treeValid = s.treeValid ∧ (enterNode e rest s).ct = s.ct ∧
    (enterNode e rest s).sb = s.sb ∧ (enterNode e rest s).sbLen = s.sbLen ∧ (enterNode e rest s).bb = s.bb ∧
    (enterNode e rest s).bbLen = s.bbLen ∧ (enterNode e rest s).db = s.db ∧ (enterNode e rest s).dbLen = s.dbLen ∧
    (enterNode e rest s).err = s.err ∧ (enterNode e rest s).busy = s.busy ∧ (enterNode e rest s).k = s.k ∧
    (enterNode e rest s).cur = s.cur ∧ (enterNode e rest s).out = s.out ∧
    (enterNode e rest s).path = (if e.depth = 0#_ then s.path else setDigit s.path (e.depth.toNat - 1) e.digit) ∧
    (enterNode e rest s).depth = e.depth ∧ (enterNode e rest s).dstack = rest ∧
    (enterNode e rest s).pending = s.pending ∧ (enterNode e rest s).hostData = s.hostData ∧
    (enterNode e rest s).reply = s.reply ∧ (enterNode e rest s).free = s.free :=
  ⟨rfl, rfl, rfl, rfl, rfl, rfl, rfl, rfl, rfl, rfl, rfl, rfl, rfl, rfl, rfl, rfl, rfl, rfl, rfl, rfl, rfl, rfl, rfl, rfl, rfl⟩

/-- `assign(x, p)`. -/
@[simp] theorem assignCode_fields (s : State) (x : Sym) (p : List Digit) :
    (assignCode x p s).ft = s.ft ∧ (assignCode x p s).heap = s.heap ∧ (assignCode x p s).seq = s.seq ∧
    (assignCode x p s).node = s.node ∧ (assignCode x p s).root = s.root ∧
    (assignCode x p s).treeValid = s.treeValid ∧
    (assignCode x p s).ct = Store.write absentCode s.ct x.toNat (codeEntry p) ∧ (assignCode x p s).sb = s.sb ∧
    (assignCode x p s).sbLen = s.sbLen ∧ (assignCode x p s).bb = s.bb ∧ (assignCode x p s).bbLen = s.bbLen ∧
    (assignCode x p s).db = s.db ∧ (assignCode x p s).dbLen = s.dbLen ∧ (assignCode x p s).err = s.err ∧
    (assignCode x p s).busy = s.busy ∧ (assignCode x p s).k = s.k ∧ (assignCode x p s).cur = s.cur ∧
    (assignCode x p s).out = s.out ∧ (assignCode x p s).path = s.path ∧ (assignCode x p s).depth = s.depth ∧
    (assignCode x p s).dstack = s.dstack ∧ (assignCode x p s).pending = s.pending ∧
    (assignCode x p s).hostData = s.hostData ∧ (assignCode x p s).reply = s.reply ∧
    (assignCode x p s).free = s.free :=
  ⟨rfl, rfl, rfl, rfl, rfl, rfl, rfl, rfl, rfl, rfl, rfl, rfl, rfl, rfl, rfl, rfl, rfl, rfl, rfl, rfl, rfl, rfl, rfl, rfl, rfl⟩

/-- A host read. -/
@[simp] theorem hostRead_fields (s : State) (a : Addr) :
    (hostRead a s).ft = s.ft ∧ (hostRead a s).heap = s.heap ∧ (hostRead a s).seq = s.seq ∧
    (hostRead a s).node = s.node ∧ (hostRead a s).root = s.root ∧ (hostRead a s).treeValid = s.treeValid ∧
    (hostRead a s).ct = s.ct ∧ (hostRead a s).sb = s.sb ∧ (hostRead a s).sbLen = s.sbLen ∧
    (hostRead a s).bb = s.bb ∧ (hostRead a s).bbLen = s.bbLen ∧ (hostRead a s).db = s.db ∧
    (hostRead a s).dbLen = s.dbLen ∧ (hostRead a s).err = s.err ∧ (hostRead a s).busy = s.busy ∧
    (hostRead a s).k = s.k ∧ (hostRead a s).cur = s.cur ∧ (hostRead a s).out = s.out ∧
    (hostRead a s).path = s.path ∧ (hostRead a s).depth = s.depth ∧ (hostRead a s).dstack = s.dstack ∧
    (hostRead a s).pending = s.pending ∧ (hostRead a s).hostData = memRead a s ∧ (hostRead a s).reply = s.reply ∧
    (hostRead a s).free = s.free :=
  ⟨rfl, rfl, rfl, rfl, rfl, rfl, rfl, rfl, rfl, rfl, rfl, rfl, rfl, rfl, rfl, rfl, rfl, rfl, rfl, rfl, rfl, rfl, rfl, rfl, rfl⟩

/-- An input put first. -/
@[simp] theorem State.giveNext_fields (s : State) (i : Input) :
    (s.giveNext i).ft = s.ft ∧ (s.giveNext i).heap = s.heap ∧ (s.giveNext i).seq = s.seq ∧
    (s.giveNext i).node = s.node ∧ (s.giveNext i).root = s.root ∧ (s.giveNext i).treeValid = s.treeValid ∧
    (s.giveNext i).ct = s.ct ∧ (s.giveNext i).sb = s.sb ∧ (s.giveNext i).sbLen = s.sbLen ∧
    (s.giveNext i).bb = s.bb ∧ (s.giveNext i).bbLen = s.bbLen ∧ (s.giveNext i).db = s.db ∧
    (s.giveNext i).dbLen = s.dbLen ∧ (s.giveNext i).err = s.err ∧ (s.giveNext i).busy = s.busy ∧
    (s.giveNext i).k = s.k ∧ (s.giveNext i).cur = s.cur ∧ (s.giveNext i).out = s.out ∧
    (s.giveNext i).path = s.path ∧ (s.giveNext i).depth = s.depth ∧ (s.giveNext i).dstack = s.dstack ∧
    (s.giveNext i).pending = i :: s.pending ∧ (s.giveNext i).hostData = s.hostData ∧
    (s.giveNext i).reply = s.reply ∧ (s.giveNext i).free = s.free :=
  ⟨rfl, rfl, rfl, rfl, rfl, rfl, rfl, rfl, rfl, rfl, rfl, rfl, rfl, rfl, rfl, rfl, rfl, rfl, rfl, rfl, rfl, rfl, rfl, rfl, rfl⟩

/-- The reset event. -/
@[simp] theorem State.resetEvent_fields (s : State) :
    (s.resetEvent).ft = [] ∧ (s.resetEvent).heap = [] ∧ (s.resetEvent).seq = 0#_ ∧ (s.resetEvent).node = [] ∧
    (s.resetEvent).root = 0#_ ∧ (s.resetEvent).treeValid = false ∧ (s.resetEvent).ct = [] ∧
    (s.resetEvent).sb = { cells := [], epoch := s.sb.epoch + 1 } ∧ (s.resetEvent).sbLen = 0#_ ∧
    (s.resetEvent).bb = { cells := [], epoch := s.bb.epoch + 1 } ∧ (s.resetEvent).bbLen = 0#_ ∧
    (s.resetEvent).db = { cells := [], epoch := s.db.epoch + 1 } ∧ (s.resetEvent).dbLen = 0#_ ∧
    (s.resetEvent).err = 0#3 ∧ (s.resetEvent).busy = false ∧ (s.resetEvent).k = 0#_ ∧ (s.resetEvent).cur = 0#_ ∧
    (s.resetEvent).out = 0#_ ∧ (s.resetEvent).path = 0#_ ∧ (s.resetEvent).depth = 0#_ ∧
    (s.resetEvent).dstack = [] ∧ (s.resetEvent).pending = s.pending ∧ (s.resetEvent).hostData = s.hostData ∧
    (s.resetEvent).reply = replyOf .ok ∧ (s.resetEvent).free = s.free + 1 :=
  ⟨rfl, rfl, rfl, rfl, rfl, rfl, rfl, rfl, rfl, rfl, rfl, rfl, rfl, rfl, rfl, rfl, rfl, rfl, rfl, rfl, rfl, rfl, rfl, rfl, rfl⟩

end Sys2Proof.Machine
end

