-- ==== Sys2Proof/Tests/Slice0.lean ====
section
/-! SUPPORT. The model's own tests: the well-formedness checks, the words of R92 and R95, one-step vectors of
95_test_vectors.md, and for each obligation with hypotheses a state and operands that meet them. Expected values are the
spec's, at the place named in each comment. -/

namespace Sys2Proof.Tests

open Sys2Proof Sys2Proof.Machine

set_option maxRecDepth 100000

/-! ### Helpers -/

/-- What holds of the next state. -/
def after (o : Host.Outcome State Fault Refusal) (p : State → Bool) : Bool :=
  match o with
  | .next t => p t
  | .fault _ => false
  | .refused _ => false

/-- The next state, or the reset state where there is none. -/
def nextOf (o : Host.Outcome State Fault Refusal) : State :=
  match o with
  | .next t => t
  | .fault _ => State.reset
  | .refused _ => State.reset

/-- The reset state with one input to take. -/
def given (i : Input) : State := State.reset.giveNext i

/-- A sequence of symbols in SB. -/
def withSymbols (xs : List Sym) (s : State) : State :=
  { s with sb := { cells := Store.ofListFrom 0 xs, epoch := 0 }, sbLen := BitVec.ofNat 32 xs.length }

/-- A sequence of digits in BB. -/
def withStream (ds : List Digit) (s : State) : State :=
  { s with bb := { cells := Store.ofListFrom 0 ds, epoch := 0 }, bbLen := BitVec.ofNat 32 ds.length }

/-- V-TB-1 and V-CG-1: the tree and the table of a:3, b:2, c:1. -/
def abc : State :=
  { State.reset with
    ft := [(0x61, 3#32), (0x62, 2#32), (0x63, 1#32)]
    node :=
      [ { leaf := true, sym := 0x61#8, weight := 3#40, left := 0#9, right := 0#9 }
      , { leaf := true, sym := 0x62#8, weight := 2#40, left := 0#9, right := 0#9 }
      , { leaf := true, sym := 0x63#8, weight := 1#40, left := 0#9, right := 0#9 }
      , { leaf := false, sym := 0#8, weight := 3#40, left := 2#9, right := 1#9 }
      , { leaf := false, sym := 0#8, weight := 6#40, left := 0#9, right := 3#9 } ]
    root := 4#9
    treeValid := true
    ct := [(0x61, codeEntry [false]), (0x62, codeEntry [true, true]), (0x63, codeEntry [true, false])] }

/-- V-TB-2: the tree and the table of a:4. -/
def onlyA : State :=
  { State.reset with
    ft := [(0x61, 4#32)]
    node := [{ leaf := true, sym := 0x61#8, weight := 4#40, left := 0#9, right := 0#9 }]
    treeValid := true
    ct := [(0x61, codeEntry [false])] }

/-- V-PQ-1 after step 5. -/
def queue4 : State :=
  { State.reset with
    heap :=
      [ { item := 3#9, weight := 1#40, seq := 3#9 }, { item := 1#9, weight := 3#40, seq := 1#9 }
      , { item := 2#9, weight := 5#40, seq := 2#9 }, { item := 0#9, weight := 5#40, seq := 0#9 } ]
    seq := 4#9 }

/-- The same entries as `queue4` in another heap order. -/
def queue4' : State :=
  { queue4 with
    heap :=
      [ { item := 3#9, weight := 1#40, seq := 3#9 }, { item := 0#9, weight := 5#40, seq := 0#9 }
      , { item := 1#9, weight := 3#40, seq := 1#9 }, { item := 2#9, weight := 5#40, seq := 2#9 } ] }

/-- A table with one codeword of 255 digits. -/
def longCode : State := { State.reset with ct := [(0x61, codeEntry (List.replicate 255 true))] }

/-- The symbols "aaabbc". -/
def aaabbc : List Sym := [0x61#8, 0x61#8, 0x61#8, 0x62#8, 0x62#8, 0x63#8]

/-- The digits "000111110". -/
def bits9 : List Digit := [false, false, false, true, true, true, true, true, false]

/-! ### Well-formedness: an ill-formed term for each check -/

theorem test_wf_zero_field : hostWordWf 0b00001001#8 = false := by decide
theorem test_wf_op_field : hostWordWf 0b00000101#8 = false := by decide
theorem test_wf_reserved_uop : microCodeWf 0b1010#4 = false := by decide
theorem test_wf_unused_sym_port :
    OpWord.wf (.micro 0x0#4 { sym := 1#8, item := 0#9, weight := 0#40 }) = false := by decide
theorem test_wf_unused_item_port :
    OpWord.wf (.micro 0x1#4 { sym := 1#8, item := 1#9, weight := 0#40 }) = false := by decide
theorem test_wf_unused_weight_port :
    OpWord.wf (.micro 0x4#4 { sym := 0#8, item := 0#9, weight := 1#40 }) = false := by decide
theorem test_wf_access : accessWf .ft 256 = false ∧ accessWf .bb 32768 = false ∧ accessWf .cmd 1 = false := by decide
theorem test_wf_cmd_line : Line.wf (.cmd 256) = false := by decide
theorem test_wf_sb_line : ∀ xs, xs.length = 4097 → Line.wf (.sb xs) = false := by
  intro xs h
  rw [Line.wf, h]
  decide
theorem test_wf_bb_line : ∀ xs, xs.length = 32769 → Line.wf (.bb xs) = false := by
  intro xs h
  rw [Line.wf, h]
  decide
theorem test_wf_ft_line : Line.wf (.ft [(0x61#8, 2 ^ 32)]) = false := by decide
theorem test_wf_len_line : Line.wf (.lenSb (2 ^ 32)) = false ∧ Line.wf (.lenBb (2 ^ 32)) = false := by decide
theorem test_wf_expect_line : Line.wf (.expect (.loc .ctLen 256) 0) = false := by decide

/-! ### Decoding: each word from the spec's encoding (R92, R95, opcode_table.json) -/

/-- Ports that carry a value each. -/
def ports : Ports := { sym := 0x62#8, item := 3#9, weight := 7#40 }

theorem test_decode_COUNT : decode (.host 0b00000001#8) = .instr .cmdCount := by decide
theorem test_decode_BUILD : decode (.host 0b00000010#8) = .instr .cmdBuild := by decide
theorem test_decode_ENCODE : decode (.host 0b00000011#8) = .instr .cmdEncode := by decide
theorem test_decode_DECODE : decode (.host 0b00000100#8) = .instr .cmdDecode := by decide
theorem test_decode_FA_CLEAR : decode (.micro 0b0000#4 ports) = .instr .faClear := by decide
theorem test_decode_FA_ADD : decode (.micro 0b0001#4 ports) = .instr (.faAdd 0x62#8) := by decide
theorem test_decode_PQ_CLEAR : decode (.micro 0b0010#4 ports) = .instr .pqClear := by decide
theorem test_decode_PQ_PUSH : decode (.micro 0b0011#4 ports) = .instr (.pqPush 3#9 7#40) := by decide
theorem test_decode_PQ_POP : decode (.micro 0b0100#4 ports) = .instr .pqPop := by decide
theorem test_decode_PQ_ISEMPTY : decode (.micro 0b0101#4 ports) = .instr .pqIsEmpty := by decide
theorem test_decode_TB_BUILD : decode (.micro 0b0110#4 ports) = .instr .tbBuild := by decide
theorem test_decode_CG_GEN : decode (.micro 0b0111#4 ports) = .instr .cgGen := by decide
theorem test_decode_ENC_RUN : decode (.micro 0b1000#4 ports) = .instr .encRun := by decide
theorem test_decode_DEC_RUN : decode (.micro 0b1001#4 ports) = .instr .decRun := by decide
theorem test_decode_illegal : decode (.host 0x81#8) = .reject (.illegalCommand 0x81#8) := by decide
theorem test_decode_reserved : decode (.micro 0b1111#4 ports) = .reject (.reservedMicroOp 0xF#4) := by decide
theorem test_table_rows :
    decodeTableWord 8 0x02 = some .cmdBuild ∧ decodeTableWord 4 0x2 = some .pqClear ∧
    decodeTableWord 8 0x06 = some .tbBuild ∧ decodeTableWord 4 0x9 = some .decRun ∧
    decodeTableWord 4 0xA = none := by decide

/-! ### One step of each instruction -/

/-- V-FA-1. -/
theorem test_FA_CLEAR : after (exec .faClear abc) (fun t => t.count 0x61#8 == 0#32 && t.root == 4#9) = true := by decide

/-- V-FA-3: a second symbol appears with count 1. -/
theorem test_FA_ADD :
    after (exec (.faAdd 0x64#8) abc) (fun t => t.count 0x64#8 == 1#32 && t.count 0x61#8 == 3#32) = true := by decide

/-- V-PQ-3. -/
theorem test_PQ_CLEAR : after (exec .pqClear queue4) (fun t => t.heapN == 0 && t.seq == 0#9) = true := by decide

/-- V-PQ-1 step 6: the entry stays below an equal weight pushed earlier. -/
theorem test_PQ_PUSH :
    after (exec (.pqPush 4#9 3#40) queue4)
      (fun t => t.heap.map (fun e => e.item.toNat) == [3, 1, 2, 0, 4] && t.seq == 5#9) = true := by decide

/-- V-PQ-4. -/
theorem test_PQ_PUSH_exhausted :
    after (exec (.pqPush 4#9 3#40) { queue4 with seq := 511#9 })
      (fun t => t.reply.result == .fail .capacity && t.heapN == 4) = true := by decide

/-- R145, example. -/
theorem test_PQ_POP :
    after (exec .pqPop queue4) (fun t => t.reply.item == some 3#9 && t.reply.weight == some 1#40 &&
      t.heap.map (fun e => e.item.toNat) == [1, 0, 2] && t.seq == 4#9) = true := by decide

/-- V-PQ-2. -/
theorem test_PQ_POP_empty :
    after (exec .pqPop State.reset) (fun t => t.reply.result == .fail .emptyQueue) = true := by decide

/-- V-PQ-1 steps 1 and 8. -/
theorem test_PQ_ISEMPTY :
    after (exec .pqIsEmpty State.reset) (fun t => t.reply.empty == some true) = true ∧
    after (exec .pqIsEmpty queue4) (fun t => t.reply.empty == some false) = true := by decide

/-- V-TB-1. -/
theorem test_TB_BUILD :
    after (exec .tbBuild { abc with node := [], root := 0#9, treeValid := false })
      (fun t => t.node == abc.node && t.root == 4#9 && t.seq == 5#9 && t.k == 5#9 && t.treeValid) = true := by decide

/-- V-TB-3. -/
theorem test_TB_BUILD_empty :
    after (exec .tbBuild { abc with ft := [] })
      (fun t => t.reply.result == .fail .emptyAlphabet && t.treeValid && t.node == abc.node) = true := by decide

/-- V-CG-9: the old entries are gone. -/
theorem test_CG_GEN :
    after (exec .cgGen { onlyA with ct := [(0x78, codeEntry [false]), (0x79, codeEntry [true])] })
      (fun t => t.ct == onlyA.ct) = true := by decide

/-- V-CG-3. -/
theorem test_CG_GEN_no_tree :
    after (exec .cgGen State.reset) (fun t => t.reply.result == .fail .emptyTree) = true := by decide

/-- V-ENC-1. -/
theorem test_ENC_RUN :
    after (exec .encRun (withSymbols aaabbc abc)) (fun t => t.stream == bits9 && t.bbLen == 9#32) = true := by decide

/-- V-ENC-9: at index 5, 7 + 2 > 8. -/
theorem test_ENC_RUN_full :
    (encRun { Config.depths with bb := 8 } (withSymbols aaabbc abc)).2 = .fail .capacity := by decide

/-- V-DEC-1. -/
theorem test_DEC_RUN :
    after (exec .decRun (withStream bits9 abc)) (fun t => t.decoded == aaabbc && t.dbLen == 6#32) = true := by decide

/-- V-DEC-10: the "a" of index 0 is discarded. -/
theorem test_DEC_RUN_leaf_root :
    after (exec .decRun (withStream [false, true] onlyA))
      (fun t => t.reply.result == .fail .malformedStream && t.dbLen == 0#32) = true := by decide

/-- R251, example: SB = "aaabbc". -/
theorem test_COUNT :
    after (exec .cmdCount (withSymbols aaabbc onlyA)) (fun t => t.ft == abc.ft && t.err == 0#3) = true := by decide

/-- V-SEQ-14. -/
theorem test_COUNT_too_long :
    after (exec .cmdCount { abc with sbLen := 4097#32 }) (fun t => t.err == 6#3 && t.ft == abc.ft) = true := by decide

/-- P1 after BUILD. -/
theorem test_BUILD :
    after (exec .cmdBuild { State.reset with ft := abc.ft })
      (fun t => t.ct == abc.ct && t.root == 4#9 && t.err == 0#3 && t.status == 0x02#8) = true := by decide

/-- V-SEQ-7. -/
theorem test_BUILD_empty :
    after (exec .cmdBuild { abc with ft := [] })
      (fun t => t.err == 1#3 && t.treeValid && t.ct == abc.ct) = true := by decide

/-- V-ENC-3: the unknown symbol d. -/
theorem test_ENCODE_unknown :
    after (exec .cmdEncode (withSymbols [0x61#8, 0x62#8, 0x64#8] abc))
      (fun t => t.err == 3#3 && t.bbLen == 0#32) = true := by decide

/-- V-ENC-5: "abc". -/
theorem test_ENCODE :
    after (exec .cmdEncode (withSymbols [0x61#8, 0x62#8, 0x63#8] abc))
      (fun t => t.err == 0#3 && t.stream == [false, true, true, true, false]) = true := by decide

/-- V-DEC-3: ends at node 3. -/
theorem test_DECODE_malformed :
    after (exec .cmdDecode (withStream [true] abc)) (fun t => t.err == 4#3 && t.dbLen == 0#32) = true := by decide

/-- R254, example: "01110" gives "abc". -/
theorem test_DECODE :
    after (exec .cmdDecode (withStream [false, true, true, true, false] abc))
      (fun t => t.err == 0#3 && t.decoded == [0x61#8, 0x62#8, 0x63#8]) = true := by decide

/-! ### Steps, host access and the script -/

/-- V-SEQ-8: STATUS = 0x1E. -/
theorem test_illegal_word :
    after (step (abc.giveNext (.hostWrite 0x000000#24 0x09#32))) (fun t => t.status == 0x1E#8) = true := by decide

/-- V-SEQ-3: 0x101 is truncated to COUNT. -/
theorem test_command_truncated :
    after (step (given (.hostWrite 0x000000#24 0x101#32))) (fun t => t.err == 0#3) = true := by decide

/-- The host view of V-CG-1, by its addresses. -/
theorem test_host_view :
    memRead 0x000262#24 abc = 2#32 ∧ memRead 0x016200#24 abc = 1#32 ∧ memRead 0x016201#24 abc = 1#32 ∧
    memRead 0x016202#24 abc = 0#32 ∧ memRead 0x000264#24 abc = 0#32 ∧ memRead 0x0162FF#24 abc = 0#32 ∧
    memRead 0x000161#24 abc = 3#32 := by decide

/-- V-SEQ-12 and V-SEQ-13. -/
theorem test_write_truncated :
    after (step (given (.hostWrite 0x100000#24 0x161#32))) (fun t => memRead 0x100000#24 t == 0x61#32) = true ∧
    after (step (given (.hostWrite 0x200003#24 2#32))) (fun t => memRead 0x200003#24 t == 0#32) = true ∧
    after (step (given (.hostWrite 0x200003#24 3#32))) (fun t => memRead 0x200003#24 t == 1#32) = true := by decide

/-- V-SEQ-10 and V-SEQ-11. -/
theorem test_ignored_accesses :
    memWrite 0x000001#24 0xFF#32 abc = abc ∧ memWrite 0x000004#24 5#32 abc = abc ∧ memWrite 0x000261#24 3#32 abc = abc ∧
    memWrite 0x300000#24 0x41#32 abc = abc ∧ memWrite 0x000050#24 1#32 abc = abc ∧
    memRead 0x000000#24 abc = 0#32 ∧ memRead 0x000050#24 abc = 0#32 := by decide

/-- V-RST-1. -/
theorem test_reset_event :
    after (step (abc.giveNext .reset)) (fun t => t.status == 0x00#8 && t.ft == [] && t.ct == [] && !t.treeValid) = true := by
  decide

/-- The codes of R281. -/
theorem test_error_codes :
    ErrKind.code .emptyAlphabet = 1#3 ∧ ErrKind.code .emptyTree = 2#3 ∧ ErrKind.code .unknownSymbol = 3#3 ∧
    ErrKind.code .malformedStream = 4#3 ∧ ErrKind.code .emptyQueue = 5#3 ∧ ErrKind.code .capacity = 6#3 ∧
    ErrKind.code .illegalCommand = 7#3 := by decide

/-- P2's assembled accesses (R101, R102). -/
theorem test_assemble :
    ([Line.sb [0x61#8, 0x61#8], .roundtrip].flatMap assemble) =
      [ .input (.hostWrite 0x100000#24 0x61#32), .input (.hostWrite 0x100001#24 0x61#32)
      , .input (.hostWrite 0x000002#24 2#32), .input (.hostWrite 0x000000#24 1#32)
      , .input (.hostWrite 0x000000#24 2#32), .input (.hostWrite 0x000000#24 3#32)
      , .input (.hostWrite 0x000000#24 4#32) ] := by decide

/-- Lines of P4 and P6 (R100, R101), and quoted characters as log entry 16 reads them. -/
theorem test_read_lines :
    readLine ".sb \"ab;c\" ; comment".toList = .line (.sb [0x61#8, 0x62#8, 0x3B#8, 0x63#8]) ∧
    readLine "decode ; ERR = 2".toList = .line .decode ∧ readLine ".cmd 0x07".toList = .line (.cmd 7) ∧
    readLine ".ft 'a'=5 0x62=9".toList = .line (.ft [(0x61#8, 5), (0x62#8, 9)]) ∧
    readLine ".ft ' '=3 '''=4 ';'=5 ; comment".toList = .line (.ft [(0x20#8, 3), (0x27#8, 4), (0x3B#8, 5)]) ∧
    readLine ".expect ERR = 2".toList = .line (.expect .err 2) ∧ readLine ".cmd 256".toList = .wrong := by decide

/-! ### A state and operands that meet the hypotheses of each obligation -/

theorem next_of_after {o : Host.Outcome State Fault Refusal} {p : State → Bool} (h : after o p = true) :
    ∃ t, o = .next t ∧ p t = true := by
  cases o with
  | next t => exact ⟨t, rfl, h⟩
  | fault f => simp [after] at h
  | refused r => simp [after] at h

theorem treeWf_abc : TreeWf abc 3 :=
  ⟨by decide, by decide, by decide, by decide, by decide, by decide, by decide, by decide, by decide, by decide⟩

theorem treeWf_onlyA : TreeWf onlyA 1 :=
  ⟨by decide, by decide, by decide, by decide, by decide, by decide, by decide, by decide, by decide, by decide⟩

theorem queueOk_queue4 : QueueOk queue4 := ⟨by decide, by decide, by decide, by decide⟩

theorem queueOk_queue4' : QueueOk queue4' := ⟨by decide, by decide, by decide, by decide⟩

theorem tableOk_abc : TableOk abc := by
  refine ⟨fun _ => ?_, fun h => absurd h (by decide)⟩
  obtain ⟨T, hT⟩ := Option.isSome_iff_exists.mp (show abc.tree.isSome = true by decide)
  refine ⟨T, hT, fun x => ?_⟩
  have h : ∀ x : Sym, abc.codewordOf x = abc.tree.bind (fun T => T.codes.lookup x) := by decide
  rw [h, hT]; rfl

theorem codesPadded_abc : CodesPadded abc := fun x =>
  (codewordOf_assignAll (ps := [(0x61#8, [false]), (0x62#8, [true, true]), (0x63#8, [true, false])])
    (by decide) (by decide) (by decide) x).2

theorem inv_abc : Inv abc :=
  ⟨rfl, by decide, fun _ => ⟨3, treeWf_abc⟩, ⟨by decide, by decide, by decide, by decide⟩, codesPadded_abc,
    fun h => absurd h (by decide)⟩

/-- One symbol repeated, in a table where it has one codeword. -/
theorem concatCodes_replicate {s : State} {x : Sym} {p : List Digit} (h : s.codewordOf x = some p) (n : Nat) :
    s.concatCodes (List.replicate n x) = some (List.replicate n p).flatten := by
  induction n with
  | zero => rfl
  | succ n ih => simp [List.replicate_succ, State.concatCodes, h, ih]

theorem symbols_withSymbols {xs : List Sym} (s : State) (h : xs.length < 2 ^ 32) : (withSymbols xs s).symbols = xs := by
  have hl : (withSymbols xs s).sbLen.toNat = xs.length := by
    simp only [withSymbols, BitVec.toNat_ofNat, Config.two_pow_lenW]; omega
  refine List.ext_getElem (by simp [State.symbols, hl]) fun i h1 h2 => ?_
  simp [State.symbols, State.sbAt, withSymbols, Store.find_ofListFrom, h2]

theorem stream_withStream {ds : List Digit} (s : State) (h : ds.length < 2 ^ 32) : (withStream ds s).stream = ds := by
  have hl : (withStream ds s).bbLen.toNat = ds.length := by
    simp only [withStream, BitVec.toNat_ofNat, Config.two_pow_lenW]; omega
  refine List.ext_getElem (by simp [State.stream, hl]) fun i h1 h2 => ?_
  simp [State.stream, State.bbAt, withStream, Store.find_ofListFrom, h2]

/-- Both formats, at the ends of their ranges. -/
theorem test_witness_StepRunsDecodedInstruction :
    (given (.hostWrite cmdAddr 0xFFFFFF01#32)).busy = false ∧
    decode (.host ((0xFFFFFF01#32).setWidth 8)) = .instr .cmdCount ∧
    decode (.host ((0x04#32).setWidth 8)) = .instr .cmdDecode ∧
    (given (.micro 0#4 ports)).pending = [.micro 0#4 ports] ∧ decode (.micro 0#4 ports) = .instr .faClear ∧
    decode (.micro 9#4 ports) = .instr .decRun := by decide

theorem test_witness_PlacedTableWordRuns :
    State.reset.busy = false ∧ decodeTableWord 8 0x04 = some .cmdDecode ∧ decodeTableWord 4 0x0 = some .faClear := by
  decide

theorem test_witness_IllegalCommandChangesOnlyErr :
    abc.busy = false ∧ (given (.hostWrite cmdAddr 0x100#32)).pending = [.hostWrite cmdAddr 0x100#32] ∧
    ¬ (1 ≤ (0x100#32).toNat % 256 ∧ (0x100#32).toNat % 256 ≤ 4) ∧
    ¬ (1 ≤ (5#32).toNat % 256 ∧ (5#32).toNat % 256 ≤ 4) ∧
    ¬ (1 ≤ (0xFF#32).toNat % 256 ∧ (0xFF#32).toNat % 256 ≤ 4) := by decide

theorem test_witness_IgnoredInputs :
    (given (.micro 10#4 ports)).busy = false ∧ (given (.micro 10#4 ports)).pending = [.micro 10#4 ports] ∧
    10 ≤ (10#4).toNat ∧ 10 ≤ (15#4).toNat ∧ State.reset.pending = [] := by decide

theorem test_witness_BusyAccessRefused :
    ((given (.hostRead cmdAddr)).accept.busy = true ∧
      (given (.hostRead cmdAddr)).accept.pending = [.hostRead cmdAddr] ∧ Input.hostRead cmdAddr ≠ .reset ∧
      Input.hostRead cmdAddr ≠ .hostRead statusAddr) ∧
    (given (.hostRead statusAddr)).accept.pending = [.hostRead statusAddr] := by decide

theorem test_witness_ResetValues :
    ∃ s : State, s.busy = true ∧ s.pending = .reset :: [] ∧ ∃ t, step s = .next t ∧ t.pending = [] :=
  ⟨(given .reset).accept, rfl, rfl, _, rfl, rfl⟩

/-- The last location of every region. -/
theorem test_witness_HostReadReturnsLocation :
    ∀ r : Region,
      (given (.hostRead (regionAddress r (r.size - 1)))).busy = false ∧ r.size - 1 < r.size ∧
      (given (.hostRead (regionAddress r (r.size - 1)))).pending = [.hostRead (regionAddress r (r.size - 1))] :=
  fun r => ⟨rfl, by cases r <;> decide, rfl⟩

theorem test_witness_HostWriteStoresLocation :
    ∀ r ∈ [Region.status, .sbLen, .bbLen, .dbLen, .ft, .ctLen, .ctBit, .sb, .bb, .db],
      State.reset.busy = false ∧ r ≠ .cmd ∧ r.size - 1 < r.size ∧
      (given (.hostWrite (regionAddress r (r.size - 1)) 5#32)).pending =
        [.hostWrite (regionAddress r (r.size - 1)) 5#32] := by
  refine fun r hr => ⟨rfl, ?_, by cases r <;> decide, rfl⟩
  rintro rfl
  exact absurd hr (by decide)

/-- The first unmapped address, the one past BB, and the last of the space. -/
theorem test_witness_UnmappedAddress :
    ∀ a ∈ [0x000005#24, 0x208000#24, 0xFFFFFF#24],
      (given (.hostRead a)).busy = false ∧ (given (.hostRead a)).pending = [.hostRead a] ∧
      (given (.hostWrite a 1#32)).pending = [.hostWrite a 1#32] ∧
      ∀ r i, i < Region.size r → regionAddress r i ≠ a := by
  refine fun a ha => ⟨rfl, rfl, rfl, fun r i hi e => ?_⟩
  have hn := regionAddress_toNat hi
  rw [e] at hn
  simp only [List.mem_cons, List.not_mem_nil, or_false] at ha
  rcases ha with rfl | rfl | rfl <;> cases r <;>
    simp only [Region.size_eq, rowOf, BitVec.toNat_ofNat, Nat.reducePow, Nat.reduceMod] at hi hn <;> omega

theorem test_witness_HostWritesIdempotent :
    State.reset.busy = false ∧ regionAddress .bb 32767 ≠ cmdAddr ∧
    ((given (.hostWrite (regionAddress .bb 32767) 1#32)).giveNext (.hostWrite (regionAddress .bb 32767) 1#32)).pending =
      [.hostWrite (regionAddress .bb 32767) 1#32, .hostWrite (regionAddress .bb 32767) 1#32] := by decide

theorem test_witness_StatusLayout :
    abc.busy = false ∧ (abc.giveNext (.hostWrite statusAddr 0xFF#32)).pending = [.hostWrite statusAddr 0xFF#32] := by
  decide

/-- One below the largest count. -/
theorem test_witness_FaAddIncrementsOneCount :
    { abc with ft := [(0x61, 0xFFFFFFFE#32)] }.count 0x61#8 ≠ BitVec.allOnes 32 := by decide

theorem test_witness_FaAddAtLargestCount :
    { abc with ft := [(0x61, 0xFFFFFFFF#32)] }.count 0x61#8 = BitVec.allOnes 32 := by decide

theorem test_witness_CountComputesFrequencies :
    (withSymbols (List.replicate 4096 0x61#8) abc).sbLen.toNat ≤ 4096 ∧
    (∃ s s' t t' : State, s.sbLen.toNat ≤ 4096 ∧ s.symbols.Perm s'.symbols ∧ exec .cmdCount s = .next t ∧
      exec .cmdCount s' = .next t') ∧
    4096 < { abc with sbLen := 4097#32 }.sbLen.toNat := by
  refine ⟨by simp [withSymbols], ⟨withSymbols [0x61#8, 0x62#8] abc, withSymbols [0x62#8, 0x61#8] abc, _, _, by decide,
    by decide, rfl, rfl⟩, by decide⟩

theorem test_witness_CommandsRunTheirMicroOperations :
    (withSymbols aaabbc abc).sbLen.toNat ≤ 4096 ∧
    (∃ t, exec .tbBuild State.reset = .next t ∧ t.reply.result ≠ .ok) ∧
    ∃ t u, exec .tbBuild abc = .next t ∧ t.reply.result = .ok ∧ exec .cgGen t = .next u := by
  refine ⟨by decide, ⟨_, rfl, by decide⟩, ?_⟩
  obtain ⟨t, ht, h⟩ := next_of_after (o := exec .tbBuild abc)
    (p := fun t => t.reply.result == .ok && after (exec .cgGen t) (fun _ => true)) (by decide)
  simp only [Bool.and_eq_true, beq_iff_eq] at h
  obtain ⟨u, hu, -⟩ := next_of_after h.2
  exact ⟨t, u, ht, h.1, hu⟩

/-- The last push that succeeds, the counter at its end, and the full queue. -/
theorem test_witness_PqPushAddsEntry :
    ({ queue4 with seq := 510#9 }.heapN < 256 ∧ { queue4 with seq := 510#9 }.seq.toNat < 511) ∧
    { queue4 with seq := 511#9 }.seq.toNat = 511 ∧
    { queue4 with heap := List.replicate 256 { item := 0#9, weight := 0#40, seq := 0#9 } }.heapN = 256 := by decide

theorem test_witness_PqPopTakesLeast : (QueueOk queue4 ∧ queue4.heap ≠ []) ∧ State.reset.heap = [] :=
  ⟨⟨queueOk_queue4, by decide⟩, rfl⟩

theorem test_witness_PqLayoutUnobservable :
    QueueOk queue4 ∧ QueueOk queue4' ∧ queue4' = { queue4 with heap := queue4'.heap } ∧
    queue4'.heap.Perm queue4.heap ∧ Instr.pqPop = .pqPop :=
  ⟨queueOk_queue4, queueOk_queue4', rfl, by decide, rfl⟩

theorem test_witness_EmptyAlphabetWritesNothing : ∀ x, { abc with ft := [] }.count x = 0#32 := fun _ => rfl

theorem test_witness_TbBuildMakesWellFormedTree : abc.recorded ≠ [] := by decide

theorem test_witness_TbBuildMergesLeastPairs : onlyA.recorded ≠ [] := by decide

theorem test_witness_BuildDependsOnFrequenciesOnly :
    (∀ x, abc.count x = { State.reset with ft := abc.ft }.count x) ∧ abc.recorded ≠ [] := ⟨fun _ => rfl, by decide⟩

theorem test_witness_OneSymbolAlphabet : onlyA.recorded = [0x61#8] := by decide

theorem test_witness_CgGenWithoutTree : State.reset.treeValid = false := rfl

/-- The tree with an internal root, and the one whose root is a leaf. -/
theorem test_witness_CgGenWritesRootPaths :
    (abc.treeValid = true ∧ TreeWf abc 3) ∧ onlyA.treeValid = true ∧ TreeWf onlyA 1 :=
  ⟨⟨rfl, treeWf_abc⟩, rfl, treeWf_onlyA⟩

theorem test_witness_CgGenFollowsRecursion :
    abc.treeValid = true ∧ TreeWf abc 3 ∧ (abc.nodeAt abc.root).leaf = false := ⟨rfl, treeWf_abc, by decide⟩

theorem test_witness_CodewordsPrefixFree :
    abc.treeValid = true ∧ TreeWf abc 3 ∧ (0x61#8 : Sym) ≠ 0x62#8 ∧ abc.codewordOf 0x61#8 = some [false] ∧
    abc.codewordOf 0x62#8 = some [true, true] := ⟨rfl, treeWf_abc, by decide, by decide, by decide⟩

theorem test_witness_BuildCoversRecordedSymbols : onlyA.recorded ≠ [] ∧ abc.recorded ≠ [] := by decide

theorem test_witness_BuildReplacesTreeAndTable : { abc with node := [], treeValid := false }.recorded ≠ [] := by decide

theorem test_witness_BuildAgainChangesNothing : abc.recorded ≠ [] := by decide

theorem test_witness_EncRunConcatenatesCodewords :
    (withSymbols aaabbc abc).sbLen.toNat ≤ 4096 ∧
    (withSymbols aaabbc abc).concatCodes (withSymbols aaabbc abc).symbols = some bits9 ∧ bits9.length ≤ 32768 := by
  decide

/-- "abd": the unknown symbol is at index 2. -/
theorem test_witness_EncRunUnknownSymbol :
    (withSymbols [0x61#8, 0x62#8, 0x64#8] abc).sbLen.toNat ≤ 4096 ∧
    2 < (withSymbols [0x61#8, 0x62#8, 0x64#8] abc).sbLen.toNat ∧
    (withSymbols [0x61#8, 0x62#8, 0x64#8] abc).concatCodes
      ((withSymbols [0x61#8, 0x62#8, 0x64#8] abc).symbols.take 2) = some [false, true, true] ∧
    [false, true, true].length ≤ 32768 ∧
    (withSymbols [0x61#8, 0x62#8, 0x64#8] abc).codewordOf ((withSymbols [0x61#8, 0x62#8, 0x64#8] abc).sbAt 2) = none := by
  decide

/-- 128 codewords of 255 digits fit, a 129th does not; and a length past the buffer. -/
theorem test_witness_EncRunCapacityFault :
    (∃ (s : State) (i : Nat) (q p : List Digit), s.sbLen.toNat ≤ 4096 ∧ i < s.sbLen.toNat ∧
      s.concatCodes (s.symbols.take i) = some q ∧ q.length ≤ 32768 ∧ s.codewordOf (s.sbAt i) = some p ∧
      32768 < q.length + p.length) ∧
    4096 < { abc with sbLen := 4097#32 }.sbLen.toNat := by
  have hc : (withSymbols (List.replicate 129 0x61#8) longCode).codewordOf 0x61#8 = some (List.replicate 255 true) := by
    decide
  have hc' : (withSymbols (List.replicate 129 0x61#8) longCode).codewordOf
      ((withSymbols (List.replicate 129 0x61#8) longCode).sbAt 128) = some (List.replicate 255 true) := by
    decide
  have hlen : ∀ (n : Nat) (p : List Digit), (List.replicate n p).flatten.length = n * p.length := by
    intro n p
    induction n with
    | zero => simp
    | succ n ih => rw [List.replicate_succ, List.flatten_cons, List.length_append, ih, Nat.succ_mul, Nat.add_comm]
  have hq : (withSymbols (List.replicate 129 0x61#8) longCode).concatCodes
      ((withSymbols (List.replicate 129 0x61#8) longCode).symbols.take 128) =
        some (List.replicate 128 (List.replicate 255 true)).flatten := by
    rw [symbols_withSymbols _ (by rw [List.length_replicate]; decide), List.take_replicate]
    exact concatCodes_replicate hc 128
  have h1 : (List.replicate 128 (List.replicate 255 true)).flatten.length = 32640 := by
    rw [hlen, List.length_replicate]
  have h2 : (List.replicate 255 true).length = 255 := List.length_replicate
  exact ⟨⟨withSymbols (List.replicate 129 0x61#8) longCode, 128, _, _, by decide, by decide, hq, by omega, hc', by omega⟩,
    by decide⟩

theorem test_witness_EmptyTreeErrorComesFirst :
    State.reset.treeValid = false ∧ ∃ t, exec .cmdDecode State.reset = .next t ∧ t.err = 2#3 := ⟨rfl, _, rfl, rfl⟩

theorem test_witness_DecRunWalksTree :
    ((withStream bits9 abc).treeValid = true ∧ TreeWf (withStream bits9 abc) 3) ∧
    { abc with bbLen := 32769#32 }.treeValid = true ∧ TreeWf { abc with bbLen := 32769#32 } 3 :=
  ⟨⟨rfl, TreeWf.congr (s := abc) rfl rfl treeWf_abc⟩, rfl, TreeWf.congr (s := abc) rfl rfl treeWf_abc⟩

/-- As many symbols as DB holds, then a digit 1. -/
theorem test_witness_LeafRootDecoding :
    onlyA.treeValid = true ∧ (onlyA.nodeAt onlyA.root).leaf = true ∧
    (withStream (List.replicate 4096 false) onlyA).bbLen.toNat ≤ 32768 ∧
    (withStream (List.replicate 4096 false) onlyA).stream = List.replicate 4096 false ∧
    (withStream (List.replicate 4096 false ++ [true]) onlyA).stream = List.replicate 4096 false ++ true :: [] := by
  refine ⟨rfl, by decide, by simp [withStream], ?_, ?_⟩
  · exact stream_withStream _ (by simp)
  · exact stream_withStream _ (by simp)

theorem test_witness_DecodingSucceedsOnCodewordsOnly :
    (withStream bits9 abc).treeValid = true ∧ TreeWf (withStream bits9 abc) 3 ∧ TableOk (withStream bits9 abc) ∧
    (withStream bits9 abc).bbLen.toNat ≤ 32768 :=
  ⟨rfl, TreeWf.congr (s := abc) rfl rfl treeWf_abc, tableOk_abc, by decide⟩

theorem test_witness_EmptyInputsSucceed :
    State.reset.sbLen = 0#32 ∧ abc.treeValid = true ∧ abc.bbLen = 0#32 := ⟨rfl, rfl, rfl⟩

theorem test_witness_RoundTrip :
    (withSymbols aaabbc abc).treeValid = true ∧ TreeWf (withSymbols aaabbc abc) 3 ∧ TableOk (withSymbols aaabbc abc) ∧
    (withSymbols aaabbc abc).sbLen.toNat ≤ 4096 ∧
    (withSymbols aaabbc abc).concatCodes (withSymbols aaabbc abc).symbols = some bits9 ∧ bits9.length ≤ 32768 :=
  ⟨rfl, TreeWf.congr (s := abc) rfl rfl treeWf_abc, tableOk_abc, by decide, by decide, by decide⟩

theorem test_witness_EndToEndRoundTrip :
    (1 ≤ { abc with sbLen := 1#32 }.sbLen.toNat ∧ { abc with sbLen := 4096#32 }.sbLen.toNat ≤ 4096) ∧
    abc.sbLen = 0#32 := by decide

theorem test_witness_FailedCommandKeepsTheRest :
    (∃ s t, exec .cmdCount s = .next t ∧ t.err ≠ 0#3) ∧ (∃ s t, exec .cmdBuild s = .next t ∧ t.err ≠ 0#3) ∧
    (∃ s t, exec .cmdEncode s = .next t ∧ t.err ≠ 0#3) ∧ (∃ s t, exec .cmdDecode s = .next t ∧ t.err ≠ 0#3) := by
  refine ⟨⟨{ abc with sbLen := 4097#32 }, _, rfl, by decide⟩, ⟨State.reset, _, rfl, by decide⟩,
    ⟨{ abc with sbLen := 4097#32 }, _, rfl, by decide⟩, ⟨State.reset, _, rfl, by decide⟩⟩

theorem test_witness_TreeValidClearedOnlyByReset :
    ∃ t, step (abc.giveNext .reset) = .next t ∧ (abc.giveNext .reset).treeValid = true ∧ t.treeValid = false :=
  ⟨_, rfl, rfl, rfl⟩

/-- BUILD by its command word, on the tree of another FT. -/
theorem test_witness_TreeAndTableChangeOnlyByBuild :
    after (step ({ onlyA with ft := abc.ft }.giveNext (.hostWrite cmdAddr 2#32)))
      (fun t => t.node != onlyA.node && t.ct != onlyA.ct) = true := by decide

theorem test_witness_BuffersWrittenByTheirOwnersOnly :
    after (step (abc.giveNext (.hostWrite (regionAddress .sb 4095) 1#32))) (fun t => t.sb != abc.sb) = true ∧
    after (step (abc.giveNext (.hostWrite (regionAddress .sbLen 0) 1#32))) (fun t => t.sbLen != abc.sbLen) = true ∧
    after (step (abc.giveNext (.hostWrite (regionAddress .ft 255) 1#32))) (fun t => t.ft != abc.ft) = true ∧
    after (step (abc.giveNext (.hostWrite (regionAddress .bb 32767) 1#32))) (fun t => t.bb != abc.bb) = true ∧
    after (step (abc.giveNext (.hostWrite (regionAddress .bbLen 0) 1#32))) (fun t => t.bbLen != abc.bbLen) = true ∧
    after (step ((withStream bits9 abc).giveNext (.micro 9#4 noPorts)))
      (fun t => t.db != abc.db && t.dbLen != abc.dbLen) = true := by decide

theorem test_witness_ErrWrittenByCommandsOnly :
    abc.busy = false ∧ after (step (abc.giveNext (.hostWrite cmdAddr 7#32))) (fun t => t.err != abc.err) = true := by
  decide

/-- COUNT does not write DB. -/
theorem test_witness_HostSeesOnlyDeclaredWrites :
    abc.busy = false ∧ (∃ t, exec .cmdCount abc = .next t) ∧
    ∀ r j, j < Region.size r → regionAddress r j = regionAddress .db 4095 → r ∉ ([.ft, .status] : List Region) := by
  refine ⟨rfl, ⟨_, rfl⟩, fun r j hj e => ?_⟩
  rw [(regionAddress_inj hj (by decide) e).1]
  decide

theorem test_witness_HostSuppliesSymbols : abc.busy = false ∧ (List.replicate 4096 (0x61#8 : Sym)).length ≤ 4096 := by
  refine ⟨rfl, by simp⟩

theorem test_witness_LargeBuffersNeverOverflow :
    (withSymbols aaabbc abc).sbLen.toNat ≤ 6 ∧ 255 * (withSymbols aaabbc abc).sbLen.toNat ≤ 1530 ∧
    (withSymbols aaabbc abc).bbLen.toNat ≤ 1530 ∧ (withSymbols aaabbc abc).bbLen.toNat ≤ 0 := by decide

theorem test_witness_StepKeepsInvariant : Inv abc ∧ step abc = .next abc := ⟨inv_abc, rfl⟩

theorem test_witness_StepKeepsTableConsistent :
    Inv abc ∧ TableOk abc ∧ HostOnly abc ∧ step abc = .next abc :=
  ⟨inv_abc, tableOk_abc, fun _ hi => absurd hi (List.not_mem_nil), rfl⟩

theorem test_witness_GoodRunsNeverStop : Inv abc := inv_abc

end Sys2Proof.Tests
end

section
/-! PROOFS. One step of the machine, by the input it takes (R6, R33, R64, R91 to R96, R250, R320). -/

namespace Sys2Proof.Machine

open Sys2Proof

/-! ### Words and the instructions they carry -/

/-- A command word is its two fields (R91). -/
theorem zeroField_append_opField (c : BitVec 8) : zeroField c ++ opField c = c := by
  have h := BitVec.extractLsb'_append_extractLsb'_eq_extractLsb' (x := c) (start₁ := 0) (len₁ := 3) (start₂ := 3)
    (len₂ := 5) rfl
  simpa [zeroField, opField] using h

/-- A command word that decodes is the word of its instruction (R92). -/
theorem encode_of_decodeHost {c : BitVec 8} {i : Instr} (h : decodeHost c = .instr i) : encode i = .host c := by
  rw [← zeroField_append_opField c]
  unfold decodeHost at h
  split_ifs at h with hz h1 h2 h3 h4
  · cases h; rw [hz, h1]; rfl
  · cases h; rw [hz, h2]; rfl
  · cases h; rw [hz, h3]; rfl
  · cases h; rw [hz, h4]; rfl

/-- A code on the operation bus that decodes is the code of its instruction (R95). -/
theorem encode_of_decodeMicro {u : BitVec 4} {p : Ports} {i : Instr} (h : decodeMicro u p = .instr i) :
    ∃ q, encode i = .micro u q := by
  unfold decodeMicro at h
  split at h
  case h_11 => cases h
  all_goals
    rename_i hu
    cases h
    rw [show u = BitVec.ofNat 4 u.toNat by simp, hu]
    exact ⟨_, rfl⟩

/-- The input makes an idle core run the instruction (R91, R94, R250). -/
inductive Runs : Input → Instr → Prop where
  | host {v : HostWord} {i : Instr} (h : decodeHost (v.setWidth 8) = .instr i) : Runs (.hostWrite cmdAddr v) i
  | micro {u : BitVec 4} {p : Ports} {i : Instr} (h : decodeMicro u p = .instr i) : Runs (.micro u p) i

/-- The input carries an operation word (R33, R64, R94), whatever the operand ports beside it hold. -/
def Carries (x : Input) : OpWord → Prop
  | .host c => ∃ v : HostWord, v.toNat % 256 = c.toNat ∧ x = .hostWrite cmdAddr v
  | .micro u _ => ∃ p, x = .micro u p

/-- Only its own word makes an instruction run (R92, R95). -/
theorem Runs.carries {x : Input} {i : Instr} (h : Runs x i) : Carries x (encode i) := by
  cases h with
  | host h =>
    rw [encode_of_decodeHost h]
    exact ⟨_, by simp, rfl⟩
  | micro h =>
    obtain ⟨q, hq⟩ := encode_of_decodeMicro h
    rw [hq]
    exact ⟨_, rfl⟩

/-! ### What a step computes -/

section Step

variable {s : State} {rest : List Input}

theorem step_of_no_input (h : s.pending = []) : step s = .next s := by
  simp only [step, fetch, h]

theorem step_reset (h : s.pending = .reset :: rest) :
    step s = .next { s with pending := rest }.resetEvent := by
  simp only [step, fetch, h, fetchInput]

theorem step_hostRead {a : Addr} (h : s.pending = .hostRead a :: rest) (hidle : s.busy = false) :
    step s = .next (hostRead a { s with pending := rest }) := by
  simp only [step, fetch, h, fetchInput, hidle, Bool.false_and, Bool.false_eq_true, if_false]

theorem step_hostWrite {a : Addr} {v : HostWord} (h : s.pending = .hostWrite a v :: rest) (hidle : s.busy = false)
    (ha : a ≠ cmdAddr) : step s = .next (memWrite a v { s with pending := rest }) := by
  simp only [step, fetch, h, fetchInput, hidle, Bool.false_eq_true, if_false, ha]

theorem step_command {v : HostWord} {i : Instr} (h : s.pending = .hostWrite cmdAddr v :: rest)
    (hidle : s.busy = false) (hi : decodeHost (v.setWidth 8) = .instr i) :
    step s = exec i { s with pending := rest } := by
  simp only [step, fetch, h, fetchInput, hidle, Bool.false_eq_true, if_false, if_true, fetchCommand, hi]

theorem step_illegalCommand {v : HostWord} {r : Reject} (h : s.pending = .hostWrite cmdAddr v :: rest)
    (hidle : s.busy = false) (hr : decodeHost (v.setWidth 8) = .reject r) :
    step s = .next ({ s with pending := rest }.complete (.fail .illegalCommand)) := by
  simp only [step, fetch, h, fetchInput, hidle, Bool.false_eq_true, if_false, if_true, fetchCommand, hr]
  rfl

theorem step_micro {u : BitVec 4} {p : Ports} {i : Instr} (h : s.pending = .micro u p :: rest)
    (hidle : s.busy = false) (hi : decodeMicro u p = .instr i) : step s = exec i { s with pending := rest } := by
  simp only [step, fetch, h, fetchInput, hidle, Bool.false_eq_true, if_false, fetchMicro, hi]

theorem step_reservedMicro {u : BitVec 4} {p : Ports} {r : Reject} (h : s.pending = .micro u p :: rest)
    (hidle : s.busy = false) (hr : decodeMicro u p = .reject r) : step s = .next { s with pending := rest } := by
  simp only [step, fetch, h, fetchInput, hidle, Bool.false_eq_true, if_false, fetchMicro, hr]

/-- A step that answers a next state found the core idle, or took a read or the reset (R66, R330). -/
theorem idle_of_step {t : State} {x : Input} (h : s.pending = x :: rest) (hs : step s = .next t) :
    s.busy = false ∨ x = .reset ∨ x = .hostRead statusAddr := by
  by_contra hno
  simp only [not_or, Bool.not_eq_false] at hno
  obtain ⟨hb, hx, hr⟩ := hno
  cases x with
  | reset => exact hx rfl
  | hostRead a =>
    have ha : a ≠ statusAddr := fun e => hr (by rw [e])
    simp [step, fetch, h, fetchInput, hb, ha] at hs
  | hostWrite a v => simp [step, fetch, h, fetchInput, hb] at hs
  | micro u p => simp [step, fetch, h, fetchInput, hb] at hs

end Step

/-! ### Everything a step can do -/

/-- `Took u x t`: with the input `x` taken off `u`, a step ends in `t`. Each constructor is one thing a step can do. -/
inductive Took (u : State) : Input → State → Prop where
  | reset : Took u .reset u.resetEvent
  | read (a : Addr) : Took u (.hostRead a) (hostRead a u)
  | write {r : Region} {i : Nat} (v : HostWord) (hidle : u.busy = false) (hr : r ≠ .cmd) (hi : i < r.size) :
      Took u (.hostWrite (regionAddress r i) v) (writeLoc r i v u)
  | unmapped (a : Addr) (v : HostWord) (hidle : u.busy = false) : Took u (.hostWrite a v) u
  | illegal (v : HostWord) : Took u (.hostWrite cmdAddr v) (u.complete (.fail .illegalCommand))
  | reserved (c : BitVec 4) (p : Ports) (hidle : u.busy = false) : Took u (.micro c p) u
  | run {x : Input} {i : Instr} {t : State} (hidle : u.busy = false) (hx : Runs x i) (he : exec i u = .next t) :
      Took u x t

/-- A write of an address other than CMD stores at a location of the map, or is ignored (R61, R65). -/
theorem took_memWrite {u : State} {a : Addr} (v : HostWord) (hidle : u.busy = false) (ha : a ≠ cmdAddr) :
    Took u (.hostWrite a v) (memWrite a v u) := by
  cases hm : mapRow a with
  | none => rw [memWrite, hm]; exact .unmapped a v hidle
  | some m =>
    obtain ⟨-, hi, hma⟩ := mapRow_some hm
    rw [← hma] at ha ⊢
    rw [memWrite_regionAddress hi]
    refine .write v hidle (fun e => ha ?_) hi
    rw [e] at hi ⊢
    rw [Nat.lt_one_iff.mp hi, cmdAddr_eq]

/-- The inversion of a step that had an input to take (R6, R250). -/
theorem took_of_step {s t : State} {x : Input} {rest : List Input} (h : s.pending = x :: rest)
    (hs : step s = .next t) : Took { s with pending := rest } x t := by
  have hidle := idle_of_step h hs
  cases x with
  | reset =>
    rw [step_reset h] at hs
    cases hs
    exact .reset
  | hostRead a =>
    have hstep : step s = .next (hostRead a { s with pending := rest }) := by
      obtain hb | hx | hx := hidle
      · exact step_hostRead h hb
      · cases hx
      · cases hx
        simp [step, fetch, h, fetchInput]
    rw [hstep] at hs
    cases hs
    exact .read a
  | hostWrite a v =>
    replace hidle : s.busy = false := by simpa using hidle
    by_cases ha : a = cmdAddr
    · subst ha
      cases hd : decodeHost (v.setWidth 8) with
      | instr i =>
        rw [step_command h hidle hd] at hs
        exact .run hidle (.host hd) hs
      | reject r =>
        rw [step_illegalCommand h hidle hd] at hs
        cases hs
        exact .illegal v
    · rw [step_hostWrite h hidle ha] at hs
      cases hs
      exact took_memWrite v hidle ha
  | micro c p =>
    replace hidle : s.busy = false := by simpa using hidle
    cases hd : decodeMicro c p with
    | instr i =>
      rw [step_micro h hidle hd] at hs
      exact .run hidle (.micro hd) hs
    | reject r =>
      rw [step_reservedMicro h hidle hd] at hs
      cases hs
      exact .reserved c p hidle

/-! ### Reads and STATUS -/

theorem status_of_idle {s : State} (h : s.busy = false) : s.status = statusWord s.err s.treeValid false := by
  simp [State.status, h]

/-- A digit in the host's data word (R64). -/
theorem setWidth_ofBool (b : Bool) : (BitVec.ofBool b).setWidth 32 = if b then 1#32 else 0#32 := by
  cases b <;> rfl

/-- The fields of STATUS (R32). -/
theorem statusWord_fields : ∀ (e : ErrCode) (v b : Bool),
    (statusWord e v b).getLsbD 0 = b ∧ (statusWord e v b).extractLsb' 5 3 = 0#3 ∧
    (statusWord e v b).getLsbD 1 = v ∧ (statusWord e v b).extractLsb' 2 3 = e := by
  decide

/-- The fields of STATUS that stay defined while BUSY = 1 (R330). -/
theorem busyStatus_fields : ∀ f : BitVec 4,
    (0#3 ++ f ++ 1#1).getLsbD 0 = true ∧ (0#3 ++ f ++ 1#1).extractLsb' 5 3 = 0#3 := by
  decide

/-- Settles O3: `step_command` and `step_micro`. -/
theorem stepRunsDecodedInstruction : Obligations.StepRunsDecodedInstruction :=
  ⟨fun _ _ _ _ hidle h hi => step_command h hidle hi, fun _ _ _ _ _ hidle h hi => step_micro h hidle hi⟩

/-- Settles O11: the step reads the location that the address names, region by region. -/
theorem hostReadReturnsLocation : Obligations.HostReadReturnsLocation := by
  intro s r i rest hidle hi h
  rw [step_hostRead h hidle, hostRead, memRead_regionAddress hi]
  refine congrArg (fun d => Host.Outcome.next { s with pending := rest, hostData := d }) ?_
  cases r with
  | status => exact congrArg (BitVec.setWidth 32) (status_of_idle (s := { s with pending := rest }) hidle)
  | sbLen | bbLen | dbLen | ft => exact BitVec.setWidth_eq _
  | ctBit => exact if_congr Iff.rfl (setWidth_ofBool _) rfl
  | bb => exact setWidth_ofBool _
  | cmd | ctLen | sb | db => rfl

/-- Settles O15: STATUS field by field, and a write of its address falls in a region that stores nothing. -/
theorem statusLayout : Obligations.StatusLayout := by
  refine ⟨fun s => ?_, rfl, fun s v rest hidle h => ?_⟩
  · cases hb : s.busy with
    | false =>
      rw [status_of_idle hb]
      obtain ⟨h0, h5, h1, h2⟩ := statusWord_fields s.err s.treeValid false
      exact ⟨h0, h5, fun _ => ⟨h1, h2⟩⟩
    | true =>
      have hs : s.status = 0#3 ++ Config.freeStatus s.free ++ 1#1 := by simp [State.status, hb]
      rw [hs]
      obtain ⟨h0, h5⟩ := busyStatus_fields (Config.freeStatus s.free)
      exact ⟨h0, h5, fun h => absurd h (by decide)⟩
  · rw [step_hostWrite h hidle (by decide)]
    exact congrArg _ (memWrite_regionAddress (r := .status) (i := 0) (by decide) v _)

/-! ### Reset (R44, R320) -/

/-- A state with R44's values: what is left open is the model's own (log entries 1, 4, 6 and 12). -/
inductive Cleared : State → Prop where
  | mk (sb bb db : Nat) (pending : List Input) (hostData : HostWord) (free : Nat) :
      Cleared { State.reset with
        sb := { cells := [], epoch := sb }, bb := { cells := [], epoch := bb }, db := { cells := [], epoch := db }
        pending := pending, hostData := hostData, free := free }

theorem reset_cleared : Cleared State.reset := .mk 0 0 0 [] 0#32 0

theorem resetEvent_cleared (s : State) : Cleared s.resetEvent := .mk _ _ _ _ _ _

/-- Settles O8: the state after reset and the reset event's are `Cleared`, and such a state has R44's values. -/
theorem resetValues : Obligations.ResetValues := by
  refine ⟨fun s rest h => ⟨_, step_reset h, rfl⟩, fun t ht => ?_⟩
  have hc : Cleared t := by
    obtain rfl | ⟨s, rest, h, hs, -⟩ := ht
    · exact reset_cleared
    · rw [step_reset h] at hs
      cases hs
      exact resetEvent_cleared _
  cases hc
  exact ⟨fun _ => rfl, fun _ => ⟨rfl, fun _ => BitVec.getLsbD_zero⟩, rfl, rfl, rfl, rfl, rfl, rfl, rfl, rfl, rfl,
    (status_of_idle rfl).trans (show statusWord 0#3 false false = 0#8 from rfl),
    fun _ => rfl, fun _ => rfl, fun _ => rfl, fun _ => rfl⟩

end Sys2Proof.Machine
end

section
/-! PROOFS. What an instruction may change (R20, R70, R72), and with it the rules of who writes what (R27, R29 to R35,
R41, R322). -/

namespace Sys2Proof.Machine

open Sys2Proof

/-! ### The frame of every instruction -/

/-- `s` with the fields that instruction `i` may write taken from `t` (R20, column "written by"; the scratch registers
of R36; the result ports of a micro-operation, log entry 13). -/
def withWrites (i : Instr) (s t : State) : State :=
  match i with
  | .cmdCount => { s with ft := t.ft, err := t.err, busy := false }
  | .cmdBuild => { s with node := t.node, root := t.root, treeValid := t.treeValid, ct := t.ct, heap := t.heap,
                          seq := t.seq, k := t.k, path := t.path, depth := t.depth, dstack := t.dstack, err := t.err,
                          busy := false }
  | .cmdEncode => { s with bb := t.bb, bbLen := t.bbLen, out := t.out, err := t.err, busy := false }
  | .cmdDecode => { s with db := t.db, dbLen := t.dbLen, cur := t.cur, out := t.out, err := t.err, busy := false }
  | .faClear => { s with ft := t.ft, reply := t.reply }
  | .faAdd _ => { s with ft := t.ft, free := t.free, reply := t.reply }
  | .pqClear | .pqPush _ _ => { s with heap := t.heap, seq := t.seq, reply := t.reply }
  | .pqPop => { s with heap := t.heap, reply := t.reply }
  | .pqIsEmpty => { s with reply := t.reply }
  | .tbBuild => { s with node := t.node, root := t.root, treeValid := t.treeValid, heap := t.heap, seq := t.seq,
                         k := t.k, reply := t.reply }
  | .cgGen => { s with ct := t.ct, path := t.path, depth := t.depth, dstack := t.dstack, reply := t.reply }
  | .encRun => { s with bb := t.bb, bbLen := t.bbLen, out := t.out, reply := t.reply }
  | .decRun => { s with db := t.db, dbLen := t.dbLen, cur := t.cur, out := t.out, reply := t.reply }

theorem walkLoop_frame {n : Nat} {s t : State} (h : walkLoop n s = .ok t) :
    t = { s with ct := t.ct, path := t.path, depth := t.depth, dstack := t.dstack } := by
  induction n generalizing s with
  | zero =>
    simp only [walkLoop] at h
    split at h
    · cases h; rfl
    · cases h
  | succ n ih =>
    simp only [walkLoop] at h
    split at h
    · cases h; rfl
    · split at h
      · have hu := ih h
        exact hu
      · split at h
        · cases h
        · have hu := ih h
          exact hu

/-- CG_GEN writes CT and the traversal's registers, on any node storage. -/
theorem cgGen_frame {s t : State} {r : Result} (h : cgGen s = .ok (t, r)) :
    t = { s with ct := t.ct, path := t.path, depth := t.depth, dstack := t.dstack } := by
  unfold cgGen at h
  split at h
  · cases h; rfl
  · split at h
    · cases h; rfl
    · split at h
      · rename_i hw
        cases h
        have hu := walkLoop_frame hw
        exact hu
      · cases h

theorem runCount_frame (cap : Config.Capacities) (s : State) :
    (runCount cap s).1 = { s with ft := (runCount cap s).1.ft } := by
  obtain ⟨-, h⟩ | ⟨-, t, h, -, hf⟩ := runCount_spec cap s
  · rw [h]
  · rw [h]; exact hf

theorem pqPush_frame (item : Idx) (weight : Weight) (s : State) :
    (pqPush item weight s).1 =
      { s with heap := (pqPush item weight s).1.heap, seq := (pqPush item weight s).1.seq } := by
  obtain ⟨-, h⟩ | ⟨-, -, g, -, h⟩ := pqPush_cases item weight s <;> rw [h]

theorem pqPop_frame (s : State) : (pqPop s).1 = { s with heap := (pqPop s).1.heap } := by
  unfold pqPop
  split <;> rfl

/-- A BUILD that answers a state completed from where its micro-operations ended (R250, R252). -/
theorem exec_cmdBuild_next {s t : State} (h : exec .cmdBuild s = .next t) :
    ∃ u r, runBuild s.accept = .ok (u, r) ∧ t = u.complete r := by
  simp only [exec, execCmdBuild] at h
  split at h
  · rename_i u r hu
    cases h
    exact ⟨u, r, hu, rfl⟩
  · cases h

theorem exec_tbBuild_next {s t : State} (h : exec .tbBuild s = .next t) :
    ∃ u r, tbBuild s = .ok (u, r) ∧ t = u.present (replyOf r) := by
  simp only [exec, execTbBuild] at h
  split at h
  · rename_i u r hu
    cases h
    exact ⟨u, r, hu, rfl⟩
  · cases h

theorem exec_cgGen_next {s t : State} (h : exec .cgGen s = .next t) :
    ∃ u r, cgGen s = .ok (u, r) ∧ t = u.present (replyOf r) := by
  simp only [exec, execCgGen] at h
  split at h
  · rename_i u r hu
    cases h
    exact ⟨u, r, hu, rfl⟩
  · cases h

theorem exec_pqPop_next {s t : State} (h : exec .pqPop s = .next t) : ∃ r, t = (pqPop s).1.present r := by
  simp only [exec, execPqPop] at h
  split at h
  · rename_i u e hu
    cases h
    exact ⟨_, by rw [hu]⟩
  · rename_i u hu
    cases h
    exact ⟨_, by rw [hu]⟩

theorem tbBuild_frame {s t : State} {r : Result} (h : tbBuild s = .ok (t, r)) :
    t = { s with node := t.node, root := t.root, treeValid := t.treeValid, heap := t.heap, seq := t.seq, k := t.k } := by
  obtain ⟨-, hb⟩ | ⟨-, u, hb, -, -, -, -, -, -, -, hf⟩ := tbBuild_spec s
  · rw [hb] at h; cases h; rfl
  · rw [hb] at h; cases h; exact hf

theorem runBuild_frame {s t : State} {r : Result} (h : runBuild s = .ok (t, r)) :
    t = { s with node := t.node, root := t.root, treeValid := t.treeValid, heap := t.heap, seq := t.seq, k := t.k,
                 ct := t.ct, path := t.path, depth := t.depth, dstack := t.dstack } := by
  obtain ⟨-, hb⟩ | ⟨-, u, T, hb, -, -, -, -, -, -, -, -, -, -, -, -, -, -, -, -, hf⟩ := runBuild_spec s
  · rw [hb] at h; cases h; rfl
  · rw [hb] at h; cases h; exact hf

/-- Everything outside its own fields an instruction leaves alone (R20, R70). -/
theorem exec_frame {i : Instr} {s t : State} (h : exec i s = .next t) : t = withWrites i s t := by
  cases i with
  | cmdCount => cases h; exact congrArg (State.complete · _) (runCount_frame Config.depths s.accept)
  | cmdBuild =>
    obtain ⟨u, r, hu, rfl⟩ := exec_cmdBuild_next h
    exact congrArg (State.complete · r) (runBuild_frame hu)
  | cmdEncode => cases h; exact congrArg (State.complete · _) (encRun_frame Config.depths s.accept)
  | cmdDecode => cases h; exact congrArg (State.complete · _) (decRun_frame Config.depths s.accept)
  | faClear | pqClear | pqIsEmpty => cases h; rfl
  | faAdd x => cases h; exact congrArg (State.present · _) (faAdd_frame x s)
  | pqPush item weight => cases h; exact congrArg (State.present · _) (pqPush_frame item weight s)
  | pqPop =>
    obtain ⟨r, rfl⟩ := exec_pqPop_next h
    exact congrArg (State.present · r) (pqPop_frame s)
  | tbBuild =>
    obtain ⟨u, r, hu, rfl⟩ := exec_tbBuild_next h
    exact congrArg (State.present · _) (tbBuild_frame hu)
  | cgGen =>
    obtain ⟨u, r, hu, rfl⟩ := exec_cgGen_next h
    exact congrArg (State.present · _) (cgGen_frame hu)
  | encRun => cases h; exact congrArg (State.present · _) (encRun_frame Config.depths s)
  | decRun => cases h; exact congrArg (State.present · _) (decRun_frame Config.depths s)

/-! ### The frame, field by field -/

section Fields

variable {i : Instr} {s t : State} (h : exec i s = .next t)

include h

theorem exec_tree :
    (t.node = s.node ∧ t.root = s.root ∧ t.treeValid = s.treeValid) ∨ i = .cmdBuild ∨ i = .tbBuild := by
  rw [exec_frame h]; cases i <;> simp [withWrites]

theorem exec_ct : t.ct = s.ct ∨ i = .cmdBuild ∨ i = .cgGen := by
  rw [exec_frame h]; cases i <;> simp [withWrites]

theorem exec_ft : t.ft = s.ft ∨ i = .cmdCount ∨ i = .faClear ∨ ∃ x, i = .faAdd x := by
  rw [exec_frame h]; cases i <;> simp [withWrites]

theorem exec_sb : t.sb = s.sb ∧ t.sbLen = s.sbLen := by
  rw [exec_frame h]; cases i <;> simp [withWrites]

theorem exec_bb : (t.bb = s.bb ∧ t.bbLen = s.bbLen) ∨ i = .cmdEncode ∨ i = .encRun := by
  rw [exec_frame h]; cases i <;> simp [withWrites]

theorem exec_db : (t.db = s.db ∧ t.dbLen = s.dbLen) ∨ i = .cmdDecode ∨ i = .decRun := by
  rw [exec_frame h]; cases i <;> simp [withWrites]

theorem exec_tree_ct :
    (t.node = s.node ∧ t.root = s.root ∧ t.treeValid = s.treeValid ∧ t.ct = s.ct) ∨
      i = .cmdBuild ∨ i = .tbBuild ∨ i = .cgGen := by
  rw [exec_frame h]; cases i <;> simp [withWrites]

theorem exec_queue : (t.heap = s.heap ∧ t.seq = s.seq) ∨ i = .cmdBuild ∨ i = .tbBuild ∨ i = .pqClear ∨
    (∃ item weight, i = .pqPush item weight) ∨ i = .pqPop := by
  rw [exec_frame h]; cases i <;> simp [withWrites]

/-- ERR and BUSY are the completion's to write, and only commands complete (R34, R35). -/
theorem exec_err_busy : (t.err = s.err ∧ t.busy = s.busy) ∨
    ((i = .cmdCount ∨ i = .cmdBuild ∨ i = .cmdEncode ∨ i = .cmdDecode) ∧ t.busy = false) := by
  rw [exec_frame h]; cases i <;> simp [withWrites]

theorem exec_pending : t.pending = s.pending := by
  rw [exec_frame h]; cases i <;> simp [withWrites]

theorem exec_keeps_idle (hidle : s.busy = false) : t.busy = false := by
  obtain ⟨-, hb⟩ | ⟨-, hb⟩ := exec_err_busy h
  · rw [hb, hidle]
  · exact hb

end Fields

/-- TB_BUILD leaves the state alone or ends with a new tree and an empty queue (R171, R179). -/
theorem tbBuild_cases {s t : State} {r : Result} (h : tbBuild s = .ok (t, r)) :
    t = s ∨ (t.treeValid = true ∧ (∃ n, TreeWf t n) ∧ t.heap = []) := by
  obtain ⟨-, hb⟩ | ⟨-, u, hb, hv, hwf, -, hheap, -⟩ := tbBuild_spec s
  · rw [hb] at h; cases h; exact .inl rfl
  · rw [hb] at h; cases h; exact .inr ⟨hv, ⟨_, hwf⟩, hheap⟩

/-- BUILD's micro-operations leave the state alone or end with a new tree, its table and an empty queue (R252). -/
theorem runBuild_cases {s t : State} {r : Result} (h : runBuild s = .ok (t, r)) :
    t = s ∨ (t.treeValid = true ∧ (∃ n, TreeWf t n) ∧ t.heap = [] ∧ CodesPadded t ∧
      ∃ T, t.tree = some T ∧ t.ct = assignAll T.codes [] ∧ ∀ x, t.codewordOf x = T.codes.lookup x) := by
  obtain ⟨-, hb⟩ | ⟨-, u, T, hb, hv, hwf, -, hT, -, hcodes, hpad, hct, -, -, -, hheap, -⟩ := runBuild_spec s
  · rw [hb] at h; cases h; exact .inl rfl
  · rw [hb] at h; cases h; exact .inr ⟨hv, ⟨_, hwf⟩, hheap, hpad, T, hT, hct, hcodes⟩

/-- CG_GEN leaves the state alone or writes the table of the tree that is there (R191). -/
theorem cgGen_cases {s t : State} {r : Result} (hs : TreeOk s) (h : cgGen s = .ok (t, r)) :
    t = s ∨ (t.treeValid = true ∧ t.treeValid = s.treeValid ∧ t.node = s.node ∧ t.root = s.root ∧ CodesPadded t ∧
      ∃ T, s.tree = some T ∧ t.ct = assignAll T.codes [] ∧ ∀ x, t.codewordOf x = T.codes.lookup x) := by
  cases hv : s.treeValid with
  | false =>
    rw [cgGen, if_pos hv] at h
    cases h
    exact .inl rfl
  | true =>
    obtain ⟨n, hw⟩ := hs hv
    obtain ⟨u, T, hu, hT, hct, hcodes, hpad, -, hf⟩ := cgGen_spec hv hw
    rw [hu] at h
    cases h
    obtain ⟨hvt, hn, hr⟩ : t.treeValid = s.treeValid ∧ t.node = s.node ∧ t.root = s.root := by
      rw [hf]; exact ⟨rfl, rfl, rfl⟩
    exact .inr ⟨hvt.trans hv, hvt.trans hv, hn, hr, hpad, T, hT, hct, hcodes⟩

/-- No instruction leaves the core without a tree where it had one: a build that discards the tree ends with a new one
(R27, R171). -/
theorem exec_keeps_treeValid {i : Instr} {s t : State} (h : exec i s = .next t) (hv : s.treeValid = true) :
    t.treeValid = true := by
  obtain ⟨-, -, he⟩ | rfl | rfl := exec_tree h
  · rw [he, hv]
  · obtain ⟨u, r, hu, rfl⟩ := exec_cmdBuild_next h
    obtain rfl | ⟨ht, -⟩ := runBuild_cases hu
    · exact hv
    · exact ht
  · obtain ⟨u, r, hu, rfl⟩ := exec_tbBuild_next h
    obtain rfl | ⟨ht, -⟩ := tbBuild_cases hu
    · exact hv
    · exact ht

/-- Where a host write of a location stores (R64, R65). -/
theorem writeLoc_frame (r : Region) (i : Nat) (v : HostWord) (s : State) :
    writeLoc r i v s = { s with sbLen := (writeLoc r i v s).sbLen, bbLen := (writeLoc r i v s).bbLen,
                                ft := (writeLoc r i v s).ft, sb := (writeLoc r i v s).sb, bb := (writeLoc r i v s).bb } := by
  cases r <;> rfl

/-- A region's storage changes by a write of that region only. -/
theorem writeLoc_region (r : Region) (i : Nat) (v : HostWord) (s : State) :
    ((writeLoc r i v s).sbLen = s.sbLen ∨ r = .sbLen) ∧ ((writeLoc r i v s).bbLen = s.bbLen ∨ r = .bbLen) ∧
    ((writeLoc r i v s).ft = s.ft ∨ r = .ft) ∧ ((writeLoc r i v s).sb = s.sb ∨ r = .sb) ∧
    ((writeLoc r i v s).bb = s.bb ∨ r = .bb) := by
  cases r <;> simp [writeLoc]

/-! ### What the whole machine keeps -/

/-- Settles O50: of all that a step can do only the reset discards the tree. -/
theorem treeValidClearedOnlyByReset : Obligations.TreeValidClearedOnlyByReset := by
  intro s t hs hv hn
  cases hp : s.pending with
  | nil =>
    rw [step_of_no_input hp] at hs
    cases hs
    rw [hv] at hn; cases hn
  | cons x rest =>
    have keeps : t.treeValid = s.treeValid → ∃ rest', x :: rest = .reset :: rest' := fun e => by
      rw [e, hv] at hn; cases hn
    cases took_of_step hp hs with
    | reset => exact ⟨rest, rfl⟩
    | read | unmapped | illegal | reserved => exact keeps rfl
    | write v hidle hr hi => exact keeps (by rw [writeLoc_frame])
    | run hidle hx he => exact keeps (by rw [exec_keeps_treeValid he hv, hv])

/-- Settles O51: by the frames, only an instruction whose word is listed writes the tree or the table. -/
theorem treeAndTableChangeOnlyByBuild : Obligations.TreeAndTableChangeOnlyByBuild := by
  intro s t x rest hp hs
  cases took_of_step hp hs with
  | reset => exact ⟨fun _ => .inl rfl, fun _ => .inl rfl⟩
  | read | unmapped | illegal | reserved => exact ⟨fun h => by simp at h, fun h => by simp at h⟩
  | write v hidle hr hi => rw [writeLoc_frame]; exact ⟨fun h => by simp at h, fun h => by simp at h⟩
  | run hidle hx he =>
    refine ⟨fun h => .inr ?_, fun h => .inr ?_⟩
    · obtain ⟨hn, hr, hv⟩ | rfl | rfl := exec_tree he
      · simp [hn, hr, hv] at h
      · exact .inl hx.carries
      · exact .inr hx.carries
    · obtain hc | rfl | rfl := exec_ct he
      · exact absurd hc h
      · exact .inl hx.carries
      · exact .inr hx.carries

/-- Settles O53: BUSY stays 0, and only a command, which the host writes to CMD, completes with an outcome in ERR. -/
theorem errWrittenByCommandsOnly : Obligations.ErrWrittenByCommandsOnly := by
  intro s t x rest hp hs hidle
  cases took_of_step hp hs with
  | reset => exact ⟨rfl, fun _ => .inl rfl⟩
  | read | unmapped | reserved => exact ⟨hidle, fun h => absurd rfl h⟩
  | illegal v => exact ⟨rfl, fun _ => .inr ⟨v, rfl⟩⟩
  | write v hidle hr hi => rw [writeLoc_frame]; exact ⟨hidle, fun h => absurd rfl h⟩
  | run hidle hx he =>
    refine ⟨exec_keeps_idle he hidle, fun h => .inr ?_⟩
    obtain ⟨hk, -⟩ | ⟨hi, -⟩ := exec_err_busy he
    · exact absurd hk h
    · obtain rfl | rfl | rfl | rfl := hi
      all_goals
        obtain ⟨v, -, hv⟩ := hx.carries
        exact ⟨v, hv⟩

/-- Settles O52: a host write stores in its own region, and the frames say which instructions write which buffer. -/
theorem buffersWrittenByTheirOwnersOnly : Obligations.BuffersWrittenByTheirOwnersOnly := by
  intro s t x rest hp hs hx
  cases took_of_step hp hs with
  | reset => exact absurd rfl hx
  | read | unmapped | illegal | reserved =>
    exact ⟨fun h => absurd rfl h, fun h => absurd rfl h, fun h => absurd rfl h, fun h => absurd rfl h,
      fun h => absurd rfl h, fun h => by simp at h⟩
  | @write r i v hidle hr hi =>
    obtain ⟨hsbLen, hbbLen, hft, hsb, hbb⟩ := writeLoc_region r i v { s with pending := rest }
    refine ⟨fun h => ?_, fun h => ?_, fun h => .inl ?_, fun h => .inl ?_, fun h => .inl ?_, fun h => ?_⟩
    · obtain rfl := hsb.resolve_left h
      exact ⟨i, v, hi, rfl⟩
    · obtain rfl := hsbLen.resolve_left h
      obtain rfl : i = 0 := Nat.lt_one_iff.mp hi
      exact ⟨v, rfl⟩
    · obtain rfl := hft.resolve_left h
      exact ⟨i, v, hi, rfl⟩
    · obtain rfl := hbb.resolve_left h
      exact ⟨i, v, hi, rfl⟩
    · obtain rfl := hbbLen.resolve_left h
      obtain rfl : i = 0 := Nat.lt_one_iff.mp hi
      exact ⟨v, rfl⟩
    · rw [writeLoc_frame] at h
      simp at h
  | run hidle hrun he =>
    obtain ⟨hsb, hsbLen⟩ := exec_sb he
    refine ⟨fun h => absurd hsb h, fun h => absurd hsbLen h, fun h => .inr ?_, fun h => .inr ?_, fun h => .inr ?_,
      fun h => ?_⟩
    · obtain hk | rfl | rfl | ⟨y, rfl⟩ := exec_ft he
      · exact absurd hk h
      · exact .inl hrun.carries
      · obtain ⟨p, hxp⟩ := hrun.carries
        exact .inr ⟨_, p, by decide, hxp⟩
      · obtain ⟨p, hxp⟩ := hrun.carries
        exact .inr ⟨_, p, by decide, hxp⟩
    · obtain ⟨hk, -⟩ | rfl | rfl := exec_bb he
      · exact absurd hk h
      · exact .inl hrun.carries
      · exact .inr hrun.carries
    · obtain ⟨-, hk⟩ | rfl | rfl := exec_bb he
      · exact absurd hk h
      · exact .inl hrun.carries
      · exact .inr hrun.carries
    · obtain ⟨hk, hkLen⟩ | rfl | rfl := exec_db he
      · exact absurd h (by simp [hk, hkLen])
      · exact .inl hrun.carries
      · exact .inr hrun.carries

/-! ### What the host can read -/

/-- An address reads alike in two states where the location it names does (R61, R65). -/
theorem memRead_congr {s t : State} {a : Addr}
    (h : ∀ r j, j < Region.size r → regionAddress r j = a → readLoc r j t = readLoc r j s) :
    memRead a t = memRead a s := by
  cases hm : mapRow a with
  | none => simp only [memRead, hm]
  | some m =>
    obtain ⟨-, hj, ha⟩ := mapRow_some hm
    rw [← ha, memRead_regionAddress hj, memRead_regionAddress hj]
    exact h _ _ hj ha

/-- Settles O54: region by region, the fields it is read from are in the frame of every instruction that does not list
it. -/
theorem hostSeesOnlyDeclaredWrites : Obligations.HostSeesOnlyDeclaredWrites := by
  intro i s t a hidle he hno
  refine memRead_congr fun r j hj ha => ?_
  replace hno := hno r j hj ha
  cases r with
  | cmd => rfl
  | status =>
    obtain ⟨herr, -⟩ | ⟨hi, -⟩ := exec_err_busy he
    · obtain ⟨-, -, hv⟩ | rfl | rfl := exec_tree he
      · simp only [readLoc, status_of_idle hidle, status_of_idle (exec_keeps_idle he hidle), herr, hv]
      · simp at hno
      · simp at hno
    · obtain rfl | rfl | rfl | rfl := hi <;> simp at hno
  | sbLen => simp only [readLoc, exec_sb he]
  | sb => simp only [readLoc, State.sbAt, exec_sb he]
  | ft =>
    obtain hk | rfl | rfl | ⟨x, rfl⟩ := exec_ft he
    · simp only [readLoc, State.count, hk]
    all_goals simp at hno
  | ctLen | ctBit =>
    obtain hk | rfl | rfl := exec_ct he
    · simp only [readLoc, State.code, hk]
    all_goals simp at hno
  | bbLen | bb =>
    obtain ⟨hk, hkLen⟩ | rfl | rfl := exec_bb he
    · simp only [readLoc, State.bbAt, hk, hkLen]
    all_goals simp at hno
  | dbLen | db =>
    obtain ⟨hk, hkLen⟩ | rfl | rfl := exec_db he
    · simp only [readLoc, State.dbAt, hk, hkLen]
    all_goals simp at hno

end Sys2Proof.Machine
end

section
/-! PROOFS. TB_BUILD and BUILD on a mapping that is not empty (R40, R171 to R179, R252). -/

namespace Sys2Proof.Machine

open Sys2Proof

/-- The abstract tree below a node carries that node's weight at its root. -/
theorem Sub.weight_eq {s : State} {k : Idx} {t : Tree} {m : List Nat} (h : Sub s k.toNat t m) :
    t.weight = (s.nodeAt k).weight := by
  rw [nodeAt_eq h.lt]
  cases h <;> rfl

/-- R40 (f), read off the abstract tree. -/
theorem Sub.weighted {s : State} {n : Nat} (hw : TreeWf s n) {k : Nat} {t : Tree} {m : List Nat}
    (h : Sub s k t m) : t.weighted := by
  induction h with
  | leaf k hk hl => exact hw.positive k hk hl
  | node k hk hl tl tr ml mr hsl hsr ihl ihr =>
    refine ⟨?_, ihl, ihr⟩
    rw [hsl.weight_eq, hsr.weight_eq]
    exact hw.sums k hk hl

/-- A symbol that is not recorded adds nothing to the sum of all counts. -/
theorem countSum_recorded (s : State) :
    countSum s s.recorded = (allSymbols.map (fun x => (s.count x).toNat)).sum :=
  countSum_recordedIn s allSymbols

/-- Settles O27: `tbBuild_spec`, with the sum of the recorded counts read as the sum of all counts. -/
theorem tbBuildMakesWellFormedTree : Obligations.TbBuildMakesWellFormedTree := by
  intro s hne
  obtain ⟨he, -⟩ | ⟨-, t, ht, hv, hwf, hleaves, hheap, hseq, hk, hw, hframe⟩ := tbBuild_spec s
  · exact absurd he hne
  · refine ⟨t.present (replyOf .ok), by simp only [exec, execTbBuild, ht], hv, hwf.congr (s := t) rfl rfl, hleaves, ?_,
      by simp [State.heapN, hheap], hseq, hk, rfl, ?_⟩
    · rw [← countSum_recorded]; exact hw
    · rw [hframe]; rfl

/-- Settles O36: BUILD's two micro-operations by `runBuild_spec`, from the state that has accepted the command. -/
theorem buildReplacesTreeAndTable : Obligations.BuildReplacesTreeAndTable := by
  intro s hne
  obtain ⟨he, -⟩ | ⟨-, t, T, ht, hv, hwf, -, hT, -, hcodes, hpad, -, -, hsyms, -, -, -, -, -, -, hframe⟩ :=
    runBuild_spec s.accept
  · exact absurd he hne
  · obtain ⟨T', m, hT', hsub, -⟩ := hwf.tree
    obtain rfl : T' = T := Option.some.inj (hT'.symm.trans hT)
    have hwf' : TreeWf (t.complete .ok) s.recorded.length := hwf.congr (s := t) rfl rfl
    refine ⟨t.complete .ok, T', by simp only [exec, execCmdBuild, ht], hv, hwf', ?_, hsyms, hsub.weighted hwf, hcodes,
      hpad, rfl, rfl, ?_⟩
    · rw [← hT]; exact hwf.tree_congr (s := t) rfl rfl
    · rw [hframe]; rfl

end Sys2Proof.Machine
end

section
/-! PROOFS. The invariant of every state a run reaches (R28, R40, R142), and R41's agreement of table and tree. -/

namespace Sys2Proof.Machine

open Sys2Proof

/-! ### The invariant's parts, seen through the fields they speak of -/

theorem TreeOk.congr {s t : State} (h : TreeOk s) (hn : t.node = s.node) (hr : t.root = s.root)
    (hv : t.treeValid = s.treeValid) : TreeOk t := fun hvt =>
  let ⟨n, hw⟩ := h (hv ▸ hvt)
  ⟨n, hw.congr hn hr⟩

/-- A table entry is read from CT. -/
theorem code_congr {s t : State} (hc : t.ct = s.ct) (x : Sym) : t.code x = s.code x := by
  simp only [State.code, hc]

theorem CodesPadded.congr {s t : State} (h : CodesPadded s) (hc : t.ct = s.ct) : CodesPadded t := by
  intro x j
  rw [code_congr hc]
  exact h x j

/-- R41 is about the tree and the table alone. -/
theorem TableOk.congr {s t : State} (h : TableOk s) (hw : TreeOk s) (hn : t.node = s.node) (hr : t.root = s.root)
    (hv : t.treeValid = s.treeValid) (hc : t.ct = s.ct) : TableOk t := by
  obtain ⟨htree, hnone⟩ := h
  refine ⟨fun hvt => ?_, fun hvt x => ?_⟩
  · rw [hv] at hvt
    obtain ⟨T, hT, hcodes⟩ := htree hvt
    obtain ⟨n, hwf⟩ := hw hvt
    exact ⟨T, by rw [hwf.tree_congr hn hr, hT], fun x => by rw [codewordOf_congr hc, hcodes]⟩
  · rw [code_congr hc]
    exact hnone (hv ▸ hvt) x

theorem TableOk.of_tree {s : State} {T : Tree} (hv : s.treeValid = true) (hT : s.tree = some T)
    (hcodes : ∀ x, s.codewordOf x = T.codes.lookup x) : TableOk s :=
  ⟨fun _ => ⟨T, hT, hcodes⟩, fun hn => by rw [hv] at hn; cases hn⟩

theorem queueOk_of_empty {s : State} (h : s.heap = []) : QueueOk s :=
  ⟨by simp [h], by simp [h], by simp [h], by simp [h]⟩

/-- The invariant where tree and table stay as they are. -/
theorem Inv.keep {s t : State} (h : Inv s) (hidle : t.busy = false) (hm : Memory.wf t) (hq : QueueOk t)
    (hn : t.node = s.node) (hr : t.root = s.root) (hv : t.treeValid = s.treeValid) (hc : t.ct = s.ct) : Inv t where
  idle := hidle
  memory := hm
  tree := h.tree.congr hn hr hv
  queue := hq
  padded := h.padded.congr hc
  noTree := fun hvt x => by rw [code_congr hc]; exact h.noTree (hv ▸ hvt) x

/-- The invariant where tree, table and queue stay as they are. -/
theorem Inv.keepAll {s t : State} (h : Inv s) (hidle : t.busy = false) (hm : Memory.wf t) (hh : t.heap = s.heap)
    (hs : t.seq = s.seq) (hn : t.node = s.node) (hr : t.root = s.root) (hv : t.treeValid = s.treeValid)
    (hc : t.ct = s.ct) : Inv t :=
  h.keep hidle hm (h.queue.congr hh hs) hn hr hv hc

/-- The invariant where there is a tree. -/
theorem Inv.of_tree {t : State} {n : Nat} (hidle : t.busy = false) (hm : Memory.wf t) (hq : QueueOk t)
    (hv : t.treeValid = true) (hw : TreeWf t n) (hpad : CodesPadded t) : Inv t where
  idle := hidle
  memory := hm
  tree := fun _ => ⟨n, hw⟩
  queue := hq
  padded := hpad
  noTree := fun hn => by rw [hv] at hn; cases hn

/-! ### Reset -/

theorem Cleared.inv {s : State} (h : Cleared s) : Inv s := by
  cases h
  exact {
    idle := rfl
    memory := Memory.wf_congr (s := State.reset) rfl rfl rfl rfl rfl State.reset_wf
    tree := nofun
    queue := queueOk_of_empty rfl
    padded := fun _ _ _ => BitVec.getLsbD_zero
    noTree := fun _ _ => rfl }

theorem Cleared.tableOk {s : State} (h : Cleared s) : TableOk s := by
  cases h
  exact ⟨nofun, fun _ _ => rfl⟩

/-- Settles O58: the state after reset is `Cleared`, and no input waits. -/
theorem invariantsAtReset : Obligations.InvariantsAtReset :=
  ⟨reset_cleared.inv, reset_cleared.tableOk, nofun⟩

/-! ### What an instruction does to the storage, the queue, the tree and the table -/

theorem Memory.wf_runCount {s : State} (cap : Config.Capacities) (h : Memory.wf s) :
    Memory.wf (runCount cap s).1 := by
  unfold runCount
  split
  · exact h
  · exact Memory.wf_addAll _ (Memory.wf_faClear h)

/-- The storage keeps its canonical form where the table has it. -/
theorem exec_keeps_wf {i : Instr} {s t : State} (h : exec i s = .next t) (hm : Memory.wf s)
    (hc : Store.tableWf absentCode Config.alphabet t.ct) : Memory.wf t := by
  cases i with
  | cmdCount => cases h; exact Memory.wf_runCount (s := s.accept) _ hm
  | cmdEncode => cases h; exact Memory.wf_encRun (s := s.accept) hm
  | cmdDecode => cases h; exact Memory.wf_decRun (s := s.accept) hm
  | encRun => cases h; exact Memory.wf_encRun hm
  | decRun => cases h; exact Memory.wf_decRun hm
  | faClear => cases h; exact Memory.wf_faClear (s := s) hm
  | faAdd x => cases h; exact Memory.wf_faAdd x hm
  | cmdBuild | tbBuild | cgGen | pqClear | pqPush | pqPop | pqIsEmpty =>
    obtain ⟨hft, -, hbufs⟩ := hm
    rw [exec_frame h] at hc ⊢
    exact ⟨hft, hc, hbufs⟩

/-- The queue's invariant (R142): a push and a pop keep it, and its other writers leave the queue empty. -/
theorem exec_keeps_queueOk {i : Instr} {s t : State} (h : exec i s = .next t) (hq : QueueOk s) : QueueOk t := by
  obtain ⟨hh, hs⟩ | rfl | rfl | rfl | ⟨item, weight, rfl⟩ | rfl := exec_queue h
  · exact hq.congr hh hs
  · obtain ⟨u, r, hu, rfl⟩ := exec_cmdBuild_next h
    obtain rfl | ⟨-, -, hheap, -⟩ := runBuild_cases hu
    · exact hq.congr (s := s) rfl rfl
    · exact queueOk_of_empty hheap
  · obtain ⟨u, r, hu, rfl⟩ := exec_tbBuild_next h
    obtain rfl | ⟨-, -, hheap⟩ := tbBuild_cases hu
    · exact hq.congr (s := u) rfl rfl
    · exact queueOk_of_empty hheap
  · cases h
    exact queueOk_of_empty rfl
  · cases h
    exact (pqPush_queueOk item weight hq).congr (s := (pqPush item weight s).1) rfl rfl
  · obtain ⟨r, rfl⟩ := exec_pqPop_next h
    by_cases hne : s.heap = []
    · exact queueOk_of_empty (by simp [pqPop, hne])
    · obtain ⟨e, tl, -, hpop, -, -, hq'⟩ := pqPop_spec hq hne
      rw [hpop]
      exact hq'.congr (s := { s with heap := heapAfterPop s.heap }) rfl rfl

/-- Every instruction keeps the invariant: what does not write tree or table leaves their parts alone, and a build or a
traversal leaves a well-formed tree with padded codes. -/
theorem exec_keeps_inv {i : Instr} {s t : State} (h : exec i s = .next t) (hs : Inv s) : Inv t := by
  have hidle := exec_keeps_idle h hs.idle
  have hq := exec_keeps_queueOk h hs.queue
  have hctOld (e : t.ct = s.ct) : Store.tableWf absentCode Config.alphabet t.ct := by
    obtain ⟨-, hct, -⟩ := hs.memory
    rwa [e]
  have hctNew (T : Tree) (e : t.ct = assignAll T.codes []) : Store.tableWf absentCode Config.alphabet t.ct := by
    obtain ⟨-, hct, -⟩ := Memory.wf_assignAll (ps := T.codes) hs.memory
    rwa [e]
  obtain ⟨hn, hr, hv, hc⟩ | rfl | rfl | rfl := exec_tree_ct h
  · exact hs.keep hidle (exec_keeps_wf h hs.memory (hctOld hc)) hq hn hr hv hc
  · obtain ⟨u, r, hu, rfl⟩ := exec_cmdBuild_next h
    obtain rfl | ⟨hv, ⟨n, hw⟩, -, hpad, T, -, hct, -⟩ := runBuild_cases hu
    · exact hs.keep hidle hs.memory hq rfl rfl rfl rfl
    · exact .of_tree hidle (exec_keeps_wf h hs.memory (hctNew T hct)) hq hv (hw.congr (s := u) rfl rfl) hpad
  · obtain ⟨u, r, hu, rfl⟩ := exec_tbBuild_next h
    obtain rfl | ⟨hv, ⟨n, hw⟩, -⟩ := tbBuild_cases hu
    · exact hs.keep hidle hs.memory hq rfl rfl rfl rfl
    · have hc : (u.present (replyOf r)).ct = s.ct := by rw [exec_frame h]; rfl
      exact .of_tree hidle (exec_keeps_wf h hs.memory (hctOld hc)) hq hv (hw.congr (s := u) rfl rfl)
        (hs.padded.congr hc)
  · obtain ⟨u, r, hu, rfl⟩ := exec_cgGen_next h
    obtain rfl | ⟨hv, he, hn, hr, hpad, T, -, hct, -⟩ := cgGen_cases hs.tree hu
    · exact hs.keep hidle hs.memory hq rfl rfl rfl rfl
    · obtain ⟨n, hw⟩ := hs.tree (he ▸ hv)
      exact .of_tree hidle (exec_keeps_wf h hs.memory (hctNew T hct)) hq hv (hw.congr hn hr) hpad

/-- Every instruction but TB_BUILD, which makes a tree whose table is not yet written, keeps R41. -/
theorem exec_keeps_tableOk {i : Instr} {s t : State} (h : exec i s = .next t) (hi : i ≠ .tbBuild) (hs : TreeOk s)
    (htab : TableOk s) : TableOk t := by
  obtain ⟨hn, hr, hv, hc⟩ | rfl | rfl | rfl := exec_tree_ct h
  · exact htab.congr hs hn hr hv hc
  · obtain ⟨u, r, hu, rfl⟩ := exec_cmdBuild_next h
    obtain rfl | ⟨hv, ⟨n, hw⟩, -, -, T, hT, -, hcodes⟩ := runBuild_cases hu
    · exact htab.congr hs rfl rfl rfl rfl
    · have hu' : TableOk u := .of_tree hv hT hcodes
      have htree : TreeOk u := fun _ => ⟨n, hw⟩
      exact hu'.congr htree rfl rfl rfl rfl
  · exact absurd rfl hi
  · obtain ⟨u, r, hu, rfl⟩ := exec_cgGen_next h
    obtain rfl | ⟨hv, he, hn, hr, -, T, hT, -, hcodes⟩ := cgGen_cases hs hu
    · exact htab.congr hs rfl rfl rfl rfl
    · obtain ⟨n, hw⟩ := hs (he ▸ hv)
      have hu' : TableOk u := .of_tree hv ((hw.tree_congr hn hr).trans hT) hcodes
      have htree : TreeOk u := fun _ => ⟨n, hw.congr hn hr⟩
      exact hu'.congr htree rfl rfl rfl rfl

/-! ### What a step does to them -/

/-- Settles O57: the invariant through each thing that a step can do. -/
theorem stepKeepsInvariant : Obligations.StepKeepsInvariant := by
  intro s t hs hstep
  cases hp : s.pending with
  | nil =>
    rw [step_of_no_input hp] at hstep
    cases hstep
    exact hs
  | cons x rest =>
    have hu : Inv { s with pending := rest } := hs.keepAll hs.idle hs.memory rfl rfl rfl rfl rfl rfl
    cases took_of_step hp hstep with
    | reset => exact (resetEvent_cleared _).inv
    | read a => exact hu.keepAll hu.idle hu.memory rfl rfl rfl rfl rfl rfl
    | unmapped | reserved => exact hu
    | illegal => exact hu.keepAll rfl hu.memory rfl rfl rfl rfl rfl rfl
    | write v hidle hr hi =>
      have hm := Memory.wf_writeLoc v hu.memory hi
      rw [writeLoc_frame] at hm ⊢
      exact hu.keepAll hidle hm rfl rfl rfl rfl rfl rfl
    | run hidle hx he => exact exec_keeps_inv he hu

theorem Took.pending {u t : State} {x : Input} (h : Took u x t) : t.pending = u.pending := by
  cases h with
  | reset | read | unmapped | illegal | reserved => rfl
  | write v hidle hr hi => rw [writeLoc_frame]
  | run hidle hx he => exact exec_pending he

/-- Settles O59: the inputs of the host never run TB_BUILD alone. -/
theorem stepKeepsTableConsistent : Obligations.StepKeepsTableConsistent := by
  intro s t hs htab hhost hstep
  cases hp : s.pending with
  | nil =>
    rw [step_of_no_input hp] at hstep
    cases hstep
    exact ⟨htab, hhost⟩
  | cons x rest =>
    have htook := took_of_step hp hstep
    have hx : inputOfHost x = true := hhost x (by simp [hp])
    refine ⟨?_, fun y hy => hhost y ?_⟩
    · have htree : TreeOk { s with pending := rest } := hs.tree.congr rfl rfl rfl
      have hu : TableOk { s with pending := rest } := htab.congr hs.tree rfl rfl rfl rfl
      cases htook with
      | reset => exact (resetEvent_cleared _).tableOk
      | read | unmapped | illegal | reserved => exact htab.congr hs.tree rfl rfl rfl rfl
      | write v hidle hr hi =>
        rw [writeLoc_frame]
        exact htab.congr hs.tree rfl rfl rfl rfl
      | @run _ i _ hidle hrun he =>
        refine exec_keeps_tableOk he ?_ htree hu
        rintro rfl
        obtain ⟨p, rfl⟩ := hrun.carries
        cases hx
    · rw [htook.pending] at hy
      rw [hp]
      exact List.mem_cons_of_mem x hy

end Sys2Proof.Machine
end

section
/-! PROOFS. The host address space (R61 to R67): its map, writes, unmapped addresses, and accesses while BUSY = 1 (R66,
R330). -/

namespace Sys2Proof.Machine

open Sys2Proof

/-! ### Accesses while BUSY = 1 -/

section Busy

variable {s : State} {rest : List Input}

theorem step_refused_of_busy {x : Input} (h : s.pending = x :: rest) (hb : s.busy = true) (hreset : x ≠ .reset)
    (hstatus : x ≠ .hostRead statusAddr) : step s = .refused .accessWhileBusy := by
  cases x with
  | reset => exact absurd rfl hreset
  | hostRead a =>
    have ha : a ≠ statusAddr := fun e => hstatus (by rw [e])
    simp [step, fetch, h, fetchInput, hb, ha]
  | hostWrite a v | micro u p => simp [step, fetch, h, fetchInput, hb]

/-- A STATUS read has a meaning whether the core is busy or not (R66). -/
theorem step_statusRead (h : s.pending = .hostRead statusAddr :: rest) :
    step s = .next (hostRead statusAddr { s with pending := rest }) := by
  simp [step, fetch, h, fetchInput]

end Busy

theorem hostRead_statusAddr_hostData (s : State) : (hostRead statusAddr s).hostData = s.status.setWidth 32 :=
  memRead_regionAddress (r := .status) (i := 0) (by decide) s

/-- BUSY is bit 0 of STATUS, also while the fields beside it are free (R32, R330). -/
theorem status_busyBit (s : State) : s.status.getLsbD 0 = s.busy :=
  (statusLayout.1 s).1

/-- Settles O7: everything but the reset and a STATUS read is refused, and the read's word is STATUS. -/
theorem busyAccessRefused : Obligations.BusyAccessRefused := by
  refine ⟨fun s x rest hb h hreset hstatus => step_refused_of_busy h hb hreset hstatus, fun s rest hb h => ?_⟩
  refine ⟨_, step_statusRead h, ?_, rfl⟩
  rw [hostRead_statusAddr_hostData, BitVec.getLsbD_setWidth, status_busyBit]
  simpa using hb

/-! ### The address map (R61) -/

/-- Settles O10: the map is `rowOf`'s bases and `Region.size_eq`'s sizes, and its ranges do not meet. -/
theorem addressMap : Obligations.AddressMap := by
  have hft (i) (hi : i < 256) := regionAddress_toNat (r := .ft) hi
  have hctLen (i) (hi : i < 256) := regionAddress_toNat (r := .ctLen) hi
  have hctBit (x j) (hx : x < 256) (hj : j < 256) :
      (regionAddress .ctBit (x * 256 + j)).toNat = 0x010000 + x * 256 + j := by
    rw [regionAddress_toNat (by rw [Region.size_eq]; dsimp only; omega), Nat.add_assoc]
    rfl
  have hsb (i) (hi : i < 4096) := regionAddress_toNat (r := .sb) hi
  have hbb (i) (hi : i < 32768) := regionAddress_toNat (r := .bb) hi
  have hdb (i) (hi : i < 4096) := regionAddress_toNat (r := .db) hi
  exact ⟨by decide, rfl, rfl, rfl, rfl, rfl, hft, hctLen, hctBit, hsb, hbb, hdb, fun _ _ _ _ => regionAddress_inj⟩

/-! ### Unmapped addresses (R65) -/

/-- Settles O13: the map has no row for such an address, and CMD's address has one. -/
theorem unmappedAddress : Obligations.UnmappedAddress := by
  intro s a rest hidle ha
  refine ⟨fun h => ?_, fun v h => ?_⟩
  · rw [step_hostRead h hidle, hostRead, memRead_unmapped ha]
  · have hcmd : a ≠ cmdAddr := fun e => ha .cmd 0 (by decide) (cmdAddr_eq.trans e.symm)
    rw [step_hostWrite h hidle hcmd, memWrite_unmapped ha]

/-! ### Writes (R64, R65) -/

/-- Settles O12: the step stores at the location that the address names, region by region. -/
theorem hostWriteStoresLocation : Obligations.HostWriteStoresLocation := by
  intro s r i v rest hidle hi hr h
  refine ⟨writeLoc r i v { s with pending := rest }, ?_, ?_⟩
  · rw [step_hostWrite h hidle (regionAddress_ne_cmd hi hr), memWrite_regionAddress hi]
  · cases r with
    | sbLen | bbLen => simp [writeLoc]
    | ft =>
      refine ⟨fun x => ?_, rfl⟩
      have hx : x = BitVec.ofNat 8 i ↔ x.toNat = i := by
        rw [← BitVec.toNat_inj, BitVec.toNat_ofNat, Nat.mod_eq_of_lt (show i < 2 ^ Config.symW from hi)]
      rw [writeLoc, count_setCount, BitVec.setWidth_eq]
      exact if_congr hx rfl rfl
    | sb => exact ⟨fun j => sbAt_setSb _ i j _, rfl⟩
    | bb => exact ⟨fun j => bbAt_setBb _ i j _, rfl⟩
    | cmd | status | dbLen | ctLen | ctBit | db => rfl

/-! ### Writing twice (R67) -/

theorem Store.put_put_same {α : Type} (l : Store α) (k : Nat) (v : α) : (l.put k v).put k v = l.put k v := by
  induction l with
  | nil => simp [Store.put]
  | cons p r ih =>
    obtain ⟨j, w⟩ := p
    by_cases hlt : k < j
    · simp [Store.put, hlt]
    · by_cases heq : k = j
      · simp [Store.put, heq]
      · simp [Store.put, hlt, heq, ih]

theorem Store.clear_clear_same {α : Type} (l : Store α) (k : Nat) : (l.clear k).clear k = l.clear k := by
  simp [Store.clear]

theorem Store.write_write_same {α : Type} [DecidableEq α] (d : α) (l : Store α) (k : Nat) (v : α) :
    Store.write d (Store.write d l k v) k v = Store.write d l k v := by
  by_cases hv : v = d
  · simp only [Store.write, if_pos hv, Store.clear_clear_same]
  · simp only [Store.write, if_neg hv, Store.put_put_same]

theorem writeLoc_writeLoc_same (r : Region) (i : Nat) (v : HostWord) (s : State) :
    writeLoc r i v (writeLoc r i v s) = writeLoc r i v s := by
  cases r with
  | ft => simp only [writeLoc, State.setCount, Store.write_write_same]
  | sb => simp only [writeLoc, State.setSb, Buffer.put, Store.put_put_same]
  | bb => simp only [writeLoc, State.setBb, Buffer.put, Store.put_put_same]
  | cmd | status | sbLen | bbLen | dbLen | ctLen | ctBit | db => rfl

/-- A write does not look at the inputs to come. -/
theorem writeLoc_withPending (r : Region) (i : Nat) (v : HostWord) (s : State) (q : List Input) :
    writeLoc r i v { s with pending := q } = { writeLoc r i v s with pending := q } := by
  cases r <;> rfl

/-- A write of an address stores at a location of the map or is ignored, whatever the state (R65). -/
theorem memWrite_cases (a : Addr) (v : HostWord) :
    (∀ s, memWrite a v s = s) ∨ ∃ r i, ∀ s, memWrite a v s = writeLoc r i v s := by
  cases hm : mapRow a with
  | none => exact .inl fun s => by simp only [memWrite, hm]
  | some m =>
    obtain ⟨-, hi, hma⟩ := mapRow_some hm
    exact .inr ⟨_, _, fun s => by rw [← memWrite_regionAddress hi, hma]⟩

theorem memWrite_memWrite_same (a : Addr) (v : HostWord) (s : State) :
    memWrite a v (memWrite a v s) = memWrite a v s := by
  obtain h | ⟨r, i, h⟩ := memWrite_cases a v
  · simp only [h]
  · simp only [h, writeLoc_writeLoc_same]

theorem memWrite_withPending (a : Addr) (v : HostWord) (s : State) (q : List Input) :
    memWrite a v { s with pending := q } = { memWrite a v s with pending := q } := by
  obtain h | ⟨r, i, h⟩ := memWrite_cases a v
  · simp only [h]
  · simp only [h, writeLoc_withPending]

theorem memWrite_busy_pending (a : Addr) (v : HostWord) (s : State) :
    (memWrite a v s).busy = s.busy ∧ (memWrite a v s).pending = s.pending := by
  obtain h | ⟨r, i, h⟩ := memWrite_cases a v
  · rw [h]; exact ⟨rfl, rfl⟩
  · rw [h, writeLoc_frame]; exact ⟨rfl, rfl⟩

/-- Settles O14: a stored value stored again is the same storage, as a list too, not only as it reads. -/
theorem hostWritesIdempotent : Obligations.HostWritesIdempotent := by
  intro s a v rest hidle ha h
  refine ⟨_, step_hostWrite h hidle ha, ?_⟩
  obtain ⟨hbusy, hpending⟩ := memWrite_busy_pending a v { s with pending := .hostWrite a v :: rest }
  rw [step_hostWrite hpending (hbusy.trans hidle) ha, memWrite_withPending, memWrite_memWrite_same]

end Sys2Proof.Machine
end

section
/-! PROOFS. The words of the two formats (R91 to R96): which of them decode, what becomes of the others, and a word as
the next input of an idle core. -/

namespace Sys2Proof.Machine

open Sys2Proof

/-! ### Command words (R91 to R93) -/

theorem hostWordWf_iff_fields (c : BitVec 8) : hostWordWf c = true ↔
    zeroField c = 0#5 ∧ (opField c = 1#3 ∨ opField c = 2#3 ∨ opField c = 3#3 ∨ opField c = 4#3) := by
  simp only [hostWordWf, zeroField, opField, Bool.and_eq_true, Bool.or_eq_true, beq_iff_eq, or_assoc]

/-- The legal command words are 1 to 4 (R93): below 8 field `zero` is 0 and `op` is the word itself. -/
theorem hostWordWf_iff (c : BitVec 8) : hostWordWf c = true ↔ 1 ≤ c.toNat ∧ c.toNat ≤ 4 := by
  have hc : c.toNat = (zeroField c).toNat * 8 + (opField c).toNat := by
    simp only [zeroField, opField, BitVec.extractLsb'_toNat]
    omega
  simp only [hostWordWf_iff_fields, ← BitVec.toNat_inj, BitVec.toNat_ofNat, Nat.reducePow, Nat.reduceMod]
  omega

/-- Format H decodes the legal words and rejects every other (R92, R93). -/
theorem decodeHost_cases (c : BitVec 8) :
    (hostWordWf c = true ∧ ∃ i, decodeHost c = .instr i) ∨
    (¬ hostWordWf c = true ∧ decodeHost c = .reject (.illegalCommand c)) := by
  rw [hostWordWf_iff_fields]
  unfold decodeHost
  split_ifs with hz h1 h2 h3 h4
  · exact .inl ⟨⟨hz, .inl h1⟩, _, rfl⟩
  · exact .inl ⟨⟨hz, .inr (.inl h2)⟩, _, rfl⟩
  · exact .inl ⟨⟨hz, .inr (.inr (.inl h3))⟩, _, rfl⟩
  · exact .inl ⟨⟨hz, .inr (.inr (.inr h4))⟩, _, rfl⟩
  · exact .inr ⟨by simp [h1, h2, h3, h4], rfl⟩
  · exact .inr ⟨fun h => hz h.1, rfl⟩

theorem decodeHost_reject_iff (c : BitVec 8) :
    decodeHost c = .reject (.illegalCommand c) ↔ ¬ (1 ≤ c.toNat ∧ c.toNat ≤ 4) := by
  rw [← hostWordWf_iff]
  obtain ⟨hw, i, hi⟩ | ⟨hw, hr⟩ := decodeHost_cases c
  · simp [hw, hi]
  · simp [hw, hr]

/-! ### Codes on the operation bus (R94 to R96) -/

/-- Format U decodes the codes up to 9 and rejects every other (R95, R96). -/
theorem decodeMicro_cases (u : BitVec 4) (p : Ports) :
    (u.toNat ≤ 9 ∧ ∃ i, decodeMicro u p = .instr i) ∨
    (10 ≤ u.toNat ∧ decodeMicro u p = .reject (.reservedMicroOp u)) := by
  unfold decodeMicro
  split
  case h_11 =>
    refine .inr ⟨?_, rfl⟩
    simp only [imp_false] at *
    omega
  all_goals exact .inl ⟨by omega, _, rfl⟩

theorem decodeMicro_reject_iff (u : BitVec 4) (p : Ports) :
    decodeMicro u p = .reject (.reservedMicroOp u) ↔ 10 ≤ u.toNat := by
  obtain ⟨hu, i, hi⟩ | ⟨hu, hr⟩ := decodeMicro_cases u p
  · simp only [hi, reduceCtorEq, false_iff]
    omega
  · simp [hu, hr]

/-- The ports that a code uses are in its instruction, and those it does not use are 0 in a well-formed word (R95,
R97 b): so the instruction fixes them all. -/
theorem ports_eq_of_decodeMicro {u : BitVec 4} {p q : Ports} (hp : portsWf u p = true) (hq : portsWf u q = true)
    (h : decodeMicro u p = decodeMicro u q) : p = q := by
  obtain ⟨x, k, w⟩ := p
  obtain ⟨x', k', w'⟩ := q
  simp only [portsWf, Bool.and_eq_true, Bool.or_eq_true, beq_iff_eq] at hp hq
  by_cases h1 : u = 1#4
  · subst h1
    simp_all [decodeMicro]
  · by_cases h3 : u = 3#4
    · subst h3
      simp_all [decodeMicro]
    · simp_all

/-! ### Decoding and encoding (R91 to R96) -/

theorem wordOfInstr (i : Instr) : Laws.WordOfInstr.Statement i := by
  cases i with
  | cmdCount => exact Laws.WordOfInstr.cmdCount
  | cmdBuild => exact Laws.WordOfInstr.cmdBuild
  | cmdEncode => exact Laws.WordOfInstr.cmdEncode
  | cmdDecode => exact Laws.WordOfInstr.cmdDecode
  | faClear => exact Laws.WordOfInstr.faClear
  | faAdd sym => exact Laws.WordOfInstr.faAdd sym
  | pqClear => exact Laws.WordOfInstr.pqClear
  | pqPush item weight => exact Laws.WordOfInstr.pqPush item weight
  | pqPop => exact Laws.WordOfInstr.pqPop
  | pqIsEmpty => exact Laws.WordOfInstr.pqIsEmpty
  | tbBuild => exact Laws.WordOfInstr.tbBuild
  | cgGen => exact Laws.WordOfInstr.cgGen
  | encRun => exact Laws.WordOfInstr.encRun
  | decRun => exact Laws.WordOfInstr.decRun

theorem encode_wf (i : Instr) : (encode i).wf = true := (wordOfInstr i).1

@[simp] theorem decode_encode (i : Instr) : decode (encode i) = .instr i := (wordOfInstr i).2.1

theorem exists_encode_of_wf {w : OpWord} (hw : w.wf = true) : ∃ i, decode w = .instr i ∧ encode i = w := by
  cases w with
  | host c =>
    obtain ⟨-, i, hi⟩ | ⟨hno, -⟩ := decodeHost_cases c
    · exact ⟨i, hi, encode_of_decodeHost hi⟩
    · exact absurd hw hno
  | micro u p =>
    simp only [OpWord.wf, microCodeWf, Bool.and_eq_true, decide_eq_true_eq] at hw
    obtain ⟨hu, hp⟩ := hw
    obtain ⟨-, i, hi⟩ | ⟨hres, -⟩ := decodeMicro_cases u p
    · obtain ⟨q, hq⟩ := encode_of_decodeMicro hi
      have hwf := encode_wf i
      have hdec := decode_encode i
      rw [hq] at hwf hdec
      have hpq : p = q := ports_eq_of_decodeMicro hp (Bool.and_eq_true_iff.mp hwf).2 (hi.trans hdec.symm)
      exact ⟨i, hi, hpq ▸ hq⟩
    · omega

/-- Settles O2: the two formats' decoders by what they accept, and the ports by what the instruction holds. -/
theorem decodeAndEncodeAgree : Obligations.DecodeAndEncodeAgree :=
  ⟨fun i => ⟨encode_wf i, decode_encode i⟩, fun _ => exists_encode_of_wf, decodeHost_reject_iff, decodeMicro_reject_iff⟩

/-- Settles O1: the decoders evaluated at each row of R92 and R95. -/
theorem tableWordsDecode : Obligations.TableWordsDecode :=
  ⟨by decide, by decide, by decide, by decide, fun _ => ⟨rfl, rfl, rfl, rfl, rfl, rfl, rfl, rfl, rfl, rfl⟩⟩

/-! ### A word as the next input (R96, R298) -/

/-- An idle core given the input that carries a word runs what the word decodes to, as if nothing had been put before the
inputs that wait. -/
theorem step_giveNext_inputOf {s : State} {w : OpWord} {i : Instr} (hidle : s.busy = false)
    (hi : decode w = .instr i) : step (s.giveNext (inputOf w)) = exec i s := by
  cases w with
  | host c =>
    refine step_command (s := s.giveNext _) (rest := s.pending) rfl hidle ?_
    rwa [BitVec.setWidth_setWidth_of_le c (by decide), BitVec.setWidth_eq]
  | micro u p => exact step_micro (s := s.giveNext _) (rest := s.pending) rfl hidle hi

theorem decodeTableWord_eq_some {nbits w : Nat} {i : Instr} (h : decodeTableWord nbits w = some i) :
    ∃ ow, tableWord nbits w = some ow ∧ decode ow = .instr i := by
  unfold decodeTableWord at h
  split at h
  · cases h
  · split at h
    · cases h
      exact ⟨_, ‹_›, ‹_›⟩
    · cases h

/-- Settles O4: the placed word is the next input, and the state that it is taken off is the one before. -/
theorem placedTableWordRuns : Obligations.PlacedTableWordRuns := by
  intro s nbits w i hidle h
  obtain ⟨ow, how, hi⟩ := decodeTableWord_eq_some h
  have hplace : s.withFetchWord nbits w = s.giveNext (inputOf ow) := by
    simp only [State.withFetchWord, placeTableWord, how]
  rw [hplace, step_giveNext_inputOf hidle hi]

/-- Settles O6: such a code is rejected, and a rejected code or no input leaves everything alone. -/
theorem ignoredInputs : Obligations.IgnoredInputs :=
  ⟨fun _ u p _ hidle h hu => step_reservedMicro h hidle ((decodeMicro_reject_iff u p).mpr hu),
    fun _ => step_of_no_input⟩

end Sys2Proof.Machine
end

section
/-! PROOFS. The steps of a host script (R100, R101): a write as the next input, and the writes of a `.sb` line. -/

namespace Sys2Proof.Machine

open Sys2Proof

/-! ### One write -/

/-- A step that is no check and goes through is done, and the script goes on from where it ends. -/
theorem runScript_input {i : Input} {s t : State} (h : step (s.giveNext i) = .next t) (rest : List ScriptStep) :
    runScript (.input i :: rest) s = runScript rest t := by
  simp only [runScript, stepInput, h]
  cases runScript rest t <;> simp

/-- A write of a location other than CMD stores there, and the script goes on. -/
theorem runScript_writeStep {r : Region} {i : Nat} {s : State} (hidle : s.busy = false) (hr : r ≠ .cmd)
    (hi : i < r.size) (v : Nat) (rest : List ScriptStep) :
    runScript (writeStep r i v :: rest) s = runScript rest (writeLoc r i (BitVec.ofNat 32 v) s) := by
  refine runScript_input ?_ rest
  rw [step_hostWrite (s := s.giveNext _) (rest := s.pending) rfl hidle (regionAddress_ne_cmd hi hr),
    memWrite_regionAddress hi]
  rfl

/-! ### A sequence of symbols -/

/-- `SB[i], SB[i+1], … <- xs`. -/
def State.setSbFrom (s : State) : Nat → List Sym → State
  | _, [] => s
  | i, x :: xs => (s.setSb i x).setSbFrom (i + 1) xs

theorem setSbFrom_frame (s : State) (i : Nat) (xs : List Sym) :
    s.setSbFrom i xs = { s with sb := (s.setSbFrom i xs).sb } := by
  induction xs generalizing s i with
  | nil => rfl
  | cons x xs ih => exact ih (s.setSb i x) (i + 1)

theorem sbAt_setSbFrom (s : State) (i j : Nat) (xs : List Sym) :
    (s.setSbFrom i xs).sbAt j = if j < i then s.sbAt j else (xs[j - i]?).getD (s.sbAt j) := by
  induction xs generalizing s i with
  | nil => simp [State.setSbFrom]
  | cons x xs ih =>
    rw [State.setSbFrom, ih, sbAt_setSb]
    obtain hlt | rfl | hgt := Nat.lt_trichotomy j i
    · rw [if_pos (by omega), if_neg (by omega), if_pos hlt]
    · simp
    · have hsub : j - i = j - (i + 1) + 1 := by omega
      rw [if_neg (by omega), if_neg (by omega), if_neg (by omega), hsub, List.getElem?_cons_succ]

/-- The element writes of a `.sb` line leave its symbols in SB (R101). -/
theorem runScript_sbElements (xs : List Sym) (rest : List ScriptStep) {s : State} {i : Nat} (hidle : s.busy = false)
    (hfit : i + xs.length ≤ Region.sb.size) :
    runScript (elementSteps .sb i (xs.map BitVec.toNat) ++ rest) s = runScript rest (s.setSbFrom i xs) := by
  induction xs generalizing s i with
  | nil => rfl
  | cons x xs ih =>
    rw [List.length_cons] at hfit
    have hstore : writeLoc .sb i (BitVec.ofNat 32 x.toNat) s = s.setSb i x := by
      rw [writeLoc, BitVec.ofNat_toNat, BitVec.setWidth_setWidth_of_le x (by decide), BitVec.setWidth_eq]
    rw [List.map_cons, elementSteps, List.cons_append, runScript_writeStep hidle (by decide) (by omega), hstore]
    exact ih (s := s.setSb i x) hidle (by omega)

/-- Settles O55: the element writes leave the sequence in SB, and the last write sets SB_LEN to its length. -/
theorem hostSuppliesSymbols : Obligations.HostSuppliesSymbols := by
  intro s xs hidle hlen
  refine ⟨{ s.setSbFrom 0 xs with sbLen := BitVec.ofNat _ xs.length }, ?_, ?_, ?_⟩
  · have hidle' : (s.setSbFrom 0 xs).busy = false := by rw [setSbFrom_frame]; exact hidle
    rw [assemble, runScript_sbElements xs _ hidle (by rw [Region.size_eq]; dsimp only; omega),
      runScript_writeStep hidle' (by decide) (by decide), writeLoc, BitVec.setWidth_eq]
    rfl
  · have hsbLen : (BitVec.ofNat Config.lenW xs.length).toNat = xs.length := by
      rw [BitVec.toNat_ofNat, Config.two_pow_lenW]; omega
    refine List.ext_getElem (by simp [State.symbols, hsbLen]) fun j _ hj => ?_
    have hat : (s.setSbFrom 0 xs).sbAt j = xs[j] := by simp [sbAt_setSbFrom, hj]
    simp only [State.symbols, List.getElem_map, List.getElem_range]
    exact hat
  · rw [setSbFrom_frame]

end Sys2Proof.Machine
end

section
/-! PROOFS. The frequency_accumulator (R121, R122, R125): what FA_ADD leaves in its count and in the others. -/

namespace Sys2Proof.Machine

open Sys2Proof

/-- FA_ADD on the largest count (R125, log entry 2). -/
theorem faAdd_eq_of_largest {s : State} {x : Sym} (h : s.count x = BitVec.allOnes _) :
    faAdd x s = { s.setCount x (Config.freeCount s.free) with free := s.free + 1 } := if_pos h

/-- Whatever count it meets, FA_ADD leaves every other one alone (R122). -/
theorem count_faAdd_of_ne {x y : Sym} (s : State) (h : y ≠ x) : (faAdd x s).count y = s.count y := by
  have hset (v : Count) : (s.setCount x v).count y = s.count y := by rw [count_setCount, if_neg h]
  by_cases hx : s.count x = BitVec.allOnes _
  · rw [faAdd_eq_of_largest hx]; exact hset _
  · rw [faAdd_eq hx]; exact hset _

theorem count_faAdd_of_largest {s : State} {x : Sym} (h : s.count x = BitVec.allOnes _) :
    (faAdd x s).count x = Config.freeCount s.free := by
  rw [faAdd_eq_of_largest h]
  exact (count_setCount s x x _).trans (if_pos rfl)

/-- A count short of the largest is increased without wrapping round (R122). -/
theorem toNat_count_faAdd {s : State} {x : Sym} (h : s.count x ≠ BitVec.allOnes _) :
    ((faAdd x s).count x).toNat = (s.count x).toNat + 1 := by
  rw [faAdd_eq h, count_setCount, if_pos rfl]
  have hlt : (s.count x).toNat < (BitVec.allOnes Config.cntW).toNat := BitVec.lt_allOnes_iff.mpr h
  rw [BitVec.toNat_allOnes] at hlt
  exact BitVec.toNat_add_of_lt (Nat.add_lt_of_lt_sub hlt)

/-- Settles O16: no entry of the emptied table is left. -/
theorem faClearEmptiesTable : Obligations.FaClearEmptiesTable :=
  fun s => ⟨_, rfl, count_faClear s, rfl, rfl⟩

/-- Settles O17: the increment of FA_ADD, and its frame with the counter of free values as it was. -/
theorem faAddIncrementsOneCount : Obligations.FaAddIncrementsOneCount := by
  intro s x h
  have hframe : faAdd x s = { s with ft := (faAdd x s).ft } := by rw [faAdd_eq h]; rfl
  exact ⟨_, rfl, toNat_count_faAdd h, fun y hy => count_faAdd_of_ne s hy, rfl, congrArg (State.present · _) hframe⟩

/-- Settles O18: the free value that FA_ADD takes, and its frame. -/
theorem faAddAtLargestCount : Obligations.FaAddAtLargestCount := fun s x h =>
  ⟨_, rfl, count_faAdd_of_largest h, fun _ hy => count_faAdd_of_ne s hy,
    congrArg (State.present · _) (faAdd_frame x s)⟩

end Sys2Proof.Machine
end

section
/-! PROOFS. The priority_queue_min_heap (R141 to R147): what a push, a pop and the empty condition do, and that no
answer of the queue depends on where in the array its entries stand. -/

namespace Sys2Proof.Machine

open Sys2Proof

/-! ### Each operation of the queue, case by case -/

theorem queueEmpty_eq (s : State) : s.queueEmpty = decide (s.heapN = 0) := by
  rw [Bool.eq_iff_iff, decide_eq_true_iff]
  exact List.isEmpty_iff_length_eq_zero

theorem seq_eq_allOnes_iff (x : Idx) : x = BitVec.allOnes _ ↔ x.toNat = 511 := BitVec.toNat_inj.symm

/-- Nothing is pushed with the queue full or SEQ at its end (R144). -/
theorem pqPush_of_full {s : State} (item : Idx) (weight : Weight) (h : 256 ≤ s.heapN ∨ s.seq.toNat = 511) :
    pqPush item weight s = (s, .fail .capacity) :=
  if_pos (h.imp_right (seq_eq_allOnes_iff s.seq).mpr)

/-- With room, one entry stamped with SEQ joins the others (R144). -/
theorem pqPush_of_room {s : State} (item : Idx) (weight : Weight) (h : ¬(256 ≤ s.heapN ∨ s.seq.toNat = 511)) :
    ∃ g, g.Perm ({ item := item, weight := weight, seq := s.seq } :: s.heap) ∧
      pqPush item weight s = ({ s with heap := g, seq := s.seq + 1#_ }, .ok) := by
  obtain ⟨hfull, -⟩ | ⟨-, -, hpush⟩ := pqPush_cases item weight s
  · exact absurd (hfull.imp_right (seq_eq_allOnes_iff s.seq).mp) h
  · exact hpush

theorem exec_pqPush (item : Idx) (weight : Weight) (s : State) :
    exec (.pqPush item weight) s = .next ((pqPush item weight s).1.present (replyOf (pqPush item weight s).2)) := rfl

/-- What PQ_POP presents on its result ports (R97, R145). -/
def popReply : Option HeapEntry → Reply
  | some e => { result := .ok, item := some e.item, weight := some e.weight, empty := none }
  | none => replyOf (.fail .emptyQueue)

theorem exec_pqPop (s : State) : exec .pqPop s = .next ((pqPop s).1.present (popReply (pqPop s).2)) := by
  rcases h : pqPop s with ⟨t, _ | e⟩ <;> simp only [exec, execPqPop, h, popReply]

theorem pqPop_of_empty {s : State} (h : s.heap = []) : pqPop s = (s, none) := by
  simp only [pqPop, h]

/-! ### The layout of the array -/

/-- `s'` is `s` with the entries of its queue in another array layout. -/
structure Relaid (s s' : State) : Prop where
  entries : s'.heap.Perm s.heap
  others : s' = { s with heap := s'.heap }

theorem Relaid.present {s s' : State} (h : Relaid s s') (r : Reply) : Relaid (s.present r) (s'.present r) :=
  ⟨h.entries, congrArg (State.present · r) h.others⟩

theorem Relaid.heapN {s s' : State} (h : Relaid s s') : s'.heapN = s.heapN := h.entries.length_eq

theorem Relaid.seq {s s' : State} (h : Relaid s s') : s'.seq = s.seq := by
  rw [h.others]

theorem Relaid.pqClear {s s' : State} (h : Relaid s s') : Relaid (pqClear s) (pqClear s') :=
  ⟨.refl _, by rw [h.others]; rfl⟩

theorem Relaid.pqPush {s s' : State} (h : Relaid s s') (item : Idx) (weight : Weight) :
    (pqPush item weight s').2 = (pqPush item weight s).2 ∧
      Relaid (pqPush item weight s).1 (pqPush item weight s').1 := by
  by_cases hfull : 256 ≤ s.heapN ∨ s.seq.toNat = 511
  · rw [pqPush_of_full item weight hfull, pqPush_of_full item weight (by rwa [h.heapN, h.seq])]
    exact ⟨rfl, h⟩
  · obtain ⟨g, hg, hpush⟩ := pqPush_of_room item weight hfull
    obtain ⟨g', hg', hpush'⟩ := pqPush_of_room (s := s') item weight (by rwa [h.heapN, h.seq])
    rw [h.seq] at hg' hpush'
    rw [hpush, hpush']
    exact ⟨rfl, hg'.trans ((h.entries.cons _).trans hg.symm), by rw [h.others]⟩

/-- The least entry of a queue is the same in every layout (R141). -/
theorem least_unique {e e' : HeapEntry} {tl tl' : List HeapEntry} (h : ∀ f ∈ tl, keyLt e f = true)
    (h' : ∀ f ∈ tl', keyLt e' f = true) (hp : (e' :: tl').Perm (e :: tl)) : e' = e := by
  obtain he' | he' := List.mem_cons.mp (hp.subset List.mem_cons_self)
  · exact he'
  obtain he | he := List.mem_cons.mp (hp.symm.subset List.mem_cons_self)
  · exact he.symm
  · have hlt := (keyLt_iff _ _).mp (h e' he')
    have hgt := (keyLt_iff _ _).mp (h' e he)
    omega

theorem Relaid.pqPop {s s' : State} (h : Relaid s s') (hq : QueueOk s) (hq' : QueueOk s') :
    (pqPop s').2 = (pqPop s).2 ∧ Relaid (pqPop s).1 (pqPop s').1 := by
  have hempty : s'.heap = [] ↔ s.heap = [] := by
    rw [← List.length_eq_zero_iff, h.entries.length_eq, List.length_eq_zero_iff]
  by_cases hne : s.heap = []
  · rw [pqPop_of_empty hne, pqPop_of_empty (hempty.mpr hne)]
    exact ⟨rfl, h⟩
  · obtain ⟨e, tl, hh, hpop, hrest, hleast, -⟩ := pqPop_spec hq hne
    obtain ⟨e', tl', hh', hpop', hrest', hleast', -⟩ := pqPop_spec hq' (mt hempty.mp hne)
    have hall : (e' :: tl').Perm (e :: tl) := hh ▸ hh' ▸ h.entries
    obtain rfl := least_unique hleast hleast' hall
    rw [hpop, hpop']
    exact ⟨rfl, (hrest'.trans hall.cons_inv).trans hrest.symm, by rw [h.others]⟩

/-! ### The statements -/

/-- Settles O21: the two fields that PQ_CLEAR writes. -/
theorem pqClearEmptiesQueue : Obligations.PqClearEmptiesQueue :=
  fun _ => ⟨_, rfl, rfl, rfl, rfl, rfl, rfl⟩

/-- Settles O24: a heap of no entries is the empty list. -/
theorem pqIsEmptyReports : Obligations.PqIsEmptyReports := by
  intro s
  rw [← queueEmpty_eq]
  rfl

/-- Settles O22: the two outcomes of a push, the invariant by `exec_keeps_queueOk`. -/
theorem pqPushAddsEntry : Obligations.PqPushAddsEntry := by
  refine ⟨fun s item weight hroom hseq => ?_, fun s item weight hfull => ?_⟩
  · obtain ⟨g, hperm, hpush⟩ := pqPush_of_room item weight (by omega : ¬(256 ≤ s.heapN ∨ s.seq.toNat = 511))
    have hexec := exec_pqPush item weight s
    rw [hpush] at hexec
    have hseq' : (s.seq + 1#_).toNat = s.seq.toNat + 1 := seq_succ_toNat (mt (seq_eq_allOnes_iff s.seq).mp hseq.ne)
    exact ⟨_, hexec, hperm, hseq', exec_keeps_queueOk hexec, rfl, rfl⟩
  · rw [exec_pqPush, pqPush_of_full item weight (hfull.imp_left Eq.ge)]
    rfl

/-- Settles O23: `pqPop_spec` at the sub-block interface, the invariant by `exec_keeps_queueOk`. -/
theorem pqPopTakesLeast : Obligations.PqPopTakesLeast := by
  refine ⟨fun s hq hne => ?_, fun s hempty => ?_⟩
  · obtain ⟨e, tl, hheap, hpop, hrest, hleast, -⟩ := pqPop_spec hq hne
    have hexec := exec_pqPop s
    rw [hpop] at hexec
    exact ⟨_, e, hexec, (List.Perm.of_eq hheap).trans (hrest.symm.cons e),
      fun f hf => of_decide_eq_true (hleast f (hrest.subset hf)), exec_keeps_queueOk hexec hq, rfl, rfl⟩
  · rw [exec_pqPop, pqPop_of_empty hempty]
    rfl

/-- Settles O25: each operation takes two layouts of one queue to two layouts of one queue. -/
theorem pqLayoutUnobservable : Obligations.PqLayoutUnobservable := by
  intro s s' i hq hq' hframe hperm hi
  have h : Relaid s s' := ⟨hperm, hframe⟩
  obtain rfl | ⟨item, weight, rfl⟩ | rfl | rfl := hi
  · have hn := h.pqClear.present (replyOf .ok)
    exact ⟨_, _, rfl, rfl, rfl, hn.entries, hn.others⟩
  · obtain ⟨hr, hn⟩ := h.pqPush item weight
    have hn' := hn.present (replyOf (pqPush item weight s').2)
    exact ⟨_, _, rfl, rfl, congrArg replyOf hr, hn.entries, hr ▸ hn'.others⟩
  · obtain ⟨hr, hn⟩ := h.pqPop hq hq'
    have hn' := hn.present (popReply (pqPop s').2)
    exact ⟨_, _, exec_pqPop s, exec_pqPop s', congrArg popReply hr, hn.entries, hr ▸ hn'.others⟩
  · refine ⟨_, _, pqIsEmptyReports s, pqIsEmptyReports s', ?_⟩
    rw [h.heapN]
    exact ⟨rfl, h.entries, (h.present _).others⟩

end Sys2Proof.Machine
end

section
/-! PROOFS. TB_BUILD against the abstract construction (R147, R170 to R173). -/

namespace Sys2Proof.Machine

open Sys2Proof

/-- Settles O28: TB_BUILD succeeds on a mapping that is not empty (`tbBuild_spec`), and the tree in its arena is the one
that the sorted list gives (`tbBuild_tree`: the heap and the list are kept in step through every push and merge). -/
theorem tbBuildMergesLeastPairs : Obligations.TbBuildMergesLeastPairs := by
  intro s hne
  obtain ⟨he, -⟩ | ⟨-, t, ht, -, hwf, -⟩ := tbBuild_spec s
  · exact absurd he hne
  · obtain ⟨htree, hsome⟩ := tbBuild_tree hne ht
    obtain ⟨T, hT⟩ := Option.ne_none_iff_exists'.mp hsome
    refine ⟨t.present (replyOf .ok), T, by simp only [exec, execTbBuild, ht], ?_, hT⟩
    calc (t.present (replyOf .ok)).tree = t.tree := hwf.tree_congr (s := t) rfl rfl
      _ = some T := htree.trans hT

end Sys2Proof.Machine
end

section
/-! PROOFS. TB_BUILD and BUILD are functions of the frequencies (R180), what they make of one recorded symbol (R174,
R192), and BUILD run again (R252). -/

namespace Sys2Proof.Machine

open Sys2Proof

/-- TB_BUILD's answer is where its operation ended (R97). -/
theorem exec_tbBuild_of_ok {s t : State} {r : Result} (h : tbBuild s = .ok (t, r)) :
    exec .tbBuild s = .next (t.present (replyOf r)) := by simp only [exec, execTbBuild, h]

/-- BUILD completes where its micro-operations ended (R250, R252). -/
theorem exec_cmdBuild_of_ok {s t : State} {r : Result} (h : runBuild s.accept = .ok (t, r)) :
    exec .cmdBuild s = .next (t.complete r) := by simp only [exec, execCmdBuild, h]

/-! ### Equal frequencies (R180) -/

theorem recorded_congr {s s' : State} (hc : ∀ x, s'.count x = s.count x) : s'.recorded = s.recorded := by
  simp only [State.recorded, hc]

theorem huffmanTree_congr {s s' : State} (hc : ∀ x, s'.count x = s.count x) : huffmanTree s' = huffmanTree s := by
  simp only [huffmanTree, leafTrees, recorded_congr hc, hc]

/-- What TB_BUILD writes is a function of the frequencies, and the rest of the state stays (R177, R180). -/
theorem tbBuild_eq_of_count {s s' t : State} (hc : ∀ x, s'.count x = s.count x) (ht : tbBuild s = .ok (t, .ok)) :
    tbBuild s' = .ok ({ s' with node := t.node, root := t.root, treeValid := true, heap := t.heap, seq := t.seq,
                                k := t.k }, .ok) := by
  obtain ⟨t', ht', ⟨hheap, hseq, hnode, hk⟩, hroot⟩ := tbBuild_determined hc ht
  obtain ⟨-, hfail⟩ | ⟨-, u, hu, hv, -, -, -, -, -, -, hframe⟩ := tbBuild_spec s'
  · rw [hfail] at ht'
    cases ht'
  · obtain rfl : t' = u := by rw [ht'] at hu; cases hu; rfl
    rw [hv, hheap, hseq, hnode, hk, hroot] at hframe
    rw [ht', hframe]

/-- Settles O29: `tbBuild_eq_of_count` for the arena and the root; the code table is the closed form of `huffmanTree`
(`runBuild_spec`), which reads the counts alone. -/
theorem buildDependsOnFrequenciesOnly : Obligations.BuildDependsOnFrequenciesOnly := by
  intro s s' hc hne
  have hc' : ∀ x, s'.count x = s.count x := fun x => (hc x).symm
  have hne' : s'.recorded ≠ [] := recorded_congr hc' ▸ hne
  constructor
  · obtain ⟨he, -⟩ | ⟨-, t, ht, -⟩ := tbBuild_spec s
    · exact absurd he hne
    · exact ⟨_, _, exec_tbBuild_of_ok ht, exec_tbBuild_of_ok (tbBuild_eq_of_count hc' ht), rfl, rfl⟩
  · obtain ⟨he, -⟩ | ⟨-, t, T, ht, -, -, -, -, hT, -, -, hct, -⟩ := runBuild_spec s.accept
    · exact absurd he hne
    · obtain ⟨he', -⟩ | ⟨-, t', T', ht', -, -, -, -, hT', -, -, hct', -⟩ := runBuild_spec s'.accept
      · exact absurd he' hne'
      · have hsame : T' = T := Option.some.inj (hT'.symm.trans ((huffmanTree_congr (s := s.accept) hc').trans hT))
        have hctEq : t.ct = t'.ct := by rw [hct, hct', hsame]
        exact ⟨_, _, exec_cmdBuild_of_ok ht, exec_cmdBuild_of_ok ht', code_congr (s := t'.complete .ok) hctEq⟩

/-! ### One recorded symbol (R174, R192) -/

theorem Tree.eq_leaf_of_depth_zero {T : Tree} (h : T.depth = 0) : ∃ x w, T = .leaf x w := by
  cases T with
  | leaf x w => exact ⟨x, w, rfl⟩
  | node w l r => simp [Tree.depth] at h

/-- Settles O30: the well-formed arena over one symbol is one leaf slot, and a tree of depth 0 over the symbols `[x]` is
that leaf, whose closed-form table is the codeword "0" for `x` (R199). -/
theorem oneSymbolAlphabet : Obligations.OneSymbolAlphabet := by
  intro s x hx
  obtain ⟨he, -⟩ | ⟨-, t, T, ht, -, hwf, hleaves, -, -, hcodes, -, -, -, hsyms, hdepth, -⟩ := runBuild_spec s.accept
  · exact absurd (hx.symm.trans he) (List.cons_ne_nil x [])
  · have hrec : s.accept.recorded = [x] := hx
    rw [hrec] at hwf hleaves hsyms hdepth
    have hlen : t.node.length = 1 := hwf.slots
    have hnode : t.node = [leafNode x (s.count x)] := by
      rw [← List.take_of_length_le hlen.le]
      exact hleaves
    obtain ⟨y, w, rfl⟩ := Tree.eq_leaf_of_depth_zero (Nat.lt_one_iff.mp hdepth)
    obtain rfl : y = x := List.singleton_perm_singleton.mp hsyms
    refine ⟨_, exec_cmdBuild_of_ok ht, BitVec.eq_of_toNat_eq hwf.root_eq, ?_, hlen, ?_⟩
    · have hslot : (t.complete .ok).node = [leafNode y (s.count y)] := hnode
      rw [State.nodeAt, hslot]
      rfl
    · intro z
      calc (t.complete .ok).codewordOf z = t.codewordOf z := rfl
        _ = [(y, [false])].lookup z := hcodes z
        _ = if z = y then some [false] else none := by
          by_cases hz : z = y
          · simp [hz]
          · simp [hz, List.lookup_cons, beq_false_of_ne hz]

/-! ### BUILD again (R180, R252) -/

/-- The state with another value in ERR: a BUILD accepted right after a BUILD starts from where that one's micro-operations
ended, but for ERR. -/
def State.withErr (s : State) (e : ErrCode) : State := { s with err := e }

theorem walkLoop_of_empty {n : Nat} {s : State} (hd : s.dstack = []) : walkLoop n s = .ok s := by
  cases n <;> simp only [walkLoop, hd, if_true]

theorem walkLoop_of_leaf {n : Nat} {s : State} {f : StackEntry} {rest : List StackEntry} (hd : s.dstack = f :: rest)
    (hl : (s.nodeAt f.node).leaf = true) :
    walkLoop (n + 1) s = walkLoop n
      (assignCode (s.nodeAt f.node).sym (firstDigits (enterNode f rest s).path f.depth.toNat) (enterNode f rest s)) := by
  simp only [walkLoop, hd, hl, if_true]

theorem walkLoop_of_internal {n : Nat} {s : State} {f : StackEntry} {rest : List StackEntry} (hd : s.dstack = f :: rest)
    (hl : (s.nodeAt f.node).leaf = false) (hdeep : f.depth ≠ BitVec.ofNat _ Config.codeMax) :
    walkLoop (n + 1) s =
      walkLoop n { enterNode f rest s with dstack := childEntries (s.nodeAt f.node) f.depth ++ rest } := by
  simp only [walkLoop, hd, hl, Bool.false_eq_true, if_false, hdeep]

/-- The traversal neither reads nor writes ERR. -/
theorem walkLoop_withErr {n : Nat} {s t : State} (e : ErrCode) (h : walkLoop n s = .ok t) :
    walkLoop n (s.withErr e) = .ok (t.withErr e) := by
  induction n generalizing s with
  | zero =>
    by_cases hd : s.dstack = []
    · rw [walkLoop_of_empty hd] at h
      cases h
      exact walkLoop_of_empty hd
    · simp [walkLoop, hd] at h
  | succ n ih =>
    cases hd : s.dstack with
    | nil =>
      rw [walkLoop_of_empty hd] at h
      cases h
      exact walkLoop_of_empty hd
    | cons f rest =>
      cases hl : (s.nodeAt f.node).leaf with
      | true =>
        rw [walkLoop_of_leaf hd hl] at h
        exact (walkLoop_of_leaf (s := s.withErr e) hd hl).trans (ih h)
      | false =>
        by_cases hdeep : f.depth = BitVec.ofNat _ Config.codeMax
        · simp [walkLoop, hd, hl, hdeep] at h
        · rw [walkLoop_of_internal hd hl hdeep] at h
          exact (walkLoop_of_internal (s := s.withErr e) hd hl hdeep).trans (ih h)

/-- When CG_GEN succeeds, and with what (R191, R192). -/
theorem cgGen_eq_ok_iff {s t : State} : cgGen s = .ok (t, .ok) ↔
    s.treeValid = true ∧
      ((s.nodeAt s.root).leaf = true ∧
          { assignCode (s.nodeAt s.root).sym [false] (startWalk s) with dstack := [] } = t ∨
        (s.nodeAt s.root).leaf = false ∧ walkLoop Config.nodeDepth (startWalk s) = .ok t) := by
  unfold cgGen
  cases hv : s.treeValid with
  | false => simp
  | true =>
    cases hl : (s.nodeAt s.root).leaf with
    | true => simp
    | false => cases walkLoop Config.nodeDepth (startWalk s) <;> simp

/-- CG_GEN starts its table and its traversal registers afresh (R36, R191) and has no use for ERR: where it has run, it
leaves the same again. -/
theorem cgGen_again {s t : State} (e : ErrCode) (h : cgGen s = .ok (t, .ok)) :
    cgGen (t.withErr e) = .ok (t.withErr e, .ok) := by
  have hframe := cgGen_frame h
  obtain ⟨hv, hcase⟩ := cgGen_eq_ok_iff.mp h
  have hvt : (t.withErr e).treeValid = s.treeValid := by rw [hframe]; rfl
  have hroot : (t.withErr e).nodeAt (t.withErr e).root = s.nodeAt s.root := by rw [hframe]; rfl
  have hstart : startWalk (t.withErr e) = (startWalk s).withErr e := by rw [hframe]; rfl
  rw [cgGen_eq_ok_iff, hroot, hstart]
  exact ⟨hvt.trans hv, hcase.imp (fun ⟨hl, ht⟩ => ⟨hl, congrArg (·.withErr e) ht⟩)
    fun ⟨hl, hw⟩ => ⟨hl, walkLoop_withErr e hw⟩⟩

/-- BUILD's micro-operations leave the same again where they have run, whatever ERR is by then (R180, R252). -/
theorem runBuild_again {s t : State} (e : ErrCode) (h : runBuild s = .ok (t, .ok)) :
    runBuild (t.withErr e) = .ok (t.withErr e, .ok) := by
  obtain ⟨-, hfail⟩ | ⟨-, u, hu, hv, -, -, -, -, -, -, hframe⟩ := tbBuild_spec s
  · rw [runBuild, hfail] at h
    cases h
  · rw [runBuild, hu] at h
    have ht := cgGen_frame h
    have hcount : ∀ x, (t.withErr e).count x = s.count x := by
      intro x
      rw [ht, hframe]
      rfl
    have hagain : tbBuild (t.withErr e) = .ok (t.withErr e, .ok) := by
      rw [tbBuild_eq_of_count hcount hu, ht, ← hv]
      rfl
    rw [runBuild, hagain]
    exact cgGen_again e h

/-- Settles O37: `runBuild_again` from the state BUILD completed in, whose ERR reports success and whose BUSY the
acceptance of the second BUILD sets again (R250). -/
theorem buildAgainChangesNothing : Obligations.BuildAgainChangesNothing := by
  intro s hne
  obtain ⟨he, -⟩ | ⟨-, t, T, ht, -⟩ := runBuild_spec s.accept
  · exact absurd he hne
  · have hbusy : t.busy = true := by rw [runBuild_frame ht]; rfl
    have haccept : (t.complete .ok).accept = t.withErr 0#3 := by
      rw [State.withErr, State.complete, State.accept, ← hbusy]
      rfl
    have hagain : runBuild (t.complete .ok).accept = .ok (t.withErr 0#3, .ok) := by
      rw [haccept]
      exact runBuild_again 0#3 ht
    exact ⟨t.complete .ok, exec_cmdBuild_of_ok ht, exec_cmdBuild_of_ok (t := t.withErr 0#3) hagain⟩

end Sys2Proof.Machine
end

section
/-! PROOFS. CG_GEN (R191 to R199): with and without a tree, its table against R191's recursion, prefix-freedom, and the
symbols that BUILD gives codewords. -/

namespace Sys2Proof.Machine

open Sys2Proof

/-- CG_GEN's answer is where its operation ended (R97). -/
theorem exec_cgGen_of_ok {s t : State} {r : Result} (h : cgGen s = .ok (t, r)) :
    exec .cgGen s = .next (t.present (replyOf r)) := by simp only [exec, execCgGen, h]

theorem cgGen_of_no_tree {s : State} (h : s.treeValid = false) : cgGen s = .ok (s, .fail .emptyTree) := if_pos h

/-- Settles O31: the check of TREE_VALID comes before any write (R191), so only the reply differs. -/
theorem cgGenWithoutTree : Obligations.CgGenWithoutTree := fun _ hv => exec_cgGen_of_ok (cgGen_of_no_tree hv)

/-! ### The table of a well-formed tree (R191, R199) -/

/-- Settles O32: `cgGen_spec`, whose traversal is an induction over the abstract tree (`walkLoop_sub`); presenting the
reply leaves the table as it is. -/
theorem cgGenWritesRootPaths : Obligations.CgGenWritesRootPaths := by
  intro s n hv hwf
  obtain ⟨t, T, ht, hT, -, hcodes, hpad, -, hframe⟩ := cgGen_spec hv hwf
  refine ⟨t.present (replyOf .ok), T, exec_cgGen_of_ok ht, hT, hcodes, hpad, rfl, ?_⟩
  rw [hframe]
  rfl

/-- Below an internal node the closed form is the root paths: the fixed codeword is for a root that is a leaf (R192). -/
theorem Sub.codes_eq_paths {s : State} {k : Idx} {T : Tree} {m : List Nat} (h : Sub s k.toNat T m)
    (hl : (s.nodeAt k).leaf = false) : T.codes = T.paths [] := by
  rw [nodeAt_eq h.lt] at hl
  cases h with
  | leaf _ _ hleaf => exact absurd (hl.symm.trans hleaf) Bool.false_ne_true
  | node => rfl

/-- The abstract tree of a well-formed arena stands at ROOT, is less deep than it has leaves, and no two of its leaves
carry one symbol (R40, R42). -/
theorem TreeWf.root_of_tree {s : State} {n : Nat} {T : Tree} (hwf : TreeWf s n) (hT : s.tree = some T) :
    ∃ m, Sub s s.root.toNat T m ∧ T.depth < n ∧ T.symbols.Nodup := by
  obtain ⟨T', m, hT', hsub, -, hdepth, hnodup, -⟩ := hwf.tree
  obtain rfl : T' = T := Option.some.inj (hT'.symm.trans hT)
  exact ⟨m, hsub, hdepth, hnodup⟩

/-- Settles O33: CG_GEN (`cgGen_spec`) and the recursion (`walkRec_sub`) make the same assignments to the empty table,
the root paths of the tree at ROOT in the same order (R193). -/
theorem cgGenFollowsRecursion : Obligations.CgGenFollowsRecursion := by
  intro s n hv hwf hl
  obtain ⟨t, T, ht, hT, hct, -⟩ := cgGen_spec hv hwf
  obtain ⟨m, hsub, hdepth, -⟩ := hwf.root_of_tree hT
  have hbound : T.depth < 256 := hdepth.trans_le hwf.count_le
  refine ⟨t.present (replyOf .ok), exec_cgGen_of_ok ht, ?_⟩
  calc walkRec s 256 s.root [] [] = some (assignAll (T.paths []) []) := walkRec_sub hsub 256 hbound s.root rfl [] []
    _ = some (assignAll T.codes []) := by rw [hsub.codes_eq_paths hl]
    _ = some t.ct := congrArg some hct.symm

/-- Settles O34: the table is the closed form (`cgGen_spec`), and the codewords of a tree whose leaves carry different
symbols are prefix-free (`Tree.codes_prefixFree`). -/
theorem codewordsPrefixFree : Obligations.CodewordsPrefixFree := by
  intro s n hv hwf
  obtain ⟨t, T, ht, hT, -, hcodes, -⟩ := cgGen_spec hv hwf
  obtain ⟨-, -, -, hnodup⟩ := hwf.root_of_tree hT
  refine ⟨t.present (replyOf .ok), exec_cgGen_of_ok ht, rfl, fun x y p q hxy hp hq => ?_⟩
  have hxp : (x, p) ∈ T.codes := lookup_mem ((hcodes x).symm.trans hp)
  have hyq : (y, q) ∈ T.codes := lookup_mem ((hcodes y).symm.trans hq)
  exact T.codes_prefixFree hnodup _ hxp _ hyq hxy

/-! ### The symbols that BUILD gives codewords (R194, R197) -/

/-- The closed form lists exactly the symbols on the leaves (R199). -/
theorem Tree.lookup_codes_ne_none_iff (T : Tree) (x : Sym) : T.codes.lookup x ≠ none ↔ x ∈ T.symbols := by
  rw [← T.codes_symbols]
  simp [List.mem_map]

/-- Settles O35: BUILD leaves the closed form of a tree whose leaves carry exactly the recorded symbols
(`runBuild_spec`); its depth is below their number, and no codeword is longer than the larger of 1 and the depth
(`Tree.codes_length`). -/
theorem buildCoversRecordedSymbols : Obligations.BuildCoversRecordedSymbols := by
  intro s hne
  obtain ⟨he, -⟩ | ⟨-, t, T, ht, -, hwf, -, hT, -, hcodes, -, -, -, hsyms, hdepth, -⟩ := runBuild_spec s.accept
  · exact absurd he hne
  · have hdepth : T.depth < s.recorded.length := hdepth
    have htree : (t.complete .ok).tree = t.tree := hwf.tree_congr (s := t) rfl rfl
    refine ⟨t.complete .ok, T, exec_cmdBuild_of_ok ht, htree.trans hT, hcodes, fun x => ?_, fun x p hp => ?_⟩
    · calc (t.code x).len ≠ 0#8 ↔ t.codewordOf x ≠ none := codewordOf_none.not.symm
        _ ↔ T.codes.lookup x ≠ none := by rw [hcodes]
        _ ↔ x ∈ T.symbols := T.lookup_codes_ne_none_iff x
        _ ↔ x ∈ s.recorded := hsyms.mem_iff
        _ ↔ s.count x ≠ 0#32 := mem_recorded
    · obtain ⟨-, -, hlen⟩ := codewordOf_some hp
      have hmem : (x, p) ∈ T.codes := lookup_mem ((hcodes x).symm.trans hp)
      obtain ⟨hpos, hmax⟩ := T.codes_length _ hmem
      have hroom : p.length < 256 := hlen ▸ (t.code x).len.isLt
      exact ⟨hpos, hmax.trans (max_le_max_left 1 (Nat.le_sub_one_of_lt hdepth)), hlen.symm, Nat.le_of_lt_succ hroom⟩

end Sys2Proof.Machine
end

section
/-! PROOFS. The huffman_encoder (R211 to R215): the stream of a sequence that encodes and fits, and what ends ENC_RUN at
the lowest index that fails; with it the empty inputs of both directions (R215, R236). -/

namespace Sys2Proof.Machine

open Sys2Proof

/-! ### ENC_RUN on a sequence that encodes and fits (R213) -/

/-- The stream is as long as the entries of CT say (R213). -/
theorem length_concatCodes {s : State} {xs : List Sym} {q : List Digit} (h : s.concatCodes xs = some q) :
    q.length = (xs.map (fun x => (s.code x).len.toNat)).sum := by
  induction xs generalizing q with
  | nil => cases h; rfl
  | cons x xs ih =>
    obtain ⟨p, r, hp, hr, rfl⟩ := concatCodes_cons h
    obtain ⟨-, -, hlen⟩ := codewordOf_some hp
    rw [List.length_append, List.map_cons, List.sum_cons, hlen, ih hr]

/-- Settles O38: `encRun_ok`, whose loop is an induction over the indices of SB, says what is written; BB_LEN holds the
length exactly since the stream fits BB. -/
theorem encRunConcatenatesCodewords : Obligations.EncRunConcatenatesCodewords := by
  intro s q hs hq hfit
  have hrun := encRun_ok (cap := Config.depths) hs hq hfit
  have hlen : (BitVec.ofNat 32 q.length).toNat = q.length := Nat.mod_eq_of_lt (by omega)
  refine ⟨(encRun Config.depths s).1.present (replyOf (encRun Config.depths s).2), rfl, ?_⟩
  rw [hrun]
  exact ⟨stream_holding (s := s) rfl hlen, hlen, hlen.trans (length_concatCodes hq), rfl, rfl⟩

/-! ### ENC_RUN that fails (R211, R212, R290) -/

/-- The first check of ENC_RUN (R211). -/
theorem encRun_of_long {cap : Config.Capacities} {s : State} (h : cap.sb < s.sbLen.toNat) :
    encRun cap s = (s.leaveStream (.fail .capacity) [], .fail .capacity) := if_pos h

/-- Past its first check ENC_RUN leaves what its loop emitted, and ends as its loop does (R211). -/
theorem encRun_of_loop {cap : Config.Capacities} {s : State} {o : List Digit} {r : Result}
    (hs : s.sbLen.toNat ≤ cap.sb) (h : encodeLoop cap s (List.range s.sbLen.toNat) [] = (o, r)) :
    encRun cap s = ({ s.leaveStream r o with out := BitVec.ofNat _ o.length }, r) := by
  rw [encRun, if_neg hs.not_gt, h]

/-- No failure of ENC_RUN leaves a stream (R212). -/
theorem bbLen_encRun_of_fail {cap : Config.Capacities} {s : State} {k : ErrKind} (h : (encRun cap s).2 = .fail k) :
    (encRun cap s).1.bbLen = 0#_ := by
  by_cases hs : cap.sb < s.sbLen.toNat
  · rw [encRun_of_long hs]
    rfl
  · rcases hloop : encodeLoop cap s (List.range s.sbLen.toNat) [] with ⟨o, r⟩
    rw [encRun_of_loop (Nat.le_of_not_lt hs) hloop] at h ⊢
    obtain rfl : r = .fail k := h
    rfl

/-- ENC_RUN that fails reports its kind and leaves BB_LEN = 0; it writes nothing outside its output, OUT and its reply
(R212, R214). -/
theorem exec_encRun_of_fail {s : State} {k : ErrKind} (h : (encRun Config.depths s).2 = .fail k) :
    ∃ t, exec .encRun s = .next t ∧ t.reply = replyOf (.fail k) ∧ t.bbLen = 0#32 ∧
      t = { s with bb := t.bb, bbLen := t.bbLen, out := t.out, reply := t.reply } :=
  ⟨_, rfl, congrArg replyOf h, bbLen_encRun_of_fail h, exec_frame (i := .encRun) rfl⟩

/-- When the symbols before index `i` encode and fit, ENC_RUN ends as its loop does from `i` on (R211). -/
theorem encRun_result_from {cap : Config.Capacities} {s : State} {i : Nat} {q : List Digit}
    (hs : s.sbLen.toNat ≤ cap.sb) (hi : i < s.sbLen.toNat) (hq : s.concatCodes (s.symbols.take i) = some q)
    (hfit : q.length ≤ cap.bb) : ∃ is, (encRun cap s).2 = (encodeLoop cap s (i :: is) q).2 := by
  have hq' : s.concatCodes (((List.range s.sbLen.toNat).take i).map s.sbAt) = some q := by rwa [List.map_take]
  have hdrop : (List.range s.sbLen.toNat).drop i = i :: (List.range s.sbLen.toNat).drop (i + 1) := by
    rw [List.drop_eq_getElem_cons (by simpa using hi), List.getElem_range]
  refine ⟨(List.range s.sbLen.toNat).drop (i + 1), ?_⟩
  calc (encRun cap s).2 = (encodeLoop cap s (List.range s.sbLen.toNat) []).2 := by rw [encRun_of_loop hs rfl]
    _ = (encodeLoop cap s ((List.range s.sbLen.toNat).take i ++ (List.range s.sbLen.toNat).drop i) []).2 := by
      rw [List.take_append_drop]
    _ = (encodeLoop cap s ((List.range s.sbLen.toNat).drop i) ([] ++ q)).2 := by
      rw [encodeLoop_append _ _ [] q hq' (by simpa using hfit)]
    _ = (encodeLoop cap s (i :: (List.range s.sbLen.toNat).drop (i + 1)) q).2 := by rw [hdrop, List.nil_append]

theorem encodeLoop_cons_of_unknown {cap : Config.Capacities} {s : State} {i : Nat} (is : List Nat) (out : List Digit)
    (h : s.codewordOf (s.sbAt i) = none) : encodeLoop cap s (i :: is) out = (out, .fail .unknownSymbol) :=
  if_pos (codewordOf_none.mp h)

theorem encodeLoop_cons_of_overflow {cap : Config.Capacities} {s : State} {i : Nat} (is : List Nat)
    {out p : List Digit} (hp : s.codewordOf (s.sbAt i) = some p) (h : cap.bb < out.length + p.length) :
    encodeLoop cap s (i :: is) out = (out, .fail .capacity) := by
  obtain ⟨hne, -, hlen⟩ := codewordOf_some hp
  exact (if_neg hne).trans (if_pos (hlen ▸ h))

/-- Settles O39: the loop reaches the index with the stream so far (`encRun_result_from`) and stops there at its first
check. -/
theorem encRunUnknownSymbol : Obligations.EncRunUnknownSymbol := by
  intro s i q hs hi hq hfit hnone
  obtain ⟨is, hres⟩ := encRun_result_from (cap := Config.depths) hs hi hq hfit
  exact exec_encRun_of_fail (hres.trans (congrArg Prod.snd (encodeLoop_cons_of_unknown is q hnone)))

/-- Settles O40: the loop reaches the index with the stream so far (`encRun_result_from`) and stops there at its second
check; a length past the buffer is ENC_RUN's first check. -/
theorem encRunCapacityFault : Obligations.EncRunCapacityFault := by
  refine ⟨fun s i q p hs hi hq hfit hp hover => ?_, fun s hlong => ?_⟩
  · obtain ⟨is, hres⟩ := encRun_result_from (cap := Config.depths) hs hi hq hfit
    exact exec_encRun_of_fail (hres.trans (congrArg Prod.snd (encodeLoop_cons_of_overflow is hp hover)))
  · exact exec_encRun_of_fail (congrArg Prod.snd (encRun_of_long (cap := Config.depths) hlong))

/-! ### Empty inputs (R215, R236) -/

theorem symbols_of_sbLen_zero {s : State} (h : s.sbLen = 0#32) : s.symbols = [] := by
  rw [State.symbols, h]
  rfl

/-- With no digit to read the walk is still at the root (R232, R236). -/
theorem decRun_of_bbLen_zero {cap : Config.Capacities} {s : State} (hv : s.treeValid = true) (h : s.bbLen = 0#32) :
    decRun cap s = ({ s.leaveDecoded .ok [] with cur := s.root, out := 0#_ }, .ok) := by
  have hloop : decodeLoop cap s (List.range s.bbLen.toNat) s.root [] = (s.root, [], .ok) := by
    rw [h]
    exact congrArg (fun r => (s.root, [], r)) (if_pos rfl)
  rw [decRun, if_neg (by simp [hv]), if_neg (by simp [h]), hloop]
  rfl

/-- Settles O45: the empty sequence encodes to the empty stream under every table, so its run is O38's; the empty stream
leaves the walk at the root. -/
theorem emptyInputsSucceed : Obligations.EmptyInputsSucceed := by
  refine ⟨fun s h => ?_, fun s hv h => ?_⟩
  · have hq : s.concatCodes s.symbols = some [] := by rw [symbols_of_sbLen_zero h]; rfl
    obtain ⟨t, ht, -, hlen, -, hreply, hframe⟩ :=
      encRunConcatenatesCodewords s [] (by simp [h]) hq (Nat.zero_le _)
    exact ⟨t, ht, hreply, BitVec.eq_of_toNat_eq hlen, hframe⟩
  · refine ⟨(decRun Config.depths s).1.present (replyOf (decRun Config.depths s).2), rfl, ?_⟩
    rw [decRun_of_bbLen_zero hv h]
    exact ⟨rfl, rfl, rfl, rfl⟩

end Sys2Proof.Machine
end

section
/-! PROOFS. The huffman_decoder (R231 to R238): how DEC_RUN ends, its walk of the abstract tree, the streams it accepts,
the round trip, and the two cases a tree decides alone, no tree (R237) and a root that is a leaf (R233). -/

namespace Sys2Proof.Machine

open Sys2Proof

/-! ### How DEC_RUN ends (R231, R234) -/

section Ends

variable {cap : Config.Capacities} {s : State}

theorem decRun_of_no_tree (h : s.treeValid = false) :
    decRun cap s = (s.leaveDecoded (.fail .emptyTree) [], .fail .emptyTree) := if_pos h

theorem decRun_of_long (hv : s.treeValid = true) (h : cap.bb < s.bbLen.toNat) :
    decRun cap s = (s.leaveDecoded (.fail .capacity) [], .fail .capacity) := by
  rw [decRun, if_neg (by simp [hv]), if_pos h]

/-- Past its two checks DEC_RUN ends as its loop does (R231). -/
theorem decRun_of_loop {e : Idx} {o : List Sym} {r : Result} (hv : s.treeValid = true) (hl : s.bbLen.toNat ≤ cap.bb)
    (h : decodeLoop cap s (List.range s.bbLen.toNat) s.root [] = (e, o, r)) :
    decRun cap s = ({ s.leaveDecoded r o with cur := e, out := BitVec.ofNat _ o.length }, r) := by
  rw [decRun, if_neg (by simp [hv]), if_neg hl.not_gt, h]

/-- No failure of DEC_RUN leaves a decoded sequence (R234). -/
theorem dbLen_decRun_of_fail {k : ErrKind} (h : (decRun cap s).2 = .fail k) : (decRun cap s).1.dbLen = 0#_ := by
  cases hv : s.treeValid with
  | false => rw [decRun_of_no_tree hv]; rfl
  | true =>
    by_cases hl : cap.bb < s.bbLen.toNat
    · rw [decRun_of_long hv hl]; rfl
    · rcases hloop : decodeLoop cap s (List.range s.bbLen.toNat) s.root [] with ⟨e, o, r⟩
      rw [decRun_of_loop hv (Nat.le_of_not_lt hl) hloop] at h ⊢
      obtain rfl : r = .fail k := h
      rfl

end Ends

/-- DEC_RUN that fails reports its kind and leaves DB_LEN = 0; it writes nothing outside its output, CUR, OUT and its
reply (R231, R234). -/
theorem exec_decRun_of_fail {s : State} {k : ErrKind} (h : (decRun Config.depths s).2 = .fail k) :
    ∃ t, exec .decRun s = .next t ∧ t.reply = replyOf (.fail k) ∧ t.dbLen = 0#32 ∧
      t = { s with db := t.db, dbLen := t.dbLen, cur := t.cur, out := t.out, reply := t.reply } :=
  ⟨_, rfl, congrArg replyOf h, dbLen_decRun_of_fail h, exec_frame (i := .decRun) rfl⟩

/-! ### The walk of the abstract tree (R232, R290) -/

/-- Settles O42: a length past the buffer is DEC_RUN's second check; otherwise `decRun_spec`, whose loop is an induction
over the stream (`decodeLoop_walk`), says how the run ends. -/
theorem decRunWalksTree : Obligations.DecRunWalksTree := by
  intro s n hv hw
  by_cases hlong : 32768 < s.bbLen.toNat
  · obtain ⟨T, -, hT, -⟩ := hw.tree
    obtain ⟨t, ht, hreply, hlen, hframe⟩ :=
      exec_decRun_of_fail (congrArg Prod.snd (decRun_of_long (cap := Config.depths) hv hlong))
    exact ⟨t, T, ht, hT, hframe, by rw [if_pos (.inl hlong)]; exact ⟨hreply, hlen⟩⟩
  obtain ⟨T, hT, hcap, hmalformed, hok⟩ := decRun_spec (cap := Config.depths) hv hw (Nat.le_of_not_lt hlong)
  by_cases hmany : 4096 < (T.decodeWalk T s.stream).1.length
  · obtain ⟨t, ht, hreply, hlen, hframe⟩ := exec_decRun_of_fail (hcap hmany)
    exact ⟨t, T, ht, hT, hframe, by rw [if_pos (.inr hmany)]; exact ⟨hreply, hlen⟩⟩
  have hfit : (T.decodeWalk T s.stream).1.length ≤ 4096 := Nat.le_of_not_lt hmany
  have hchecks : ¬ (32768 < s.bbLen.toNat ∨ 4096 < (T.decodeWalk T s.stream).1.length) :=
    not_or.mpr ⟨hlong, hmany⟩
  cases hend : (T.decodeWalk T s.stream).2 with
  | false =>
    obtain ⟨t, ht, hreply, hlen, hframe⟩ := exec_decRun_of_fail (hmalformed hfit hend)
    exact ⟨t, T, ht, hT, hframe, by rw [if_neg hchecks, hend]; exact ⟨hreply, hlen⟩⟩
  | true =>
    have hrun := hok hfit hend
    have hlen : (BitVec.ofNat 32 (T.decodeWalk T s.stream).1.length).toNat = (T.decodeWalk T s.stream).1.length :=
      Nat.mod_eq_of_lt (by omega)
    refine ⟨(decRun Config.depths s).1.present (replyOf (decRun Config.depths s).2), T, rfl, hT,
      exec_frame (i := .decRun) rfl, ?_⟩
    rw [if_neg hchecks, if_pos hend, hrun]
    exact ⟨rfl, decoded_holding (s := s) rfl hlen, hlen, rfl⟩

/-! ### The streams that decode are the concatenations of codewords (R238) -/

/-- `PathAt T c p`: a walk of `T` stands at `c`, at the root or at an internal node below it, and `p` are the digits read
since the last symbol; what they are followed by below `c` makes codewords of `T`. -/
inductive PathAt (T : Tree) : Tree → List Digit → Prop where
  | root : PathAt T T []
  | below {w : Weight} {l r : Tree} {p : List Digit} (hlt : (Tree.node w l r).size < T.size)
      (hsub : (Tree.node w l r).paths p ⊆ T.codes) : PathAt T (.node w l r) p

/-- Only at the root has the walk read nothing since the last symbol (R232). -/
theorem PathAt.eq_nil {T : Tree} {p : List Digit} (h : PathAt T T p) : p = [] := by
  cases h with
  | root => rfl
  | below hlt => exact absurd hlt (lt_irrefl _)

theorem PathAt.node_paths {T l r : Tree} {w : Weight} {p : List Digit} (h : PathAt T (.node w l r) p) :
    (Tree.node w l r).size ≤ T.size ∧ (Tree.node w l r).paths p ⊆ T.codes := by
  cases h with
  | root => exact ⟨le_refl _, List.Subset.refl _⟩
  | below hlt hsub => exact ⟨hlt.le, hsub⟩

/-- The child a digit leads to: smaller than the whole tree, its paths longer by that digit (R199, R231). -/
theorem PathAt.child_paths {T l r : Tree} {w : Weight} {p : List Digit} (h : PathAt T (.node w l r) p) (b : Digit) :
    (if b then r else l).size < T.size ∧ (if b then r else l).paths (p ++ [b]) ⊆ T.codes := by
  obtain ⟨hsize, hsub⟩ := h.node_paths
  rw [Tree.size] at hsize
  rw [Tree.paths, List.append_subset] at hsub
  obtain ⟨hleft, hright⟩ := hsub
  cases b with
  | false => exact ⟨by simp only [Bool.false_eq_true, if_false]; omega, hleft⟩
  | true => exact ⟨by simp only [if_true]; omega, hright⟩

/-- The code table of a tree whose leaves carry different symbols reads back every codeword it lists (R199). -/
theorem Tree.lookup_codes_of_mem {T : Tree} (hn : T.symbols.Nodup) {x : Sym} {p : List Digit} (h : (x, p) ∈ T.codes) :
    T.codes.lookup x = some p := by
  have hx : x ∈ T.symbols := T.codes_symbols ▸ List.mem_map_of_mem (f := Prod.fst) h
  obtain ⟨q, hq⟩ := Option.ne_none_iff_exists'.mp ((T.lookup_codes_ne_none_iff x).mpr hx)
  have hpair : (x, q) = (x, p) :=
    List.inj_on_of_nodup_map (T.codes_symbols.symm ▸ hn) (lookup_mem hq) h rfl
  rw [hq, (Prod.mk.inj hpair).2]

theorem concatCodes_cons_of_some {s : State} {x : Sym} {xs : List Sym} {p q : List Digit}
    (hp : s.codewordOf x = some p) (hq : s.concatCodes xs = some q) : s.concatCodes (x :: xs) = some (p ++ q) := by
  simp only [State.concatCodes, hp, hq]

/-- Where the walk ends at the root, the digits it read are the codewords of the symbols it emitted (R232, R238). -/
theorem concatCodes_decodeWalk {s : State} {T : Tree} (hct : ∀ x, s.codewordOf x = T.codes.lookup x)
    (hn : T.symbols.Nodup) {c : Tree} {p bs : List Digit} (h : PathAt T c p) (hend : (T.decodeWalk c bs).2 = true) :
    s.concatCodes (T.decodeWalk c bs).1 = some (p ++ bs) := by
  induction bs generalizing c p with
  | nil =>
    obtain rfl : c = T := by simpa [Tree.decodeWalk] using hend
    obtain rfl := h.eq_nil
    rfl
  | cons b bs ih =>
    have emit : ∀ {x : Sym}, (x, p ++ [b]) ∈ T.codes → (T.decodeWalk T bs).2 = true →
        s.concatCodes (x :: (T.decodeWalk T bs).1) = some (p ++ b :: bs) := fun {x} hx hbs => by
      have hcode : s.codewordOf x = some (p ++ [b]) := (hct x).trans (Tree.lookup_codes_of_mem hn hx)
      simpa using concatCodes_cons_of_some hcode (ih .root hbs)
    cases c with
    | leaf x v =>
      cases h
      cases b with
      | true => exact absurd hend Bool.false_ne_true
      | false => exact emit List.mem_cons_self hend
    | node w l r =>
      obtain ⟨hlt, hsub⟩ := h.child_paths b
      cases hc : (if b then r else l) with
      | leaf x v =>
        rw [hc] at hsub
        simp only [Tree.decodeWalk, hc] at hend ⊢
        exact emit (hsub List.mem_cons_self) hend
      | node w' l' r' =>
        rw [hc] at hlt hsub
        simp only [Tree.decodeWalk, hc] at hend ⊢
        simpa using ih (.below hlt hsub) hend

/-- The walk from the root ends at the root on the concatenations of codewords and on no other digits, and it emits the
symbols they belong to (R235, R238). -/
theorem decodeWalk_eq_iff {s : State} {T : Tree} (hct : ∀ x, s.codewordOf x = T.codes.lookup x)
    (hn : T.symbols.Nodup) (xs : List Sym) (q : List Digit) :
    T.decodeWalk T q = (xs, true) ↔ s.concatCodes xs = some q := by
  refine ⟨fun h => ?_, decodeWalk_concatCodes hct xs q⟩
  have hq := concatCodes_decodeWalk hct hn (bs := q) .root (congrArg Prod.snd h)
  rwa [h] at hq

/-- Settles O44: DEC_RUN succeeds where the walk ends at the root with symbols that fit DB (`decRunWalksTree`), and it ends
there on concatenations of codewords only (`decodeWalk_eq_iff`). -/
theorem decodingSucceedsOnCodewordsOnly : Obligations.DecodingSucceedsOnCodewordsOnly := by
  intro s n hv hw htable hlen
  obtain ⟨t, T, ht, hT, -, hres⟩ := decRunWalksTree s n hv hw
  obtain ⟨T', hT', hct⟩ := htable.1 hv
  obtain rfl : T' = T := Option.some.inj (hT'.symm.trans hT)
  obtain ⟨-, -, -, hn⟩ := hw.root_of_tree hT
  have hok : t.reply.result = .ok ↔
      (T'.decodeWalk T' s.stream).1.length ≤ 4096 ∧ (T'.decodeWalk T' s.stream).2 = true := by
    split_ifs at hres with hcap hend
    · obtain ⟨hreply, -⟩ := hres
      simp only [hreply, replyOf, reduceCtorEq, false_iff]
      omega
    · obtain ⟨hreply, -⟩ := hres
      simp only [hreply, replyOf, true_iff]
      exact ⟨by omega, hend⟩
    · obtain ⟨hreply, -⟩ := hres
      simp [hreply, replyOf, hend]
  refine ⟨t, ht, hok.trans ⟨fun ⟨hfit, hend⟩ => ⟨_, hfit, ?_⟩, fun ⟨xs, hfit, hxs⟩ => ?_⟩⟩
  · exact (decodeWalk_eq_iff hct hn _ _).mp (Prod.ext rfl hend)
  · rw [(decodeWalk_eq_iff hct hn xs s.stream).mpr hxs]
    exact ⟨hfit, rfl⟩

/-! ### The round trip (R235) -/

/-- SB and SB_LEN decide the input sequence and nothing else does (R29). -/
theorem symbols_congr {s t : State} (h : t.sb = s.sb) (hl : t.sbLen = s.sbLen) : t.symbols = s.symbols := by
  unfold State.symbols State.sbAt
  rw [h, hl]

/-- Settles O46: ENC_RUN leaves the concatenation of the codewords (O38) and the tree as it was, and on that stream the
walk of DEC_RUN (O42) emits the symbols it came from. -/
theorem roundTrip : Obligations.RoundTrip := by
  intro s n q hv hw htable hsb hq hfit
  obtain ⟨t, ht, hstream, hbbLen, -, hreply, hframe⟩ := encRunConcatenatesCodewords s q hsb hq hfit
  obtain ⟨hnode, hroot, hvalid⟩ : t.node = s.node ∧ t.root = s.root ∧ t.treeValid = s.treeValid := by
    rw [hframe]; exact ⟨rfl, rfl, rfl⟩
  obtain ⟨u, T, hu, hT, -, hres⟩ := decRunWalksTree t n (hvalid.trans hv) (hw.congr hnode hroot)
  obtain ⟨T', hT', hct⟩ := htable.1 hv
  obtain rfl : T' = T := Option.some.inj (hT'.symm.trans ((hw.tree_congr hnode hroot).symm.trans hT))
  rw [hstream, decodeWalk_concatCodes hct _ _ hq, if_neg (by simp; omega), if_pos rfl] at hres
  obtain ⟨hok, hdecoded, hdbLen, -⟩ := hres
  obtain ⟨hsb₁, hsbLen₁⟩ := exec_sb ht
  obtain ⟨hsb₂, hsbLen₂⟩ := exec_sb hu
  have hsyms : u.symbols = s.symbols := symbols_congr (hsb₂.trans hsb₁) (hsbLen₂.trans hsbLen₁)
  exact ⟨t, u, ht, hreply, hu, hok, hdecoded, hsyms, BitVec.eq_of_toNat_eq (hdbLen.trans (symbols_length s))⟩

/-! ### The errors of the commands, and EmptyTreeError (R237, R297) -/

theorem encRun_result (cap : Config.Capacities) (s : State) :
    (encRun cap s).2 = .ok ∨ (encRun cap s).2 = .fail .unknownSymbol ∨ (encRun cap s).2 = .fail .capacity := by
  by_cases hs : cap.sb < s.sbLen.toNat
  · exact .inr (.inr (congrArg Prod.snd (encRun_of_long hs)))
  · rw [encRun_of_loop (Nat.le_of_not_lt hs) rfl]
    obtain ⟨q, -, -, h⟩ | ⟨_, _, _, q, -, -, -, -, h⟩ | ⟨_, _, _, q, _, -, -, -, -, -, h⟩ :=
      encodeLoop_cases cap s (List.range s.sbLen.toNat) [] (Nat.zero_le _)
    · exact .inl (congrArg Prod.snd h)
    · exact .inr (.inl (congrArg Prod.snd h))
    · exact .inr (.inr (congrArg Prod.snd h))

theorem decodeLoop_result (cap : Config.Capacities) (s : State) (is : List Nat) (cur : Idx) (out : List Sym) :
    (decodeLoop cap s is cur out).2.2 = .ok ∨ (decodeLoop cap s is cur out).2.2 = .fail .malformedStream ∨
      (decodeLoop cap s is cur out).2.2 = .fail .capacity := by
  fun_induction decodeLoop cap s is cur out with
  | case1 cur out =>
    by_cases h : cur = s.root
    · exact .inl (if_pos h)
    · exact .inr (.inl (if_neg h))
  | case2 => exact .inr (.inl rfl)
  | case3 => exact .inr (.inr rfl)
  | case4 | case5 => assumption

theorem decRun_result (cap : Config.Capacities) {s : State} (hv : s.treeValid = true) :
    (decRun cap s).2 = .ok ∨ (decRun cap s).2 = .fail .malformedStream ∨ (decRun cap s).2 = .fail .capacity := by
  by_cases hl : cap.bb < s.bbLen.toNat
  · exact .inr (.inr (congrArg Prod.snd (decRun_of_long hv hl)))
  · rw [decRun_of_loop hv (Nat.le_of_not_lt hl) rfl]
    exact decodeLoop_result cap s _ s.root []

theorem runBuild_result {s t : State} {r : Result} (h : runBuild s = .ok (t, r)) :
    r = .ok ∨ r = .fail .emptyAlphabet := by
  obtain ⟨-, hb⟩ | ⟨-, u, T, hb, -⟩ := runBuild_spec s
  · rw [hb] at h; cases h; exact .inr rfl
  · rw [hb] at h; cases h; exact .inl rfl

theorem runCount_result (cap : Config.Capacities) (s : State) :
    (runCount cap s).2 = .ok ∨ (runCount cap s).2 = .fail .capacity := by
  obtain ⟨-, h⟩ | ⟨-, t, h, -⟩ := runCount_spec cap s
  · exact .inr (congrArg Prod.snd h)
  · exact .inl (congrArg Prod.snd h)

/-- The code 2 is EmptyTreeError's alone (R281). -/
theorem Result.code_eq_emptyTree_iff (r : Result) : r.code = 2#3 ↔ r = .fail .emptyTree := by
  rcases r with _ | k
  · simp [Result.code]
  · cases k <;> simp [Result.code, ErrKind.code]

/-- Settles O41: the check of TREE_VALID is DEC_RUN's first (`decRun_of_no_tree`), and it is the only one of the commands'
checks that answers EmptyTreeError: none of their other outcomes is that kind. -/
theorem emptyTreeErrorComesFirst : Obligations.EmptyTreeErrorComesFirst := by
  refine ⟨fun s hv => ?_, fun s t i hi ht herr => ?_⟩
  · refine ⟨(decRun Config.depths s).1.present (replyOf (decRun Config.depths s).2), rfl, ?_⟩
    rw [decRun_of_no_tree hv]
    exact ⟨rfl, rfl, rfl⟩
  obtain rfl | rfl | rfl | rfl := hi
  · obtain rfl := Host.Outcome.next.inj ht
    replace herr := (Result.code_eq_emptyTree_iff _).mp herr
    obtain h | h := runCount_result Config.depths s.accept <;> rw [h] at herr <;> cases herr
  · obtain ⟨u, r, hu, rfl⟩ := exec_cmdBuild_next ht
    replace herr := (Result.code_eq_emptyTree_iff _).mp herr
    obtain rfl | rfl := runBuild_result hu <;> cases herr
  · obtain rfl := Host.Outcome.next.inj ht
    replace herr := (Result.code_eq_emptyTree_iff _).mp herr
    obtain h | h | h := encRun_result Config.depths s.accept <;> rw [h] at herr <;> cases herr
  · refine ⟨rfl, Bool.eq_false_iff.mpr fun hv => ?_⟩
    obtain rfl := Host.Outcome.next.inj ht
    replace herr := (Result.code_eq_emptyTree_iff _).mp herr
    obtain h | h | h := decRun_result Config.depths (s := s.accept) hv <;> rw [h] at herr <;> cases herr

/-! ### A root that is a leaf (R233) -/

section LeafRoot

variable {cap : Config.Capacities} {s : State} (hleaf : (s.nodeAt s.root).leaf = true)

include hleaf

theorem decodeLoop_leafRoot_zero {i : Nat} (is : List Nat) {out : List Sym} (hb : s.bbAt i = false)
    (hroom : out.length < cap.db) :
    decodeLoop cap s (i :: is) s.root out = decodeLoop cap s is s.root (out ++ [(s.nodeAt s.root).sym]) := by
  simp [decodeLoop, hleaf, hb, hroom.ne]

theorem decodeLoop_leafRoot_one {i : Nat} (is : List Nat) (out : List Sym) (hb : s.bbAt i = true) :
    decodeLoop cap s (i :: is) s.root out = (s.root, out, .fail .malformedStream) := by
  simp [decodeLoop, hleaf, hb]

/-- Each digit 0 emits the root's symbol, as long as DB has room (R233). -/
theorem decodeLoop_leafRoot_zeros {k : Nat} {is : List Nat} (js : List Nat) {out : List Sym}
    (hzeros : is.map s.bbAt = List.replicate k false) (hroom : out.length + k ≤ cap.db) :
    decodeLoop cap s (is ++ js) s.root out =
      decodeLoop cap s js s.root (out ++ List.replicate k (s.nodeAt s.root).sym) := by
  induction k generalizing is out with
  | zero =>
    obtain rfl : is = [] := List.map_eq_nil_iff.mp hzeros
    simp
  | succ k ih =>
    rw [List.replicate_succ] at hzeros
    obtain ⟨i, is, rfl, hi, his⟩ := List.map_eq_cons_iff.mp hzeros
    rw [List.cons_append, decodeLoop_leafRoot_zero hleaf _ hi (by omega), ih his (by simp; omega),
      List.append_assoc, List.singleton_append, ← List.replicate_succ]

end LeafRoot

/-- Settles O43: the loop emits one symbol for each of the digits 0 (`decodeLoop_leafRoot_zeros`, an induction over their
number) and stays at the root; there the stream ends, or the digit 1 ends the walk. -/
theorem leafRootDecoding : Obligations.LeafRootDecoding := by
  intro s k hv hleaf hlen hk
  have hroom : ([] : List Sym).length + k ≤ Config.depths.db := (Nat.zero_add k).trans_le hk
  refine ⟨fun hstream => ?_, fun rest hstream => ?_⟩
  · have hloop : decodeLoop Config.depths s (List.range s.bbLen.toNat) s.root [] =
        (s.root, List.replicate k (s.nodeAt s.root).sym, .ok) := by
      have h := decodeLoop_leafRoot_zeros hleaf [] hstream hroom
      simpa [decodeLoop] using h
    have hdbLen : (BitVec.ofNat 32 (List.replicate k (s.nodeAt s.root).sym).length).toNat =
        (List.replicate k (s.nodeAt s.root).sym).length := Nat.mod_eq_of_lt (by rw [List.length_replicate]; omega)
    refine ⟨(decRun Config.depths s).1.present (replyOf (decRun Config.depths s).2), rfl, ?_⟩
    rw [decRun_of_loop hv hlen hloop]
    exact ⟨rfl, decoded_holding (s := s) rfl hdbLen, hdbLen.trans List.length_replicate⟩
  · obtain ⟨is, js, hrange, hzeros, hjs⟩ := List.map_eq_append_iff.mp hstream
    obtain ⟨j, js, rfl, hj, -⟩ := List.map_eq_cons_iff.mp hjs
    have hloop : decodeLoop Config.depths s (List.range s.bbLen.toNat) s.root [] =
        (s.root, List.replicate k (s.nodeAt s.root).sym, .fail .malformedStream) := by
      rw [hrange, decodeLoop_leafRoot_zeros hleaf _ hzeros hroom, decodeLoop_leafRoot_one hleaf _ _ hj, List.nil_append]
    obtain ⟨t, ht, hreply, hdbLen, -⟩ := exec_decRun_of_fail (congrArg Prod.snd (decRun_of_loop hv hlen hloop))
    exact ⟨t, ht, hreply, hdbLen⟩

end Sys2Proof.Machine
end

section
/-! PROOFS. The codec sequencer (R250 to R256): what becomes of an illegal command word, how the commands end and with
which errors, and that no good run stops. -/

namespace Sys2Proof.Machine

open Sys2Proof

/-! ### An illegal command word (R256) -/

/-- Settles O5: format H rejects every such word (`decodeHost_reject_iff`), and the rejected word completes at once. -/
theorem illegalCommandChangesOnlyErr : Obligations.IllegalCommandChangesOnlyErr := by
  intro s v rest hidle hp hv
  have hbad : ¬ (1 ≤ (v.setWidth 8).toNat ∧ (v.setWidth 8).toNat ≤ 4) := by rwa [BitVec.toNat_setWidth]
  rw [step_illegalCommand hp hidle ((decodeHost_reject_iff _).mpr hbad), State.complete, ← hidle]
  rfl

/-! ### Every command completes (R255, R297) -/

/-- BUILD's micro-operations end, from every state (R176, R255). -/
theorem exists_runBuild (s : State) : ∃ t r, runBuild s = .ok (t, r) := by
  obtain ⟨-, h⟩ | ⟨-, t, -, h, -⟩ := runBuild_spec s
  · exact ⟨s, _, h⟩
  · exact ⟨t, _, h⟩

theorem exists_tbBuild (s : State) : ∃ t r, tbBuild s = .ok (t, r) := by
  obtain ⟨-, h⟩ | ⟨-, t, h, -⟩ := tbBuild_spec s
  · exact ⟨s, _, h⟩
  · exact ⟨t, _, h⟩

/-- The traversal of a tree as R40 has it ends (R197, R255). -/
theorem exists_cgGen {s : State} (hs : TreeOk s) : ∃ t r, cgGen s = .ok (t, r) := by
  cases hv : s.treeValid with
  | false => exact ⟨s, _, cgGen_of_no_tree hv⟩
  | true =>
    obtain ⟨n, hwf⟩ := hs hv
    obtain ⟨t, -, h, -⟩ := cgGen_spec hv hwf
    exact ⟨t, _, h⟩

/-- Settles O48: no command faults, and its ERR is the code of one of the outcomes of its micro-operations. -/
theorem everyCommandCompletes : Obligations.EveryCommandCompletes := by
  intro s
  refine ⟨⟨_, rfl, rfl, ?_⟩, ?_, ⟨_, rfl, rfl, ?_⟩, ⟨_, rfl, rfl, ?_⟩⟩
  · exact (runCount_result Config.depths s.accept).imp (congrArg Result.code) (congrArg Result.code)
  · obtain ⟨t, r, h⟩ := exists_runBuild s.accept
    exact ⟨_, exec_cmdBuild_of_ok h, rfl, (runBuild_result h).imp (congrArg Result.code) (congrArg Result.code)⟩
  · obtain h | h | h := encRun_result Config.depths s.accept
    · exact .inl (congrArg Result.code h)
    · exact .inr (.inl (congrArg Result.code h))
    · exact .inr (.inr (congrArg Result.code h))
  · cases hv : s.treeValid with
    | false => exact .inr (.inl (congrArg Result.code (congrArg Prod.snd (decRun_of_no_tree (s := s.accept) hv))))
    | true =>
      obtain h | h | h := decRun_result Config.depths (s := s.accept) hv
      · exact .inl (congrArg Result.code h)
      · exact .inr (.inr (.inl (congrArg Result.code h)))
      · exact .inr (.inr (.inr (congrArg Result.code h)))

/-! ### Good runs (R255) -/

/-- An instruction answers a next state wherever the tree is as R40 has it. -/
theorem exists_exec (i : Instr) {s : State} (hs : TreeOk s) : ∃ t, exec i s = .next t := by
  cases i with
  | cmdBuild =>
    obtain ⟨t, r, h⟩ := exists_runBuild s.accept
    exact ⟨_, exec_cmdBuild_of_ok h⟩
  | tbBuild =>
    obtain ⟨t, r, h⟩ := exists_tbBuild s
    exact ⟨_, exec_tbBuild_of_ok h⟩
  | cgGen =>
    obtain ⟨t, r, h⟩ := exists_cgGen hs
    exact ⟨_, exec_cgGen_of_ok h⟩
  | pqPop => exact ⟨_, exec_pqPop s⟩
  | cmdCount | cmdEncode | cmdDecode | faClear | faAdd | pqClear | pqPush | pqIsEmpty | encRun | decRun =>
    exact ⟨_, rfl⟩

/-- A step of an idle core with such a tree answers a next state, whatever input it takes. -/
theorem exists_step {s : State} (hidle : s.busy = false) (hs : TreeOk s) : ∃ t, step s = .next t := by
  cases hp : s.pending with
  | nil => exact ⟨s, step_of_no_input hp⟩
  | cons x rest =>
    have hu : TreeOk { s with pending := rest } := hs.congr rfl rfl rfl
    cases x with
    | reset => exact ⟨_, step_reset hp⟩
    | hostRead a => exact ⟨_, step_hostRead hp hidle⟩
    | hostWrite a v =>
      by_cases ha : a = cmdAddr
      · subst ha
        cases hd : decodeHost (v.setWidth 8) with
        | instr i => rw [step_command hp hidle hd]; exact exists_exec i hu
        | reject r => exact ⟨_, step_illegalCommand hp hidle hd⟩
      · exact ⟨_, step_hostWrite hp hidle ha⟩
    | micro u p =>
      cases hd : decodeMicro u p with
      | instr i => rw [step_micro hp hidle hd]; exact exists_exec i hu
      | reject r => exact ⟨_, step_reservedMicro hp hidle hd⟩

theorem run_succ_of_step {s t : State} (k : Nat) (h : step s = .next t) : core.run (k + 1) s = core.run k t := by
  have hcore : core.step s = .next t := h
  simp only [Host.Core.run, hcore]

/-- Settles O60: by induction over the run, each step answers a state (`exists_step`), which has the invariant again
(O57). -/
theorem goodRunsNeverStop : Obligations.GoodRunsNeverStop := by
  intro s k hs
  induction k generalizing s with
  | zero => exact ⟨s, rfl⟩
  | succ k ih =>
    obtain ⟨t, ht⟩ := exists_step hs.idle hs.tree
    obtain ⟨u, hu⟩ := ih t (stepKeepsInvariant s t hs ht)
    exact ⟨u, (run_succ_of_step k ht).trans hu⟩

end Sys2Proof.Machine
end

section
/-! PROOFS. COUNT (R251), and the commands as their micro-operations run in order (R250 to R254). -/

namespace Sys2Proof.Machine

open Sys2Proof

/-! ### COUNT (R126, R251) -/

/-- COUNT on an input that fits its buffer (R251). -/
theorem exec_cmdCount_of_fits {s : State} (h : s.sbLen.toNat ≤ 4096) :
    ∃ t, exec .cmdCount s = .next t ∧ (∀ x, (t.count x).toNat = s.symbols.count x) ∧ t.err = 0#3 := by
  obtain ⟨hlong, -⟩ | ⟨-, t, ht, hcount, -⟩ := runCount_spec Config.depths s.accept
  · exact absurd hlong h.not_gt
  · refine ⟨t.complete .ok, ?_, hcount, rfl⟩
    simp only [exec, execCmdCount, runCommand, ht]

/-- A symbol is recorded exactly where its count is not 0, so the occurrence counts record what occurs (R21, R251). -/
theorem mem_recorded_of_counts {t : State} {xs : List Sym} (h : ∀ x, (t.count x).toNat = xs.count x) (x : Sym) :
    x ∈ t.recorded ↔ x ∈ xs := by
  have hzero : t.count x = 0#_ ↔ (t.count x).toNat = 0 := BitVec.toNat_inj.symm
  rw [mem_recorded, ne_eq, hzero, h, List.count_eq_zero, not_not]

/-- The occurrence counts add up to the length: the recorded symbols are those that occur, each once (R251). -/
theorem sum_counts {t : State} {xs : List Sym} (h : ∀ x, (t.count x).toNat = xs.count x) :
    (allSymbols.map (fun x => (t.count x).toNat)).sum = xs.length := by
  have hperm : t.recorded.Perm xs.dedup := (List.perm_ext_iff_of_nodup (recorded_nodup t) xs.nodup_dedup).mpr
    fun x => (mem_recorded_of_counts h x).trans List.mem_dedup.symm
  calc (allSymbols.map (fun x => (t.count x).toNat)).sum
      = (t.recorded.map (fun x => (t.count x).toNat)).sum := (countSum_recorded t).symm
    _ = (t.recorded.map (xs.count ·)).sum := by simp only [h]
    _ = (xs.dedup.map (xs.count ·)).sum := (hperm.map _).sum_eq
    _ = xs.length := List.sum_map_count_dedup_eq_length xs

/-- Settles O19: the counts of `runCount_spec`, their sum by `sum_counts`; an occurrence count does not depend on the
order (R126). -/
theorem countComputesFrequencies : Obligations.CountComputesFrequencies := by
  refine ⟨fun s hs => ?_, fun s s' t t' hs hperm ht ht' x => ?_, fun s hs => ?_⟩
  · obtain ⟨t, ht, hcount, herr⟩ := exec_cmdCount_of_fits hs
    have hframe : t = { s with ft := t.ft, err := t.err, busy := false } := exec_frame ht
    have hidle : t.busy = false := by rw [hframe]
    refine ⟨t, ht, hcount, (sum_counts hcount).trans (symbols_length s), herr, hidle, ?_⟩
    rwa [hidle]
  · have hs' : s'.sbLen.toNat ≤ 4096 := by rwa [← symbols_length, ← hperm.length_eq, symbols_length]
    obtain ⟨u, hu, hcount, -⟩ := exec_cmdCount_of_fits hs
    obtain ⟨u', hu', hcount', -⟩ := exec_cmdCount_of_fits hs'
    obtain rfl := Host.Outcome.next.inj (ht.symm.trans hu)
    obtain rfl := Host.Outcome.next.inj (ht'.symm.trans hu')
    refine BitVec.eq_of_toNat_eq ?_
    rw [hcount, hcount', hperm.count_eq]
  · obtain ⟨-, h⟩ | ⟨hshort, -⟩ := runCount_spec Config.depths s.accept
    · simp only [exec, execCmdCount, runCommand, h]
      rfl
    · exact absurd hs (Nat.not_lt.mpr hshort)

/-! ### BUSY and the result ports -/

/-- The state with other values in BUSY and on the result ports. The one is the sequencer's (R35), the others belong to
the sub-block interface (R97, log entry 13): a micro-operation, run alone or inside a command, uses neither. -/
def State.withControl (s : State) (b : Bool) (p : Reply) : State := { s with busy := b, reply := p }

/-- A micro-operation, or a sequence of them, that neither reads nor writes BUSY and the result ports. -/
def IgnoresControl (run : State → State × Result) : Prop :=
  ∀ s b p, run (s.withControl b p) = ((run s).1.withControl b p, (run s).2)

theorem faAdd_withControl (x : Sym) (s : State) (b : Bool) (p : Reply) :
    faAdd x (s.withControl b p) = (faAdd x s).withControl b p := by
  by_cases h : s.count x = BitVec.allOnes _
  · rw [faAdd_eq_of_largest h]
    exact faAdd_eq_of_largest h
  · rw [faAdd_eq h]
    exact faAdd_eq h

theorem foldl_faAdd_withControl (xs : List Sym) (s : State) (b : Bool) (p : Reply) :
    xs.foldl (fun t x => faAdd x t) (s.withControl b p) = (xs.foldl (fun t x => faAdd x t) s).withControl b p := by
  induction xs generalizing s with
  | nil => rfl
  | cons x xs ih => rw [List.foldl_cons, faAdd_withControl, ih, List.foldl_cons]

theorem encodeLoop_withControl (cap : Config.Capacities) (s : State) (b : Bool) (p : Reply) (is : List Nat)
    (out : List Digit) : encodeLoop cap (s.withControl b p) is out = encodeLoop cap s is out := by
  induction is generalizing out with
  | nil => rfl
  | cons i is ih =>
    simp only [encodeLoop, ih]
    rfl

theorem encRun_ignoresControl (cap : Config.Capacities) : IgnoresControl (encRun cap) := by
  intro s b p
  by_cases hl : cap.sb < s.sbLen.toNat
  · rw [encRun_of_long hl]
    exact encRun_of_long hl
  · rcases hloop : encodeLoop cap s (List.range s.sbLen.toNat) [] with ⟨o, r⟩
    rw [encRun_of_loop (Nat.le_of_not_lt hl) hloop, encRun_of_loop (s := s.withControl b p) (Nat.le_of_not_lt hl)
      ((encodeLoop_withControl cap s b p _ _).trans hloop)]
    cases r <;> rfl

theorem decodeLoop_withControl (cap : Config.Capacities) (s : State) (b : Bool) (p : Reply) (is : List Nat) (cur : Idx)
    (out : List Sym) : decodeLoop cap (s.withControl b p) is cur out = decodeLoop cap s is cur out := by
  induction is generalizing cur out with
  | nil => rfl
  | cons i is ih =>
    simp only [decodeLoop, ih]
    rfl

theorem decRun_ignoresControl (cap : Config.Capacities) : IgnoresControl (decRun cap) := by
  intro s b p
  cases hv : s.treeValid with
  | false =>
    rw [decRun_of_no_tree hv]
    exact decRun_of_no_tree hv
  | true =>
    by_cases hl : cap.bb < s.bbLen.toNat
    · rw [decRun_of_long hv hl]
      exact decRun_of_long hv hl
    · rcases hloop : decodeLoop cap s (List.range s.bbLen.toNat) s.root [] with ⟨e, o, r⟩
      rw [decRun_of_loop hv (Nat.le_of_not_lt hl) hloop, decRun_of_loop (s := s.withControl b p) hv
        (Nat.le_of_not_lt hl) ((decodeLoop_withControl cap s b p _ _ _).trans hloop)]
      cases r <;> rfl

/-- TB_BUILD is a function of the frequencies (`tbBuild_eq_of_count`), which BUSY and the result ports are no part of. -/
theorem tbBuild_withControl {s t : State} {r : Result} (b : Bool) (p : Reply) (h : tbBuild s = .ok (t, r)) :
    tbBuild (s.withControl b p) = .ok (t.withControl b p, r) := by
  obtain ⟨he, hfail⟩ | ⟨-, u, hu, hv, -, -, -, -, -, -, hframe⟩ := tbBuild_spec s
  · rw [hfail] at h
    cases h
    obtain ⟨-, hfail'⟩ | ⟨hne, -⟩ := tbBuild_spec (s.withControl b p)
    · exact hfail'
    · exact absurd he hne
  · rw [hu] at h
    cases h
    rw [hv] at hframe
    rw [tbBuild_eq_of_count (s := s) (s' := s.withControl b p) (fun _ => rfl) hu, hframe]
    rfl

/-- An internal node at depth CODE_MAX stops the traversal (log entry 10). -/
theorem walkLoop_of_corrupt {n : Nat} {s : State} {f : StackEntry} {rest : List StackEntry} (hd : s.dstack = f :: rest)
    (hl : (s.nodeAt f.node).leaf = false) (hdeep : f.depth = BitVec.ofNat _ Config.codeMax) :
    walkLoop (n + 1) s = .error .corruptTree := by
  simp only [walkLoop, hd, hl, Bool.false_eq_true, if_false, hdeep, if_true]

/-- The traversal runs over NODE, CT and its own registers (R198). -/
theorem walkLoop_withControl (n : Nat) (s : State) (b : Bool) (p : Reply) :
    walkLoop n (s.withControl b p) = (walkLoop n s).map (·.withControl b p) := by
  induction n generalizing s with
  | zero => exact (apply_ite (Except.map (·.withControl b p)) (s.dstack = []) (.ok s) (.error Fault.unboundedLoop)).symm
  | succ n ih =>
    cases hd : s.dstack with
    | nil =>
      rw [walkLoop_of_empty hd]
      exact walkLoop_of_empty hd
    | cons f rest =>
      cases hl : (s.nodeAt f.node).leaf with
      | true =>
        rw [walkLoop_of_leaf hd hl, ← ih]
        exact walkLoop_of_leaf (s := s.withControl b p) hd hl
      | false =>
        by_cases hdeep : f.depth = BitVec.ofNat _ Config.codeMax
        · rw [walkLoop_of_corrupt hd hl hdeep]
          exact walkLoop_of_corrupt (s := s.withControl b p) hd hl hdeep
        · rw [walkLoop_of_internal hd hl hdeep, ← ih]
          exact walkLoop_of_internal (s := s.withControl b p) hd hl hdeep

theorem cgGen_of_leaf {s : State} (hv : s.treeValid = true) (hl : (s.nodeAt s.root).leaf = true) :
    cgGen s = .ok ({ assignCode (s.nodeAt s.root).sym [false] (startWalk s) with dstack := [] }, .ok) := by
  rw [cgGen, if_neg (by simp [hv]), if_pos hl]

theorem cgGen_of_internal {s : State} (hv : s.treeValid = true) (hl : (s.nodeAt s.root).leaf = false) :
    cgGen s = (walkLoop Config.nodeDepth (startWalk s)).map (·, .ok) := by
  rw [cgGen, if_neg (by simp [hv]), if_neg (by simp [hl])]
  cases walkLoop Config.nodeDepth (startWalk s) <;> rfl

theorem cgGen_withControl (s : State) (b : Bool) (p : Reply) :
    cgGen (s.withControl b p) = (cgGen s).map (fun a => (a.1.withControl b p, a.2)) := by
  cases hv : s.treeValid with
  | false =>
    rw [cgGen_of_no_tree hv]
    exact cgGen_of_no_tree hv
  | true =>
    cases hl : (s.nodeAt s.root).leaf with
    | true =>
      rw [cgGen_of_leaf hv hl]
      exact cgGen_of_leaf hv hl
    | false =>
      have hwalk : walkLoop Config.nodeDepth (startWalk (s.withControl b p)) =
          (walkLoop Config.nodeDepth (startWalk s)).map (·.withControl b p) :=
        walkLoop_withControl Config.nodeDepth (startWalk s) b p
      rw [cgGen_of_internal hv hl, cgGen_of_internal (s := s.withControl b p) hv hl, hwalk]
      cases walkLoop Config.nodeDepth (startWalk s) <;> rfl

/-! ### Commands as micro-operations (R250 to R254) -/

/-- A command made of a micro-operation that always ends is that micro-operation, with the outcome in ERR instead of on
the result ports (R250). -/
theorem IgnoresControl.runCommand {run : State → State × Result} (h : IgnoresControl run) (s : State) :
    runCommand run s = .next { (run s).1.present (replyOf (run s).2) with
      reply := s.reply, err := (run s).2.code, busy := false } := by
  have haccept : run s.accept = ((run s).1.withControl true s.reply, (run s).2) := h s true s.reply
  rw [Machine.runCommand, haccept]
  rfl

/-- FA_ADD of each symbol in turn: every one replaces the reply of the one before by the same (R122). -/
theorem execAll_faAdd (xs : List Sym) (s : State) (b : Bool) :
    execAll (xs.map .faAdd) (s.withControl b (replyOf .ok)) =
      .next ((xs.foldl (fun t x => faAdd x t) s).withControl b (replyOf .ok)) := by
  induction xs generalizing s with
  | nil => rfl
  | cons x xs ih =>
    have hx : exec (.faAdd x) (s.withControl b (replyOf .ok)) = .next ((faAdd x s).withControl b (replyOf .ok)) :=
      congrArg (fun t : State => Host.Outcome.next (t.present (replyOf .ok))) (faAdd_withControl x s b (replyOf .ok))
    rw [List.map_cons, List.foldl_cons, execAll, hx]
    exact ih _

theorem exec_cmdBuild_of_tbBuild_fail {s t : State} {k : ErrKind} (h : tbBuild s = .ok (t, .fail k)) :
    exec .cmdBuild s = .next { t with reply := s.reply, err := (Result.fail k).code, busy := false } := by
  have haccept : tbBuild s.accept = .ok (t.withControl true s.reply, .fail k) := tbBuild_withControl true s.reply h
  have hrun : runBuild s.accept = .ok (t.withControl true s.reply, .fail k) := by rw [runBuild, haccept]
  exact exec_cmdBuild_of_ok hrun

theorem exec_cmdBuild_of_cgGen {s t u : State} {r : Result} {p : Reply} (ht : tbBuild s = .ok (t, .ok))
    (hu : cgGen (t.present p) = .ok (u, r)) :
    exec .cmdBuild s = .next { u with reply := s.reply, err := r.code, busy := false } := by
  have htree : tbBuild s.accept = .ok (t.withControl true s.reply, .ok) := tbBuild_withControl true s.reply ht
  have htable : cgGen (t.withControl true s.reply) = .ok (u.withControl true s.reply, r) :=
    (cgGen_withControl (t.present p) true s.reply).trans (congrArg (Except.map _) hu)
  have hrun : runBuild s.accept = .ok (u.withControl true s.reply, r) := by rw [runBuild, htree]; exact htable
  exact exec_cmdBuild_of_ok hrun

/-- COUNT is FA_CLEAR and the additions (R251). -/
theorem exec_cmdCount_eq_foldl {s : State} (h : s.sbLen.toNat ≤ 4096) :
    exec .cmdCount s = .next { s.symbols.foldl (fun t x => faAdd x t) (faClear s) with
      reply := s.reply, err := 0#3, busy := false } := by
  have hrun : runCount Config.depths s.accept =
      ((s.symbols.foldl (fun t x => faAdd x t) (faClear s)).withControl true s.reply, .ok) := by
    have hlen : ¬ Config.depths.sb < s.accept.sbLen.toNat := Nat.not_lt.mpr h
    rw [runCount, if_neg hlen, foldl_faAdd_sbAt _ s (faClear s.accept) rfl, ← foldl_faAdd_withControl]
    rfl
  simp only [exec, execCmdCount, Machine.runCommand, hrun]
  rfl

/-- Settles O20: a command accepts, which sets BUSY, and a micro-operation presents a reply; neither touches what the
micro-operations do (`IgnoresControl` and the like for each of them), so both ways end in one state but for what the
completion writes. -/
theorem commandsRunTheirMicroOperations : Obligations.CommandsRunTheirMicroOperations := by
  intro s
  refine ⟨fun h => ⟨_, execAll_faAdd s.symbols (faClear s) s.busy, exec_cmdCount_eq_foldl h⟩, fun t ht hfail => ?_,
    fun t u ht hok hu => ?_, ⟨_, rfl, (encRun_ignoresControl Config.depths).runCommand s⟩,
    ⟨_, rfl, (decRun_ignoresControl Config.depths).runCommand s⟩⟩
  · obtain ⟨v, r, hv, rfl⟩ := exec_tbBuild_next ht
    cases r with
    | ok => exact absurd rfl hfail
    | fail k =>
      have hbuild := exec_cmdBuild_of_tbBuild_fail hv
      exact hbuild
  · obtain ⟨v, r, hv, rfl⟩ := exec_tbBuild_next ht
    obtain rfl : r = .ok := hok
    obtain ⟨w, r, hw, rfl⟩ := exec_cgGen_next hu
    have hbuild := exec_cmdBuild_of_cgGen hv hw
    exact hbuild

end Sys2Proof.Machine
end

section
/-! PROOFS. The end-to-end law (R259): COUNT, BUILD, ENCODE and DECODE one after another. -/

namespace Sys2Proof.Machine

open Sys2Proof

/-! ### Each command where it succeeds -/

/-- ENCODE on a sequence that encodes and fits (R213, R253). -/
theorem exec_cmdEncode_of_fits {s : State} {q : List Digit} (hs : s.sbLen.toNat ≤ 4096)
    (hq : s.concatCodes s.symbols = some q) (hfit : q.length ≤ 32768) :
    ∃ t, exec .cmdEncode s = .next t ∧ t.err = 0#3 ∧ t.stream = q ∧ t.bbLen.toNat = q.length := by
  have hlen : (BitVec.ofNat 32 q.length).toNat = q.length := Nat.mod_eq_of_lt (by omega)
  have hq' : s.accept.concatCodes s.accept.symbols = some q :=
    (concatCodes_congr (s := s.accept) (t := s) rfl s.symbols).trans hq
  refine ⟨(encRun Config.depths s.accept).1.complete (encRun Config.depths s.accept).2, rfl, ?_⟩
  rw [encRun_ok (cap := Config.depths) (s := s.accept) hs hq' hfit]
  exact ⟨rfl, stream_holding (s := s) rfl hlen, hlen⟩

/-- DECODE on a valid tree and the stream of a sequence that fits DB (R235, R254). -/
theorem exec_cmdDecode_of_stream {s : State} {n : Nat} {T : Tree} {xs : List Sym} (hv : s.treeValid = true)
    (hw : TreeWf s n) (hT : s.tree = some T) (hct : ∀ x, s.codewordOf x = T.codes.lookup x)
    (hbb : s.bbLen.toNat ≤ 32768) (hxs : s.concatCodes xs = some s.stream) (hdb : xs.length ≤ 4096) :
    ∃ t, exec .cmdDecode s = .next t ∧ t.err = 0#3 ∧ t.decoded = xs ∧ t.dbLen.toNat = xs.length := by
  have hlen : (BitVec.ofNat 32 xs.length).toNat = xs.length := Nat.mod_eq_of_lt (by omega)
  obtain ⟨T', hT', -, -, hok⟩ := decRun_spec (cap := Config.depths) (s := s.accept) hv (hw.congr (s := s) rfl rfl) hbb
  obtain rfl : T' = T := Option.some.inj (hT'.symm.trans ((hw.tree_congr (s := s) (t := s.accept) rfl rfl).trans hT))
  have hwalk : T'.decodeWalk T' s.accept.stream = (xs, true) := decodeWalk_concatCodes (s := s) hct xs _ hxs
  rw [hwalk] at hok
  refine ⟨(decRun Config.depths s.accept).1.complete (decRun Config.depths s.accept).2, rfl, ?_⟩
  rw [hok hdb rfl]
  exact ⟨rfl, decoded_holding (s := s) rfl hlen, hlen⟩

/-- COUNT and then BUILD on a non-empty input that fits: a tree over the symbols that occur, and its table (R251, R252). -/
theorem exists_count_build {s : State} (hpos : 1 ≤ s.sbLen.toNat) (hs : s.sbLen.toNat ≤ 4096) :
    ∃ s₁ s₂ n T, exec .cmdCount s = .next s₁ ∧ exec .cmdBuild s₁ = .next s₂ ∧ s₁.err = 0#3 ∧ s₂.err = 0#3 ∧
      (∀ x, (s₁.count x).toNat = s.symbols.count x) ∧ s₂.treeValid = true ∧ TreeWf s₂ n ∧ s₂.tree = some T ∧
      T.symbols.Nodup ∧ (∀ x, x ∈ T.symbols ↔ x ∈ s.symbols) ∧ ∀ x, s₂.codewordOf x = T.codes.lookup x := by
  obtain ⟨s₁, h₁, hcount, herr₁⟩ := exec_cmdCount_of_fits hs
  have hmem := mem_recorded_of_counts hcount
  have hne : s₁.recorded ≠ [] := by
    obtain ⟨x, hx⟩ := List.exists_mem_of_length_pos (by rwa [symbols_length] : 0 < s.symbols.length)
    exact List.ne_nil_of_mem ((hmem x).mpr hx)
  obtain ⟨s₂, T, h₂, hv, hw, hT, hperm, -, hct, -, herr₂, -⟩ := buildReplacesTreeAndTable s₁ hne
  exact ⟨s₁, s₂, _, T, h₁, h₂, herr₁, herr₂, hcount, hv, hw, hT, hperm.nodup_iff.mpr (recorded_nodup s₁),
    fun x => hperm.mem_iff.trans (hmem x), hct⟩

/-- COUNT and then BUILD on the empty input (R251, R252, R282). -/
theorem exec_count_build_of_empty {s : State} (h : s.sbLen = 0#32) :
    ∃ s₁ s₂, exec .cmdCount s = .next s₁ ∧ s₁.err = 0#3 ∧ exec .cmdBuild s₁ = .next s₂ ∧ s₂.err = 1#3 ∧
      s₂.ct = s.ct ∧ s₂.node = s.node ∧ s₂.root = s.root ∧ s₂.treeValid = s.treeValid := by
  obtain ⟨s₁, h₁, hcount, herr₁⟩ := exec_cmdCount_of_fits (s := s) (by rw [h]; decide)
  rw [symbols_of_sbLen_zero h] at hcount
  have hnone : s₁.accept.recorded = [] :=
    List.eq_nil_iff_forall_not_mem.mpr fun x hx => List.not_mem_nil ((mem_recorded_of_counts hcount x).mp hx)
  obtain ⟨-, hfail⟩ | ⟨hne, -⟩ := runBuild_spec s₁.accept
  · refine ⟨s₁, _, h₁, herr₁, exec_cmdBuild_of_ok hfail, rfl, ?_⟩
    rw [exec_frame h₁]
    exact ⟨rfl, rfl, rfl, rfl⟩
  · exact absurd hnone hne

/-! ### The law (R259) -/

theorem stream_congr {s t : State} (h : t.bb = s.bb) (hl : t.bbLen = s.bbLen) : t.stream = s.stream := by
  unfold State.stream State.bbAt
  rw [h, hl]

theorem count_congr {s t : State} (h : t.ft = s.ft) (x : Sym) : t.count x = s.count x := by
  simp only [State.count, h]

/-- ENCODE and then DECODE: what was encoded comes back, and the frequencies, the table, the input and the stream are
still there (R235, R253, R254). -/
theorem exists_encode_decode {s : State} {n : Nat} {T : Tree} {q : List Digit} (hv : s.treeValid = true)
    (hw : TreeWf s n) (hT : s.tree = some T) (hct : ∀ x, s.codewordOf x = T.codes.lookup x)
    (hs : s.sbLen.toNat ≤ 4096) (hq : s.concatCodes s.symbols = some q) (hfit : q.length ≤ 32768) :
    ∃ t u, exec .cmdEncode s = .next t ∧ exec .cmdDecode t = .next u ∧ t.err = 0#3 ∧ u.err = 0#3 ∧
      u.dbLen = s.sbLen ∧ u.decoded = s.symbols ∧ u.stream = q ∧ u.bbLen.toNat = q.length ∧
      u.sb = s.sb ∧ u.sbLen = s.sbLen ∧ u.ft = s.ft ∧ u.ct = s.ct := by
  obtain ⟨t, ht, herr, hstream, hbbLen⟩ := exec_cmdEncode_of_fits hs hq hfit
  obtain ⟨hnode, hroot, hvalid, htable⟩ :
      t.node = s.node ∧ t.root = s.root ∧ t.treeValid = s.treeValid ∧ t.ct = s.ct := by simpa using exec_tree_ct ht
  have hct' (x : Sym) : t.codewordOf x = T.codes.lookup x := (codewordOf_congr htable x).trans (hct x)
  have hq' : t.concatCodes s.symbols = some t.stream := by rw [hstream, concatCodes_congr htable, hq]
  obtain ⟨u, hu, herr', hdec, hdbLen⟩ := exec_cmdDecode_of_stream (hvalid.trans hv) (hw.congr hnode hroot)
    ((hw.tree_congr hnode hroot).trans hT) hct' (hbbLen.trans_le hfit) hq' ((symbols_length s).trans_le hs)
  obtain ⟨hsb, hsbLen⟩ := exec_sb ht
  obtain ⟨hsb', hsbLen'⟩ := exec_sb hu
  obtain ⟨hbb', hbbLen'⟩ : u.bb = t.bb ∧ u.bbLen = t.bbLen := by simpa using exec_bb hu
  have hft : t.ft = s.ft := by simpa using exec_ft ht
  have hft' : u.ft = t.ft := by simpa using exec_ft hu
  have htable' : u.ct = t.ct := by simpa using exec_ct hu
  exact ⟨t, u, ht, hu, herr, herr', BitVec.eq_of_toNat_eq (hdbLen.trans (symbols_length s)), hdec,
    (stream_congr hbb' hbbLen').trans hstream, hbbLen' ▸ hbbLen, hsb'.trans hsb, hsbLen'.trans hsbLen,
    hft'.trans hft, htable'.trans htable⟩

/-- The codewords of a tree whose leaves carry different symbols are prefix-free (R194). -/
theorem codewordOf_prefixFree {s : State} {T : Tree} (hn : T.symbols.Nodup)
    (hct : ∀ x, s.codewordOf x = T.codes.lookup x) {x y : Sym} {p p' : List Digit} (hxy : x ≠ y)
    (hp : s.codewordOf x = some p) (hp' : s.codewordOf y = some p') : ¬ p <+: p' := by
  have hxp : (x, p) ∈ T.codes := lookup_mem ((hct x).symm.trans hp)
  have hyp : (y, p') ∈ T.codes := lookup_mem ((hct y).symm.trans hp')
  exact T.codes_prefixFree hn _ hxp _ hyp hxy

/-- Settles O47: COUNT and BUILD leave a tree whose leaves carry the symbols of the input (`exists_count_build`), so each
of them has a codeword and the input encodes; ENCODE and DECODE then bring it back (`exists_encode_decode`). On the empty
input no symbol is recorded (`exec_count_build_of_empty`). -/
theorem endToEndRoundTrip : Obligations.EndToEndRoundTrip := by
  refine ⟨fun s hpos hs => ?_, fun s h => exec_count_build_of_empty h⟩
  obtain ⟨s₁, s₂, n, T, h₁, h₂, herr₁, herr₂, hcount, hv, hw, hT, hn, hmem, hct⟩ := exists_count_build hpos hs
  have hcodes (x : Sym) : s₂.codewordOf x ≠ none ↔ x ∈ s.symbols := by
    rw [hct, T.lookup_codes_ne_none_iff, hmem]
  obtain ⟨q, hq⟩ := concatCodes_isSome (s := s₂) fun x hx => (hcodes x).mpr hx
  refine ⟨s₁, s₂, q, h₁, h₂, herr₁, herr₂, hq, fun hfit => ?_⟩
  obtain ⟨hsb₁, hsbLen₁⟩ := exec_sb h₁
  obtain ⟨hsb₂, hsbLen₂⟩ := exec_sb h₂
  have hft₂ : s₂.ft = s₁.ft := by simpa using exec_ft h₂
  have hsb : s₂.sb = s.sb := hsb₂.trans hsb₁
  have hsbLen : s₂.sbLen = s.sbLen := hsbLen₂.trans hsbLen₁
  have hsyms : s₂.symbols = s.symbols := symbols_congr hsb hsbLen
  rw [← hsyms] at hq
  obtain ⟨s₃, s₄, h₃, h₄, herr₃, herr₄, hdbLen, hdec, hstream, hbbLen, hsb', hsbLen', hft', hct'⟩ :=
    exists_encode_decode hv hw hT hct (by rwa [hsbLen]) hq hfit
  have hcodes' := codewordOf_congr hct'
  refine ⟨s₃, s₄, h₃, h₄, herr₃, herr₄, hdbLen.trans hsbLen, hdec.trans hsyms, hsb'.trans hsb, hsbLen'.trans hsbLen,
    fun x => ?_, fun x y p p' => codewordOf_prefixFree hn fun x => (hcodes' x).trans (hct x), fun x => ?_, hstream, ?_⟩
  · rw [count_congr (hft'.trans hft₂)]
    exact hcount x
  · rw [hcodes']
    exact hcodes x
  · rw [hbbLen, ← hsyms]
    exact length_concatCodes ((concatCodes_congr hct' s₂.symbols).trans hq)

end Sys2Proof.Machine
end

section
/-! PROOFS. What a command that fails leaves as it was (R282, R291), and that buffers of any capacity the lengths cannot
exceed never overflow (R287, U11). -/

namespace Sys2Proof.Machine

open Sys2Proof

/-! ### The empty alphabet (R282) -/

theorem recorded_eq_nil {s : State} (h : ∀ x, s.count x = 0#32) : s.recorded = [] :=
  List.eq_nil_iff_forall_not_mem.mpr fun x hx => mem_recorded.mp hx (h x)

/-- Settles O26: with nothing recorded TB_BUILD, and BUILD's micro-operations with it, end in the state they began in
(`tbBuild_spec`, `runBuild_spec`), so the answer differs by the reply or by what the completion writes. -/
theorem emptyAlphabetWritesNothing : Obligations.EmptyAlphabetWritesNothing := by
  intro s hcount
  have hnone : s.recorded = [] := recorded_eq_nil hcount
  constructor
  · obtain ⟨-, hfail⟩ | ⟨hne, -⟩ := tbBuild_spec s
    · exact exec_tbBuild_of_ok hfail
    · exact absurd hnone hne
  · obtain ⟨-, hfail⟩ | ⟨hne, -⟩ := runBuild_spec s.accept
    · exact exec_cmdBuild_of_ok hfail
    · exact absurd hnone hne

/-! ### What the micro-operations leave when they fail (R212, R234, R291) -/

/-- ERR is not 0 after failures only (R34). -/
theorem Result.exists_fail_of_code {r : Result} (h : r.code ≠ 0#3) : ∃ k, r = .fail k := by
  cases r with
  | ok => exact absurd rfl h
  | fail k => exact ⟨k, rfl⟩

theorem runCount_of_fail {cap : Config.Capacities} {s : State} {k : ErrKind} (h : (runCount cap s).2 = .fail k) :
    (runCount cap s).1 = s := by
  obtain ⟨-, hrun⟩ | ⟨-, t, hrun, -⟩ := runCount_spec cap s
  · rw [hrun]
  · rw [hrun] at h; cases h

theorem runBuild_of_fail {s t : State} {k : ErrKind} (h : runBuild s = .ok (t, .fail k)) : t = s := by
  obtain ⟨-, hrun⟩ | ⟨-, u, T, hrun, -⟩ := runBuild_spec s
  · rw [hrun] at h; cases h; rfl
  · rw [hrun] at h; cases h

/-- ENC_RUN that fails leaves no stream, and OUT counts what its loop had emitted (R212, log entry 3). -/
theorem encRun_of_fail {cap : Config.Capacities} {s : State} {k : ErrKind} (h : (encRun cap s).2 = .fail k) :
    ∃ o, (encRun cap s).1 = { s.leaveStream (.fail k) [] with out := o } := by
  by_cases hs : cap.sb < s.sbLen.toNat
  · rw [encRun_of_long hs]
    exact ⟨s.out, rfl⟩
  · rcases hloop : encodeLoop cap s (List.range s.sbLen.toNat) [] with ⟨q, r⟩
    rw [encRun_of_loop (Nat.le_of_not_lt hs) hloop] at h ⊢
    obtain rfl : r = .fail k := h
    exact ⟨_, rfl⟩

/-- DEC_RUN that fails leaves no decoded sequence, CUR where the walk stood and in OUT what it had emitted (R234, log
entry 3). -/
theorem decRun_of_fail {cap : Config.Capacities} {s : State} {k : ErrKind} (h : (decRun cap s).2 = .fail k) :
    ∃ e o, (decRun cap s).1 = { s.leaveDecoded (.fail k) [] with cur := e, out := o } := by
  cases hv : s.treeValid with
  | false =>
    rw [decRun_of_no_tree hv]
    exact ⟨s.cur, s.out, rfl⟩
  | true =>
    by_cases hl : cap.bb < s.bbLen.toNat
    · rw [decRun_of_long hv hl]
      exact ⟨s.cur, s.out, rfl⟩
    · rcases hloop : decodeLoop cap s (List.range s.bbLen.toNat) s.root [] with ⟨e, q, r⟩
      rw [decRun_of_loop hv (Nat.le_of_not_lt hl) hloop] at h ⊢
      obtain rfl : r = .fail k := h
      exact ⟨e, _, rfl⟩

/-- Settles O49: a failing COUNT or BUILD completes from the state it was accepted in, a failing ENCODE or DECODE from
one whose output buffer holds nothing, so that every element of it is a free value. -/
theorem failedCommandKeepsTheRest : Obligations.FailedCommandKeepsTheRest := by
  intro s t
  refine ⟨fun ht herr => ?_, fun ht herr => ?_, fun ht herr => ?_, fun ht herr => ?_⟩
  · obtain rfl := Host.Outcome.next.inj ht
    obtain ⟨k, hk⟩ := Result.exists_fail_of_code herr
    rw [runCount_of_fail hk]
    rfl
  · obtain ⟨u, r, hu, rfl⟩ := exec_cmdBuild_next ht
    obtain ⟨k, rfl⟩ := Result.exists_fail_of_code herr
    rw [runBuild_of_fail hu]
    rfl
  · obtain rfl := Host.Outcome.next.inj ht
    obtain ⟨k, hk⟩ := Result.exists_fail_of_code herr
    obtain ⟨o, hrun⟩ := encRun_of_fail hk
    rw [hrun]
    exact ⟨rfl, fun _ => rfl⟩
  · obtain rfl := Host.Outcome.next.inj ht
    obtain ⟨k, hk⟩ := Result.exists_fail_of_code herr
    obtain ⟨e, o, hrun⟩ := decRun_of_fail hk
    rw [hrun]
    exact ⟨rfl, fun _ => rfl⟩

/-! ### Buffers large enough (R287, U11) -/

/-- No codeword is longer than CODE_MAX (R197). -/
theorem codewordOf_length_le {s : State} {x : Sym} {p : List Digit} (h : s.codewordOf x = some p) :
    p.length ≤ 255 := by
  obtain ⟨-, -, hlen⟩ := codewordOf_some h
  have hlt : (s.code x).len.toNat < 256 := (s.code x).len.isLt
  omega

theorem concatCodes_length_le {s : State} {xs : List Sym} {q : List Digit} (h : s.concatCodes xs = some q) :
    q.length ≤ 255 * xs.length := by
  induction xs generalizing q with
  | nil => cases h; exact Nat.zero_le _
  | cons x xs ih =>
    obtain ⟨p, r, hp, hr, rfl⟩ := concatCodes_cons h
    have hpl := codewordOf_length_le hp
    have hrl := ih hr
    simp only [List.length_append, List.length_cons]
    omega

/-- The codewords up to the one that does not fit are at most 255 digits each, so they are too few to fill BB. -/
theorem encodeLoop_ne_capacity {cap : Config.Capacities} (s : State) {is : List Nat}
    (h : 255 * is.length ≤ cap.bb) : (encodeLoop cap s is []).2 ≠ .fail .capacity := by
  obtain ⟨q, -, -, hloop⟩ | ⟨pre, i, post, q, -, -, -, -, hloop⟩ |
      ⟨pre, i, post, q, p, rfl, hq, -, hp, hover, -⟩ := encodeLoop_cases cap s is [] (Nat.zero_le _)
  · simp [hloop]
  · simp [hloop]
  · have hql := concatCodes_length_le hq
    have hpl := codewordOf_length_le hp
    simp only [List.length_append, List.length_cons, List.length_map, List.length_nil] at h hql hover
    omega

/-- A digit read emits one symbol at most, so DB with room for a symbol per digit to come has room at each of them. -/
theorem decodeLoop_ne_capacity {cap : Config.Capacities} (s : State) {is : List Nat} (cur : Idx) {out : List Sym}
    (h : out.length + is.length ≤ cap.db) : (decodeLoop cap s is cur out).2.2 ≠ .fail .capacity := by
  fun_induction decodeLoop cap s is cur out with
  | case1 cur out => split <;> simp
  | case2 => simp
  | case3 cur out i is n b hone nxt hleaf hfull =>
    rw [List.length_cons] at h
    omega
  | case4 cur out i is n b hone nxt hleaf hroom ih =>
    refine ih ?_
    simp only [List.length_append, List.length_cons, List.length_nil] at h ⊢
    omega
  | case5 cur out i is n b hone nxt hleaf ih =>
    refine ih ?_
    rw [List.length_cons] at h
    omega

theorem encRun_ne_capacity {cap : Config.Capacities} {s : State} (hs : s.sbLen.toNat ≤ cap.sb)
    (hb : 255 * s.sbLen.toNat ≤ cap.bb) : (encRun cap s).2 ≠ .fail .capacity := by
  rw [encRun_of_loop hs rfl]
  exact encodeLoop_ne_capacity s (by rwa [List.length_range])

theorem decRun_ne_capacity {cap : Config.Capacities} {s : State} (hb : s.bbLen.toNat ≤ cap.bb)
    (hd : s.bbLen.toNat ≤ cap.db) : (decRun cap s).2 ≠ .fail .capacity := by
  cases hv : s.treeValid with
  | false => simp [decRun_of_no_tree hv]
  | true =>
    rw [decRun_of_loop hv hb rfl]
    exact decodeLoop_ne_capacity s s.root (by simpa using hd)

/-- Settles O56: the length checks pass, and neither loop comes to a full buffer: a symbol of SB adds at most CODE_MAX
digits to BB and a digit of BB at most one symbol to DB. -/
theorem largeBuffersNeverOverflow : Obligations.LargeBuffersNeverOverflow := by
  intro s cap hsb henc hbb hdb
  refine ⟨?_, encRun_ne_capacity hsb henc, decRun_ne_capacity hbb hdb⟩
  obtain ⟨hlong, -⟩ | ⟨-, t, hrun, -⟩ := runCount_spec cap s
  · exact absurd hsb hlong.not_ge
  · simp [hrun]

end Sys2Proof.Machine
end

section
/-! PROOFS. The four commands on the state after reset (R323). -/

namespace Sys2Proof.Machine

open Sys2Proof

/-- COUNT on the empty input leaves the empty mapping (R251). -/
theorem exec_cmdCount_of_empty {s : State} (h : s.sbLen = 0#32) :
    ∃ t, exec .cmdCount s = .next t ∧ t.err = 0#3 ∧ ∀ x, t.count x = 0#32 := by
  obtain ⟨t, ht, hcount, herr⟩ := exec_cmdCount_of_fits (s := s) (by simp [h])
  refine ⟨t, ht, herr, fun x => BitVec.eq_of_toNat_eq ?_⟩
  rw [hcount, symbols_of_sbLen_zero h]
  rfl

/-- ENCODE on the empty input leaves the empty stream, under every table (R215, R253). -/
theorem exec_cmdEncode_of_empty {s : State} (h : s.sbLen = 0#32) :
    ∃ t, exec .cmdEncode s = .next t ∧ t.err = 0#3 ∧ t.bbLen = 0#32 := by
  have hq : s.concatCodes s.symbols = some [] := by rw [symbols_of_sbLen_zero h]; rfl
  obtain ⟨t, ht, herr, -, hlen⟩ := exec_cmdEncode_of_fits (by simp [h]) hq (Nat.zero_le _)
  exact ⟨t, ht, herr, BitVec.eq_of_toNat_eq hlen⟩

/-- DECODE without a tree reports EmptyTreeError (R237, R254). -/
theorem exec_cmdDecode_of_no_tree {s : State} (hv : s.treeValid = false) :
    ∃ t, exec .cmdDecode s = .next t ∧ t.err = 2#3 :=
  ⟨_, rfl, congrArg Result.code (congrArg Prod.snd (decRun_of_no_tree (s := s.accept) hv))⟩

/-- Settles O9: the reset state has an empty input (COUNT, ENCODE), records no symbol (BUILD, by O26) and has no tree
(DECODE); each command's answer follows from that one fact, in any state. -/
theorem commandsAfterReset : Obligations.CommandsAfterReset :=
  ⟨exec_cmdCount_of_empty rfl, ⟨_, (emptyAlphabetWritesNothing State.reset fun _ => rfl).2, rfl⟩,
    exec_cmdEncode_of_empty rfl, exec_cmdDecode_of_no_tree rfl⟩

end Sys2Proof.Machine
end
